-- ==== Sys2Proof/Word.lean ====
section
/-! DEFINITION. The word types of Huffamn CORE (spec/00_scope.md R7, R9): bit 0 is the least significant bit,
every register is an unsigned value of its stated width. -/

namespace Sys2Proof

/-- One byte of a stream, and one code digit (R7, R34). -/
abbrev Byte := BitVec 8

/-- A symbol: one input byte, 0..255 (R7 `NSYM`). -/
abbrev Sym := BitVec 8

/-- A register word, a frequency-table entry, a count (R7 `FREQ_W`, `COUNT_W`). -/
abbrev Word32 := BitVec 32

/-- A command word (R70). -/
abbrev CmdWord := BitVec 64

/-- A node index, 0..510, or NIL = 511 (R7 `NIL`). -/
abbrev NodeIdx := BitVec 9

/-- A word address of the register read port (R38). -/
abbrev RegAddr := BitVec 20

end Sys2Proof
end

