-- ==== Sys2Proof/Syntax.lean ====
section
/-! DEFINITION. The commands of CORE, one constructor per row of spec/opcode_table.json (spec/30_encoding.md R72).
Operands are the unsigned fields of the command word, used as they are (R71), so their types carry their ranges. -/

namespace Sys2Proof

/-- A command. The rule each follows: nop R203, setk R90, clrf R91, cnt R92, ldf R93, setn R94, build R100, gen R120,
emith R150, enc R152, flush R153, parseh R172, decode R176, srst R201. -/
inductive Instr where
  | nop
  | setk (k : BitVec 8)
  | clrf
  | cnt (s : Sym)
  | ldf (s : Sym) (f : Word32)
  | setn (n : Word32)
  | build
  | gen
  | emith
  | enc (s : Sym)
  | flush
  | parseh
  | decode
  | srst
  deriving DecidableEq, Repr

end Sys2Proof
end

