-- ==== Sys2Proof/Decode.lean ====
section
/-! DEFINITION. The command word: its fields (spec/30_encoding.md R70), the opcode map (R72, R73), the decoder with
its two rejections by name (R84), and the encoder (R85: "The assembled word is {A32, 16'b0, A8, OPC}"). -/

namespace Sys2Proof

/-- The 14 legal opcodes (R73), one per command. -/
inductive Opcode where
  | nop | setk | clrf | cnt | ldf | setn | build | gen | emith | enc | flush | parseh | decode | srst
  deriving DecidableEq, Repr

/-- The opcode numbers of R72. -/
def Opcode.code : Opcode → BitVec 8
  | .nop => 0x00#8
  | .setk => 0x01#8
  | .clrf => 0x02#8
  | .cnt => 0x03#8
  | .ldf => 0x04#8
  | .setn => 0x05#8
  | .build => 0x10#8
  | .gen => 0x11#8
  | .emith => 0x20#8
  | .enc => 0x21#8
  | .flush => 0x22#8
  | .parseh => 0x30#8
  | .decode => 0x31#8
  | .srst => 0xFF#8

/-- Every legal opcode, in the order of R72. -/
def Opcode.all : List Opcode :=
  [.nop, .setk, .clrf, .cnt, .ldf, .setn, .build, .gen, .emith, .enc, .flush, .parseh, .decode, .srst]

/-- The opcode with a given number, if it is one of the 14 (R73). -/
def Opcode.ofCode (b : BitVec 8) : Option Opcode := Opcode.all.find? (fun o => o.code == b)

/-- Column A8 of R72. -/
def Opcode.usesA8 : Opcode → Bool
  | .setk | .cnt | .ldf | .enc => true
  | .nop | .clrf | .setn | .build | .gen | .emith | .flush | .parseh | .decode | .srst => false

/-- Column A32 of R72. -/
def Opcode.usesA32 : Opcode → Bool
  | .ldf | .setn => true
  | .nop | .setk | .clrf | .cnt | .build | .gen | .emith | .enc | .flush | .parseh | .decode | .srst => false

namespace Cmd

/-- `OPC`, bits 7:0 (R70). -/
def opc (c : CmdWord) : BitVec 8 := c.extractLsb' 0 8

/-- `A8`, bits 15:8 (R70). -/
def a8 (c : CmdWord) : BitVec 8 := c.extractLsb' 8 8

/-- `RSVD`, bits 31:16 (R70). -/
def rsvd (c : CmdWord) : BitVec 16 := c.extractLsb' 16 16

/-- `A32`, bits 63:32 (R70). -/
def a32 (c : CmdWord) : BitVec 32 := c.extractLsb' 32 32

end Cmd

/-- The command an opcode and its operand fields stand for (R71). -/
def Opcode.toInstr (o : Opcode) (a8 : BitVec 8) (a32 : BitVec 32) : Instr :=
  match o with
  | .nop => .nop
  | .setk => .setk a8
  | .clrf => .clrf
  | .cnt => .cnt a8
  | .ldf => .ldf a8 a32
  | .setn => .setn a32
  | .build => .build
  | .gen => .gen
  | .emith => .emith
  | .enc => .enc a8
  | .flush => .flush
  | .parseh => .parseh
  | .decode => .decode
  | .srst => .srst

/-- Why a word is no command: the two rejections of R84. Both are architectural errors, PROTOCOL ILLEGAL_OPCODE and
PROTOCOL BAD_FIELD (R237). -/
inductive DecodeError where
  | illegalOpcode
  | badField
  deriving DecidableEq, Repr

/-- R84's field condition: some bit that the opcode leaves unused is not 0. -/
def fieldsBad (o : Opcode) (c : CmdWord) : Bool :=
  Cmd.rsvd c != 0#16 || (!o.usesA8 && Cmd.a8 c != 0#8) || (!o.usesA32 && Cmd.a32 c != 0#32)

/-- R84: decoding a command word, total on every 64-bit word; the opcode check comes before the field check. -/
def decode (c : CmdWord) : Except DecodeError Instr :=
  match Opcode.ofCode (Cmd.opc c) with
  | none => .error .illegalOpcode
  | some o => if fieldsBad o c then .error .badField else .ok (o.toInstr (Cmd.a8 c) (Cmd.a32 c))

/-- The instruction the decoder reads from a row of spec/opcode_table.json: a command is ONE 64-bit word (R70), so
the table's bits are the word's bits. -/
def decodeTableWord (nbits w : Nat) : Option Instr :=
  match decode (BitVec.ofNat 64 (w % 2 ^ nbits)) with
  | .ok i => some i
  | .error _ => none

/-- The opcode of a command. -/
def Instr.opcode : Instr → Opcode
  | .nop => .nop
  | .setk _ => .setk
  | .clrf => .clrf
  | .cnt _ => .cnt
  | .ldf _ _ => .ldf
  | .setn _ => .setn
  | .build => .build
  | .gen => .gen
  | .emith => .emith
  | .enc _ => .enc
  | .flush => .flush
  | .parseh => .parseh
  | .decode => .decode
  | .srst => .srst

/-- The A8 operand of a command, 0 where it has none (R72). -/
def Instr.a8 : Instr → BitVec 8
  | .setk k => k
  | .cnt s => s
  | .ldf s _ => s
  | .enc s => s
  | .nop | .clrf | .setn _ | .build | .gen | .emith | .flush | .parseh | .decode | .srst => 0#8

/-- The A32 operand of a command, 0 where it has none (R72). -/
def Instr.a32 : Instr → BitVec 32
  | .ldf _ f => f
  | .setn n => n
  | .nop | .setk _ | .clrf | .cnt _ | .build | .gen | .emith | .enc _ | .flush | .parseh | .decode | .srst => 0#32

/-- R85: the word of a command, `{A32, 16'b0, A8, OPC}`. -/
def encode (i : Instr) : CmdWord := i.a32 ++ 0#16 ++ i.a8 ++ i.opcode.code

end Sys2Proof
end

