-- ==== Sys2Proof/Config.lean ====
section
/-! DEFINITION. What is fixed for CORE (spec/00_scope.md R7, R8: no parameter is left open), and the one value the
spec leaves free. -/

namespace Sys2Proof.Config

/-- `NIL`: the index meaning "no node" (R7, R30). -/
def nil : NodeIdx := 511#9

/-- `NNODES_MAX`: arena entries `NODE[0..510]` (R7, R30). -/
def arenaSize : Nat := 511

/-- `MAX_LEN`: the greatest code length in digits (R7, R114). -/
def maxLen : Nat := 255

/-- FREE VALUE (spec/70_reset_and_hazards.md R284, 93_implementation_defined.md I1; log 6). What the register read
port returns for a read that overlaps an executing command: any 32-bit value. The first argument is the counter
`State.freeCount`, so that each such read has a value of its own. Nothing constrains it. -/
opaque overlapRead : Nat → RegAddr → Word32

end Sys2Proof.Config
end

