-- ==== Sys2Proof/Machine/State.lean ====
section
/-! DEFINITION. The state of CORE (spec/10_state.md R21: "Nothing else is architectural") and, beside it, the host's
side of the four ports (spec/20_memory.md R69). All of it is plain data. -/

namespace Sys2Proof.Machine

/-- `KIND` of an arena entry (R30). -/
inductive NodeKind where
  | free | leaf | pad | int
  deriving DecidableEq, Repr

/-- One arena entry (R30). `ch` lists the children of an internal node from digit 0 up; a child not listed reads 0. -/
structure Node where
  kind : NodeKind
  sym  : BitVec 8
  key  : BitVec 9
  freq : BitVec 40
  nch  : BitVec 8
  ch   : List NodeIdx
  deriving DecidableEq, Repr

/-- R30: "A FREE entry has every field 0." -/
def Node.free : Node := ⟨.free, 0#8, 0#9, 0#40, 0#8, []⟩

/-- `ERRKIND` (R37, R236): 0 none, 1 CONFIG, 2 FORMAT, 3 PROTOCOL. -/
inductive ErrKind where
  | none | config | format | protocol
  deriving DecidableEq, Repr

/-- What the host does to CORE (R69), one move a step. Consuming OUT changes nothing and has no move. -/
inductive HostMove where
  /-- Issue one command word on the command port (R50). -/
  | command (c : CmdWord)
  /-- Read a register word at a command boundary (R57, R284). -/
  | read (a : RegAddr)
  /-- Read a register word while a command executes: any value comes back (R284; log 6). -/
  | readOverlap (a : RegAddr)
  /-- Attach the byte sequence IN for the session (R51, R280). -/
  | attach (bytes : List Byte)
  /-- Power-on reset, with the bytes the host attaches as IN, `[]` if it attaches nothing (R270, R273). -/
  | powerOn (bytes : List Byte)
  deriving DecidableEq, Repr

/-- The state: R21's tuple, field by field in its order, then the host's side. -/
structure State where
  /-- `K`, the radix (R23). -/
  k : BitVec 8
  /-- `NCOUNT`, the original byte count (R26). -/
  ncount : Word32
  /-- `FREQ[s]` (R25). -/
  freq : Vector Word32 256
  /-- `PRESENT[s]` (R25). -/
  present : Vector Bool 256
  /-- `TREE_VALID` (R27). -/
  treeValid : Bool
  /-- `CODE_VALID` (R27). -/
  codeValid : Bool
  /-- `DEC_DONE` (R27). -/
  decDone : Bool
  /-- `NODE[0..510]` (R30), from entry 0 up; an entry not listed is FREE (log 4). -/
  node : List Node
  /-- `NNODES` (R33). -/
  nnodes : BitVec 10
  /-- `NLEAF` (R33). -/
  nleaf : BitVec 10
  /-- `NPAD` (R33). -/
  npad : BitVec 8
  /-- `ROOT` (R33). -/
  root : NodeIdx
  /-- `CVALID[s]` (R34). -/
  cvalid : Vector Bool 256
  /-- `CLEN[s]` (R34). -/
  clen : Vector (BitVec 8) 256
  /-- `CDIG[s][i]` (R34): the digits of each symbol from digit 0 up; a digit not listed is 0 (log 4). -/
  cdig : Vector (List Byte) 256
  /-- `ACC`, the packer's partial byte (R35). -/
  acc : BitVec 8
  /-- `BOFF`, the bits placed in `ACC` (R35). -/
  boff : BitVec 3
  /-- `OUT`, the bytes emitted since reset (R53). -/
  out : List Byte
  /-- `OUTCNT` (R21, R53), unbounded (R39). -/
  outcnt : Nat
  /-- `INPOS`, the index in IN of the next byte (R36), unbounded (R39). -/
  inpos : Nat
  /-- `RDBIT`, the bits of `IN[INPOS]` consumed (R36). -/
  rdbit : BitVec 3
  /-- `DEC_COUNT` (R36). -/
  decCount : Word32
  /-- `CURSOR`, the decoder's node (R36). -/
  cursor : NodeIdx
  /-- `ERRKIND` (R37). -/
  errKind : ErrKind
  /-- `ERRSUB` (R37). -/
  errSub : BitVec 8
  /-- `ERROP` (R37). -/
  errOp : BitVec 8
  /-- `ERRINFO` (R37). -/
  errInfo : Word32
  /-- The host's side: `IN`, attached for the session; no state of CORE (R21, R51; log 2). -/
  inp : List Byte
  /-- The host's side: its pending moves, oldest first (R50, R69; log 1). -/
  host : List HostMove
  /-- The host's side: a PARSEH or DECODE was accepted since reset, so IN is fixed (R280; log 3). -/
  inFixed : Bool
  /-- The host's side: the words the register read port returned, oldest first (R57; log 5). -/
  reads : List Word32
  /-- The model's own counter for the free value of an overlapping read (log 6). -/
  freeCount : Nat
  deriving DecidableEq, Repr

/-- Why the model stops with a fault. Each is an `assert` of the spec that cannot fail, which R247 lets a model check;
stopping is safe, since CORE never meets it, and no state a run reaches does (log 8). -/
inductive Fault where
  /-- BUILD: fewer than K nodes are left to merge (R100 `assert |Q| >= K`, R110). Raised by BUILD. Safe. -/
  | mergeShort
  /-- BUILD: a 512th node would be allocated (R111). Raised by BUILD. Safe. -/
  | arenaFull
  /-- GEN: a path of more than 255 digits (R114, R120 `|path| <= 255`). Raised by GEN. Safe. -/
  | depthOver
  /-- BUILD or DECODE: a loop outlives the bound R288 gives it. Raised by BUILD and DECODE. Safe. -/
  | boundPassed
  deriving DecidableEq, Repr

/-- Why the model refuses a step. -/
inductive Refusal where
  /-- An instruction without a meaning. Raised by `exec`'s refused arms alone, of which there is none. Safe. -/
  | notModelled (mnemonic : String)
  /-- The host attaches another IN after the session's first PARSEH or DECODE: the spec gives no move for it
  (R69, R280, 93_implementation_defined.md I2: `refuse`). Raised by the step on such an `attach`, never by an
  instruction. Unsafe for hosts that break the rule: a proof does not cover them (log 3). -/
  | inputChangedInSession
  deriving DecidableEq, Repr

/-- R41: the state after reset, every field of CORE at the value that rule gives it; the host has attached nothing
(R273) and has no move pending. -/
def State.reset : State where
  k := 0#8
  ncount := 0#32
  freq := Vector.replicate 256 0#32
  present := Vector.replicate 256 false
  treeValid := false
  codeValid := false
  decDone := false
  node := []
  nnodes := 0#10
  nleaf := 0#10
  npad := 0#8
  root := Config.nil
  cvalid := Vector.replicate 256 false
  clen := Vector.replicate 256 0#8
  cdig := Vector.replicate 256 []
  acc := 0#8
  boff := 0#3
  out := []
  outcnt := 0
  inpos := 0
  rdbit := 0#3
  decCount := 0#32
  cursor := Config.nil
  errKind := .none
  errSub := 0#8
  errOp := 0#8
  errInfo := 0#32
  inp := []
  host := []
  inFixed := false
  reads := []
  freeCount := 0

end Sys2Proof.Machine
end

