-- ==== Sys2Proof/Machine/Ops.lean ====
section
/-! DEFINITION. The named operations over CORE's state: the per-symbol arrays and the arena, the stream primitives
InByte, InBit and OutByte (spec/20_memory.md R52, R53, R54), ERROR ENTRY (`raise`, spec/60_exceptions.md R240) and
beside it the one way back from the error state, reset (R245, R270). -/

namespace Sys2Proof.Machine

/-- A step's answer. -/
abbrev Answer := Host.Outcome State Fault Refusal

/-! ### Arrays (R10, R30, R34) -/

/-- Entry `s` of a per-symbol array (R10). -/
def symGet {α : Type} (v : Vector α 256) (s : Sym) : α := v[s.toNat]'s.isLt

/-- The array with entry `s` written (R10). -/
def symSet {α : Type} (v : Vector α 256) (s : Sym) (a : α) : Vector α 256 := v.set s.toNat a s.isLt

/-- `NODE[x]` (R30): an entry not listed is FREE, and so is what the index NIL names. -/
def nodeAt (arena : List Node) (x : NodeIdx) : Node := arena[x.toNat]?.getD Node.free

/-- `CH[c]` of an entry (R30): "entries for c ≥ NCH are 0". -/
def Node.child (n : Node) (c : Nat) : NodeIdx := n.ch[c]?.getD 0#9

/-- `CDIG[s][i]` (R34): "Entries at or beyond CLEN[s] are 0". -/
def digitAt (cdig : Vector (List Byte) 256) (s : Sym) (i : Nat) : Byte := (symGet cdig s)[i]?.getD 0#8

/-- The arena's canonical form: at most 511 entries are listed (R7, R111) and none of them is FREE (R33: "Entries
0..NNODES−1 are in use and the rest are FREE"), so that equal arenas are equal lists. -/
def Arena.wf (arena : List Node) : Bool :=
  decide (arena.length ≤ Config.arenaSize) && arena.all (fun n => decide (n.kind ≠ NodeKind.free))

/-! ### Error entry (R236, R237, R240) -/

/-- The errors of R237's table, one constructor a row. -/
inductive Err where
  | badK
  | hdrTrunc | badNdist | dupSymbol | emptyTable | badDigit | padLeaf | underrun | countOverflow
  | illegalOpcode | badField | noTree | noCodes | noCode | misaligned
  deriving DecidableEq, Repr

/-- The kind column of R237. -/
def Err.kind : Err → ErrKind
  | .badK => .config
  | .hdrTrunc | .badNdist | .dupSymbol | .emptyTable | .badDigit | .padLeaf | .underrun | .countOverflow => .format
  | .illegalOpcode | .badField | .noTree | .noCodes | .noCode | .misaligned => .protocol

/-- The ERRSUB column of R237. -/
def Err.sub : Err → BitVec 8
  | .badK => 0x01#8
  | .hdrTrunc => 0x01#8
  | .badNdist => 0x02#8
  | .dupSymbol => 0x03#8
  | .emptyTable => 0x04#8
  | .badDigit => 0x05#8
  | .padLeaf => 0x06#8
  | .underrun => 0x07#8
  | .countOverflow => 0x08#8
  | .illegalOpcode => 0x01#8
  | .badField => 0x02#8
  | .noTree => 0x03#8
  | .noCodes => 0x04#8
  | .noCode => 0x05#8
  | .misaligned => 0x06#8

/-- ERROR ENTRY, R240: `ERRKIND <- KIND; ERRSUB <- SUB; ERROP <- op; ERRINFO <- info mod 2^32`, and nothing else.
"CORE saves no other state, switches no mode and changes no mask." -/
def raise (e : Err) (op : BitVec 8) (info : Nat) (s : State) : State :=
  { s with errKind := e.kind, errSub := e.sub, errOp := op, errInfo := BitVec.ofNat 32 info }

/-- The way back from the error state (R245, R270): every piece of R21's state takes its reset value (R41). IN and
the rest of the host's side stay (R273), but a new session begins, for which IN is not fixed yet (R280). -/
def resetCore (s : State) : State :=
  { State.reset with inp := s.inp, host := s.host, reads := s.reads, freeCount := s.freeCount }

/-- How a command whose body may raise ends: both ways there is a next state (R12, R240). -/
def settle (r : Except State State) : Answer :=
  match r with
  | .ok s => .next s
  | .error s => .next s

/-! ### Streams (R52, R53, R54) -/

/-- `OutByte(b)`, R53: `OUT <- OUT ++ [b]; OUTCNT <- OUTCNT + 1`. -/
def outByte (b : Byte) (s : State) : State := { s with out := s.out ++ [b], outcnt := s.outcnt + 1 }

/-- `OutByte` of each byte in turn. -/
def outBytes (bs : List Byte) (s : State) : State := bs.foldl (fun t b => outByte b t) s

/-- `InByte(exc)`, R52. `exc` is the raise the calling rule names. -/
def inByte (exc : State → State) (s : State) : Except State (Byte × State) :=
  match s.inp[s.inpos]? with
  | none => .error (exc s)
  | some b => .ok (b, { s with inpos := s.inpos + 1 })

/-- `n` bytes of IN as a little-endian integer (R56): `Σ 256^i · InByte`, the least significant byte first. -/
def inLE (exc : State → State) : Nat → State → Except State (Nat × State)
  | 0, s => .ok (0, s)
  | n + 1, s => do
    let (b, s) ← inByte exc s
    let (v, s) ← inLE exc n s
    .ok (b.toNat + 256 * v, s)

/-- `InBit(exc)`, R54: bit `7 - RDBIT` of `IN[INPOS]`, bit 7 first. -/
def inBit (exc : State → State) (s : State) : Except State (Bool × State) :=
  match s.inp[s.inpos]? with
  | none => .error (exc s)
  | some b =>
    let bit := b.getLsbD (7 - s.rdbit.toNat)
    if s.rdbit = 7#3 then .ok (bit, { s with rdbit := 0#3, inpos := s.inpos + 1 })
    else .ok (bit, { s with rdbit := s.rdbit + 1#3 })

/-- The byte-boundary step of PARSEH and DECODE (R172, R176):
`if RDBIT != 0: INPOS <- INPOS + 1; RDBIT <- 0`. -/
def alignIn (s : State) : State :=
  if s.rdbit = 0#3 then s else { s with inpos := s.inpos + 1, rdbit := 0#3 }

end Sys2Proof.Machine
end

