-- ==== Sys2Proof/Machine/Operands.lean ====
section
/-! DEFINITION. The operand and field forms the commands compute with: the key set of the frequency table
(spec/10_state.md R25), the digit width (spec/30_encoding.md R80), the bits of a digit (spec/20_memory.md R58) and the
little-endian bytes of a header integer (R56). The operands of the command word itself, A8 and A32, are used as they
are (R71). -/

namespace Sys2Proof.Machine

/-- The symbols 0..255 in ascending order. -/
def allSyms : List Sym := (List.range 256).map (BitVec.ofNat 8)

/-- The symbols s with `PRESENT[s] = 1`, in ascending order (R25, R103, R150). -/
def presentSyms (present : Vector Bool 256) : List Sym := allSyms.filter (fun s => symGet present s)

/-- `NDIST = popcount(PRESENT)`, 0..256 (R25). -/
def ndist (present : Vector Bool 256) : Nat := (presentSyms present).length

/-- `W(K) = ceil(log2 K)`, R80: "the least w with 2^w ≥ K". -/
def digitWidth (k : BitVec 8) : Nat := ((List.range 9).find? (fun w => decide (k.toNat ≤ 2 ^ w))).getD 8

/-- The `w` bits of a digit, the most significant first: `d[b]` for b in w-1 downto 0 (R58, R152). -/
def digitBits (w : Nat) (d : Byte) : List Bool := (List.range w).reverse.map (fun b => d.getLsbD b)

/-- The four bytes of a 32-bit header field, the least significant first (R56, R150). -/
def leBytes (v : Word32) : List Byte := (List.range 4).map (fun i => v.extractLsb' (8 * i) 8)

end Sys2Proof.Machine
end

