-- ==== Sys2Proof/Machine/Flags.lean ====
section
/-! DEFINITION. The flags: the three validity flags and their invalidation (spec/10_state.md R27, R28) and the STATUS
word computed from them (R29). CORE has no arithmetic condition flags (R27). -/

namespace Sys2Proof.Machine

/-- R28: `TREE_VALID <- 0; CODE_VALID <- 0; DEC_DONE <- 0`. -/
def invalidate (s : State) : State := { s with treeValid := false, codeValid := false, decDone := false }

/-- `STATUS.ERR`: `ERRKIND != 0` (R29). -/
def errPending (s : State) : Bool := decide (s.errKind ≠ ErrKind.none)

/-- `STATUS.TREE_EMPTY`: `TREE_VALID = 1 and ROOT = NIL` (R29). -/
def treeEmpty (s : State) : Bool := s.treeValid && decide (s.root = Config.nil)

/-- STATUS, R29: bit 0 ERR, 1 TREE_VALID, 2 CODE_VALID, 3 DEC_DONE, 4 TREE_EMPTY, 5 BUSY (0 at every command
boundary, R284), bits 31:6 zero. -/
def statusWord (s : State) : Word32 :=
  0#26 ++ BitVec.ofBool false ++ BitVec.ofBool (treeEmpty s) ++ BitVec.ofBool s.decDone
    ++ BitVec.ofBool s.codeValid ++ BitVec.ofBool s.treeValid ++ BitVec.ofBool (errPending s)

end Sys2Proof.Machine
end

