-- ==== Sys2Proof/Machine/Code.lean ====
section
/-! DEFINITION. The code table generator GEN (spec/42_code_table.md R120). -/

namespace Sys2Proof.Machine

/-- The code ROM: the three per-symbol arrays of R34. -/
structure CodeRom where
  cvalid : Vector Bool 256
  clen   : Vector (BitVec 8) 256
  cdig   : Vector (List Byte) 256
  deriving DecidableEq, Repr

/-- The cleared ROM, with which GEN begins (R120). -/
def CodeRom.clear : CodeRom :=
  ⟨Vector.replicate 256 false, Vector.replicate 256 0#8, Vector.replicate 256 []⟩

/-- What `Walk` writes at a real leaf (R120): `CVALID[s] <- 1; CLEN[s] <- |path|; CDIG[s][i] <- path[i]`. -/
def CodeRom.put (r : CodeRom) (x : Sym) (path : List Byte) : CodeRom :=
  ⟨symSet r.cvalid x true, symSet r.clen x (BitVec.ofNat 8 path.length), symSet r.cdig x path⟩

/-- `Walk(x, path)` of R120. The number is how many digits more, and one, a path may have: 256 at the root, so that a
path of 255 digits is the longest (R114; log 8). R120 gives a FREE entry no case: nothing (log 9). -/
def walk (arena : List Node) (k : Nat) : Nat → NodeIdx → List Byte → CodeRom → Except Fault CodeRom
  | 0, _, _, _ => .error .depthOver
  | room + 1, x, path, rom =>
    match (nodeAt arena x).kind with
    | .leaf => .ok (rom.put (nodeAt arena x).sym path)
    | .pad => .ok rom
    | .free => .ok rom
    | .int =>
      (List.range k).foldlM
        (fun r i => walk arena k room ((nodeAt arena x).child i) (path ++ [BitVec.ofNat 8 i]) r) rom

/-- The ROM that GEN derives from a tree (R120): `if ROOT != NIL: Walk(ROOT, [])`. -/
def genCodes (k : BitVec 8) (arena : List Node) (root : NodeIdx) : Except Fault CodeRom :=
  if root = Config.nil then .ok CodeRom.clear
  else walk arena k.toNat (Config.maxLen + 1) root [] CodeRom.clear

/-- GEN, R120. -/
def execGen (s : State) : Answer :=
  if s.treeValid then
    match genCodes s.k s.node s.root with
    | .error e => .fault e
    | .ok r => .next { s with cvalid := r.cvalid, clen := r.clen, cdig := r.cdig, codeValid := true }
  else .next (raise .noTree Opcode.gen.code Opcode.gen.code.toNat s)

end Sys2Proof.Machine
end

