-- ==== Sys2Proof/Machine/Control.lean ====
section
/-! DEFINITION. The control commands NOP and SRST (spec/45_control.md). -/

namespace Sys2Proof.Machine

/-- NOP, R203: nothing. -/
def execNop (s : State) : Answer := .next s

/-- SRST, R201: "reset all state to the values of 10_state.md rule R41". -/
def execSrst (s : State) : Answer := .next (resetCore s)

end Sys2Proof.Machine
end

