-- ==== Sys2Proof/Machine/Frequency.lean ====
section
/-! DEFINITION. The configuration and frequency-table commands SETK, CLRF, CNT, LDF, SETN (spec/40_frequency.md). -/

namespace Sys2Proof.Machine

/-- SETK k, R90. -/
def execSetk (k : BitVec 8) (s : State) : Answer :=
  if k < 2#8 then .next (raise .badK Opcode.setk.code k.toNat s)
  else .next (invalidate { s with k := k })

/-- CLRF, R91. -/
def execClrf (s : State) : Answer :=
  .next (invalidate { s with
    freq := Vector.replicate 256 0#32, present := Vector.replicate 256 false, ncount := 0#32 })

/-- CNT x, R92. -/
def execCnt (x : Sym) (s : State) : Answer :=
  if s.ncount = 0xFFFFFFFF#32 ∨ symGet s.freq x = 0xFFFFFFFF#32 then
    .next (raise .countOverflow Opcode.cnt.code x.toNat s)
  else
    .next (invalidate { s with
      freq := symSet s.freq x (symGet s.freq x + 1#32)
      present := symSet s.present x true
      ncount := s.ncount + 1#32 })

/-- LDF x, f, R93. -/
def execLdf (x : Sym) (f : Word32) (s : State) : Answer :=
  if symGet s.present x then .next (raise .dupSymbol Opcode.ldf.code x.toNat s)
  else .next (invalidate { s with freq := symSet s.freq x f, present := symSet s.present x true })

/-- SETN n, R94: TREE_VALID and CODE_VALID stay, "because the tree does not depend on the count". -/
def execSetn (n : Word32) (s : State) : Answer := .next { s with ncount := n, decDone := false }

end Sys2Proof.Machine
end

