-- ==== Sys2Proof/Machine/Packer.lean ====
section
/-! DEFINITION. The header serializer and the packer: EMITH, ENC, FLUSH (spec/43_packer.md). -/

namespace Sys2Proof.Machine

/-- `ACC[i] <- b` (R151). -/
def setAccBit (acc : BitVec 8) (i : Nat) (b : Bool) : BitVec 8 :=
  let m := 1#8 <<< i
  if b then acc ||| m else acc &&& ~~~m

/-- `PutBit(b)`, R151: the bit goes to `ACC[7 - BOFF]`, and a full byte goes out. -/
def putBit (s : State) (b : Bool) : State :=
  let acc := setAccBit s.acc (7 - s.boff.toNat) b
  if s.boff = 7#3 then { outByte acc s with acc := 0#8, boff := 0#3 }
  else { s with acc := acc, boff := s.boff + 1#3 }

/-- `PutBit` of each bit in turn. -/
def putBits (bs : List Bool) (s : State) : State := bs.foldl putBit s

/-- The digits `CDIG[s][0..CLEN[s]-1]` of a symbol's code, in root-to-leaf order (R34, R152). -/
def codeDigits (s : State) (x : Sym) : List Byte :=
  (List.range (symGet s.clen x).toNat).map (fun i => digitAt s.cdig x i)

/-- The bits ENC places for a symbol: each digit of its code in `W(K)` bits, most significant first (R152, R58). -/
def codeBits (s : State) (x : Sym) : List Bool := (codeDigits s x).flatMap (digitBits (digitWidth s.k))

/-- The header of R75 for the state's K, NCOUNT and table, entries in ascending symbol order (R77, R150). -/
def headerBytes (s : State) : List Byte :=
  [s.k] ++ leBytes s.ncount ++ leBytes (BitVec.ofNat 32 (ndist s.present))
    ++ (presentSyms s.present).flatMap (fun x => x :: leBytes (symGet s.freq x))

/-- EMITH, R150: MISALIGNED before BAD_K, both before any output. -/
def execEmith (s : State) : Answer :=
  if s.boff ≠ 0#3 then .next (raise .misaligned Opcode.emith.code s.boff.toNat s)
  else if s.k < 2#8 then .next (raise .badK Opcode.emith.code s.k.toNat s)
  else .next (outBytes (headerBytes s) s)

/-- ENC x, R152: NO_CODES before NO_CODE, both before any bit is placed. -/
def execEnc (x : Sym) (s : State) : Answer :=
  if s.codeValid = false then .next (raise .noCodes Opcode.enc.code Opcode.enc.code.toNat s)
  else if symGet s.cvalid x = false then .next (raise .noCode Opcode.enc.code x.toNat s)
  else .next (putBits (codeBits s x) s)

/-- FLUSH, R153. -/
def execFlush (s : State) : Answer :=
  if s.boff ≠ 0#3 then .next { outByte s.acc s with acc := 0#8, boff := 0#3 }
  else .next s

end Sys2Proof.Machine
end

