-- ==== Sys2Proof/Machine/Tree.lean ====
section
/-! DEFINITION. The tree builder BUILD (spec/41_tree_builder.md R100 and the rules after it). The tree is a function
of K, FREQ and PRESENT alone (R108, R116). -/

namespace Sys2Proof.Machine

/-- What BUILD writes: the arena and the four summary registers (R33). -/
structure Tree where
  node   : List Node
  nnodes : BitVec 10
  nleaf  : BitVec 10
  npad   : BitVec 8
  root   : NodeIdx
  deriving DecidableEq, Repr

/-- A real leaf (R103): KEY the symbol, FREQ the zero-extended table entry. -/
def leafNode (x : Sym) (f : Word32) : Node := ⟨.leaf, x, x.setWidth 9, f.setWidth 40, 0#8, []⟩

/-- Padding leaf j (R107): frequency 0, KEY 256 + j. -/
def padNode (j : Nat) : Node := ⟨.pad, 0#8, BitVec.ofNat 9 (256 + j), 0#40, 0#8, []⟩

/-- The internal node of one merge (R109): KEY the least key among its children, FREQ their sum. -/
def intNode (k : BitVec 8) (arena : List Node) (c : List NodeIdx) : Node where
  kind := .int
  sym  := 0#8
  key  := BitVec.ofNat 9 ((c.map (fun x => (nodeAt arena x).key.toNat)).min?.getD 511)
  freq := BitVec.ofNat 40 (c.map (fun x => (nodeAt arena x).freq.toNat)).sum
  nch  := k
  ch   := c

/-- R104: node a comes before node b when `(FREQ, KEY)` of a is lexicographically less than that of b; `notAfter` is
the order with equality, by which the live nodes are sorted. -/
abbrev notAfter (arena : List Node) (a b : NodeIdx) : Prop :=
  (nodeAt arena a).freq.toNat < (nodeAt arena b).freq.toNat ∨
    ((nodeAt arena a).freq.toNat = (nodeAt arena b).freq.toNat ∧
      (nodeAt arena a).key.toNat ≤ (nodeAt arena b).key.toNat)

/-- The live nodes in ascending order (R104). -/
def sortLive (arena : List Node) (q : List NodeIdx) : List NodeIdx := q.insertionSort (notAfter arena)

/-- The number of padding leaves (R107), for n entries and radix k. -/
def padCount (n k : Nat) : Nat := if (n - 1) % (k - 1) = 0 then 0 else (k - 1) - (n - 1) % (k - 1)

/-- The merge loop of R100 over the arena and the live nodes Q: while |Q| > 1, the K least nodes of Q become the
children of a new node in the next free entry, which joins Q (R109). Answers the arena and the one node left (R111).
The first argument bounds the merges (R288); the checks are the asserts of R110 and R111 (log 8). -/
def mergeLoop (k : BitVec 8) : Nat → List Node → List NodeIdx → Except Fault (List Node × NodeIdx)
  | _, arena, [x] => .ok (arena, x)
  | 0, _, _ => .error .boundPassed
  | fuel + 1, arena, q =>
    if q.length < k.toNat then .error .mergeShort
    else if Config.arenaSize ≤ arena.length then .error .arenaFull
    else
      mergeLoop k fuel (arena ++ [intNode k arena ((sortLive arena q).take k.toNat)])
        ((sortLive arena q).drop k.toNat ++ [BitVec.ofNat 9 arena.length])

/-- The leaves of R103 at entries 0..n−1, in ascending symbol order. -/
def realLeaves (freq : Vector Word32 256) (present : Vector Bool 256) : List Node :=
  (presentSyms present).map (fun x => leafNode x (symGet freq x))

/-- The padding leaves of R107. -/
def padLeaves (p : Nat) : List Node := (List.range p).map padNode

/-- The tree of a table and a radix K ≥ 2, R100: empty table (R105), one entry (R106), or padding and merging. -/
def buildTree (k : BitVec 8) (freq : Vector Word32 256) (present : Vector Bool 256) : Except Fault Tree :=
  let leaves := realLeaves freq present
  let n := ndist present
  if n = 0 then .ok ⟨[], 0#10, 0#10, 0#8, Config.nil⟩
  else if n = 1 then .ok ⟨leaves, 1#10, 1#10, 0#8, 0#9⟩
  else
    let p := padCount n k.toNat
    let arena := leaves ++ padLeaves p
    let q := (List.range arena.length).map (BitVec.ofNat 9)
    match mergeLoop k q.length arena q with
    | .error e => .error e
    | .ok (arena', x) =>
      .ok ⟨arena', BitVec.ofNat 10 arena'.length, BitVec.ofNat 10 (n + p), BitVec.ofNat 8 p, x⟩

/-- BUILD, R100. -/
def execBuild (s : State) : Answer :=
  if s.k < 2#8 then .next (raise .badK Opcode.build.code s.k.toNat s)
  else
    match buildTree s.k s.freq s.present with
    | .error e => .fault e
    | .ok t =>
      .next { s with
        node := t.node, nnodes := t.nnodes, nleaf := t.nleaf, npad := t.npad, root := t.root
        treeValid := true, codeValid := false, decDone := false }

end Sys2Proof.Machine
end

