-- ==== Sys2Proof/Machine/Unpacker.lean ====
section
/-! DEFINITION. The header parser and the unpacker: PARSEH, DECODE (spec/44_unpacker.md). -/

namespace Sys2Proof.Machine

/-- `FORMAT(HDR_TRUNC, INPOS)`: INPOS at the failed read (R172, R237). -/
def hdrTrunc (s : State) : State := raise .hdrTrunc Opcode.parseh.code s.inpos s

/-- The entries of the header (R172): `sym_j`, the DUP_SYMBOL check, then `freq_j`; the number is how many are left. -/
def parseEntries : Nat → State → Except State State
  | 0, s => .ok s
  | d + 1, s => do
    let (x, s) ← inByte hdrTrunc s
    if symGet s.present x then .error (raise .dupSymbol Opcode.parseh.code x.toNat s)
    else
      let (f, s) ← inLE hdrTrunc 4 s
      parseEntries d { s with
        freq := symSet s.freq x (BitVec.ofNat 32 f), present := symSet s.present x true }

/-- The writes of PARSEH once the fixed fields have passed (R172): K, NCOUNT, an empty table, the flags (R28). -/
def startTable (k : BitVec 8) (n : Nat) (s : State) : State :=
  invalidate { s with
    k := k, ncount := BitVec.ofNat 32 n
    freq := Vector.replicate 256 0#32, present := Vector.replicate 256 false }

/-- The body of PARSEH, R172, its checks in header order (R171). -/
def parseHeader (s : State) : Except State State := do
  let (k, s) ← inByte hdrTrunc (alignIn s)
  if k < 2#8 then .error (raise .badK Opcode.parseh.code k.toNat s)
  else
    let (n, s) ← inLE hdrTrunc 4 s
    let (d, s) ← inLE hdrTrunc 4 s
    if 256 < d then .error (raise .badNdist Opcode.parseh.code d s)
    else if d = 0 ∧ 0 < n then .error (raise .emptyTable Opcode.parseh.code n s)
    else parseEntries d (startTable k n s)

/-- PARSEH, R172. -/
def execParseh (s : State) : Answer := settle (parseHeader s)

/-- `FORMAT(UNDERRUN, DEC_COUNT)` (R174). -/
def underrun (s : State) : State := raise .underrun Opcode.decode.code s.decCount.toNat s

/-- `v <- 2*v + InBit(...)`, as often as the number says (R174). -/
def readBits : Nat → Nat → State → Except State (Nat × State)
  | 0, v, s => .ok (v, s)
  | w + 1, v, s => do
    let (b, s) ← inBit underrun s
    readBits w (2 * v + b.toNat) s

/-- `ReadDigit()`, R174: the first bit read is the digit's most significant. -/
def readDigit (s : State) : Except State (Nat × State) := readBits (digitWidth s.k) 0 s

/-- One turn of the loop of R176 (R177): read a digit, check it, move the cursor, and look at the node reached.
`.error` is a raise. R176 gives a FREE entry no case: nothing (log 9). -/
def decodeTurn (s : State) : Except State State := do
  let (v, s) ← readDigit s
  if s.k.toNat ≤ v then .error (raise .badDigit Opcode.decode.code v s)
  else
    let s := { s with cursor := (nodeAt s.node s.cursor).child v }
    match (nodeAt s.node s.cursor).kind with
    | .pad => .error (raise .padLeaf Opcode.decode.code s.cursor.toNat s)
    | .leaf =>
      .ok { outByte (nodeAt s.node s.cursor).sym s with
        decCount := s.decCount + 1#32, cursor := s.root }
    | .int => .ok s
    | .free => .ok s

/-- The loop of R176: `while DEC_COUNT < NCOUNT`, then `DEC_DONE <- 1`. The first argument bounds the turns (R288:
"DECODE reads at most 8·|IN| bits"; log 8). -/
def decodeLoop : Nat → State → Answer
  | 0, s => if s.decCount < s.ncount then .fault .boundPassed else .next { s with decDone := true }
  | fuel + 1, s =>
    if s.decCount < s.ncount then
      match decodeTurn s with
      | .error t => .next t
      | .ok t => decodeLoop fuel t
    else .next { s with decDone := true }

/-- DECODE's start (R176): `DEC_COUNT <- 0; DEC_DONE <- 0`, the byte boundary, `CURSOR <- ROOT`. -/
def decodeStart (s : State) : State :=
  let s := alignIn { s with decCount := 0#32, decDone := false }
  { s with cursor := s.root }

/-- DECODE of a single-leaf tree (R180): the symbol NCOUNT times, no payload bit read. -/
def decodeSingle (s : State) : State :=
  { outBytes (List.replicate s.ncount.toNat (nodeAt s.node s.root).sym) s with
    decCount := s.ncount, decDone := true }

/-- DECODE, R176. -/
def execDecode (s : State) : Answer :=
  if s.treeValid = false then .next (raise .noTree Opcode.decode.code Opcode.decode.code.toNat s)
  else if s.boff ≠ 0#3 then .next (raise .misaligned Opcode.decode.code s.boff.toNat s)
  else
    let s := decodeStart s
    if s.ncount = 0#32 then .next { s with decDone := true }
    else if s.root = Config.nil then .next (raise .emptyTable Opcode.decode.code s.ncount.toNat s)
    else if (nodeAt s.node s.root).kind = NodeKind.leaf then .next (decodeSingle s)
    else decodeLoop (8 * s.inp.length + 1) s

end Sys2Proof.Machine
end

