-- ==== Sys2Proof/Machine/Dispatch.lean ====
section
/-! DEFINITION. One arm per command, each one direct call of its meaning. -/

namespace Sys2Proof.Machine

def exec (i : Instr) (s : State) : Host.Outcome State Fault Refusal :=
  match i with
  | .nop => Sys2Proof.Machine.execNop s
  | .setk k => Sys2Proof.Machine.execSetk k s
  | .clrf => Sys2Proof.Machine.execClrf s
  | .cnt x => Sys2Proof.Machine.execCnt x s
  | .ldf x f => Sys2Proof.Machine.execLdf x f s
  | .setn n => Sys2Proof.Machine.execSetn n s
  | .build => Sys2Proof.Machine.execBuild s
  | .gen => Sys2Proof.Machine.execGen s
  | .emith => Sys2Proof.Machine.execEmith s
  | .enc x => Sys2Proof.Machine.execEnc x s
  | .flush => Sys2Proof.Machine.execFlush s
  | .parseh => Sys2Proof.Machine.execParseh s
  | .decode => Sys2Proof.Machine.execDecode s
  | .srst => Sys2Proof.Machine.execSrst s

end Sys2Proof.Machine
end

