-- ==== Sys2Proof/Machine/RegRead.lean ====
section
/-! DEFINITION. The register read port (spec/10_state.md R38, spec/20_memory.md R57): 32-bit words by 20-bit word
address, side-effect free; unlisted addresses and unused bits read 0. -/

namespace Sys2Proof.Machine

/-- `ID` (R24). -/
def idWord : Word32 := 0x48464D07#32

/-- The code of `ERRKIND` (R236). -/
def ErrKind.code : ErrKind → BitVec 2
  | .none => 0#2
  | .config => 1#2
  | .format => 2#2
  | .protocol => 3#2

/-- The code of `KIND` (R30). -/
def NodeKind.code : NodeKind → BitVec 2
  | .free => 0#2
  | .leaf => 1#2
  | .pad => 2#2
  | .int => 3#2

/-- ERR: `1:0` KIND, `15:8` SUB, `23:16` OP (R38). -/
def errWord (s : State) : Word32 := 0#8 ++ s.errOp ++ s.errSub ++ 0#6 ++ s.errKind.code

/-- W: `W(K)` if K ≥ 2, else 0 (R38). -/
def widthWord (s : State) : Word32 := if s.k < 2#8 then 0#32 else BitVec.ofNat 32 (digitWidth s.k)

/-- PACK: `7:0` ACC, `10:8` BOFF (R38). -/
def packWord (s : State) : Word32 := 0#21 ++ s.boff ++ s.acc

/-- SYMINFO[x]: bit 0 PRESENT, bit 1 CVALID, `15:8` CLEN (R38). -/
def symInfoWord (s : State) (x : Sym) : Word32 :=
  0#16 ++ symGet s.clen x ++ 0#6 ++ BitVec.ofBool (symGet s.cvalid x) ++ BitVec.ofBool (symGet s.present x)

/-- CDIG[x][i]: `7:0`, for i in 0..254; i = 255 reads 0 (R38). -/
def cdigWord (s : State) (x : Sym) (i : BitVec 8) : Word32 :=
  if i = 255#8 then 0#32 else (digitAt s.cdig x i.toNat).setWidth 32

/-- NODE_W0, NODE_FLO, NODE_FHI, NODE_NCH of an arena entry (R38); the index NIL reads 0, as a FREE entry does. -/
def nodeWord (s : State) (x : NodeIdx) (j : BitVec 2) : Word32 :=
  let n := if x = Config.nil then Node.free else nodeAt s.node x
  if j = 0#2 then 0#7 ++ n.key ++ n.sym ++ 0#6 ++ n.kind.code
  else if j = 1#2 then n.freq.extractLsb' 0 32
  else if j = 2#2 then 0#24 ++ n.freq.extractLsb' 32 8
  else 0#24 ++ n.nch

/-- NODE_CH[n][c]: `8:0`, for c in 0..254; c = 255 reads 0, and so does n = NIL (R38). -/
def childWord (s : State) (x : NodeIdx) (c : BitVec 8) : Word32 :=
  if x = Config.nil ∨ c = 255#8 then 0#32 else ((nodeAt s.node x).child c.toNat).setWidth 32

/-- The named words at addresses 0x00000 to 0x00011 (R38). -/
def namedWord (s : State) (a : Nat) : Word32 :=
  match a with
  | 0x00 => idWord
  | 0x01 => statusWord s
  | 0x02 => errWord s
  | 0x03 => s.errInfo
  | 0x04 => s.k.setWidth 32
  | 0x05 => widthWord s
  | 0x06 => s.ncount
  | 0x07 => BitVec.ofNat 32 (ndist s.present)
  | 0x08 => s.npad.setWidth 32
  | 0x09 => s.nleaf.setWidth 32
  | 0x0A => s.nnodes.setWidth 32
  | 0x0B => s.root.setWidth 32
  | 0x0C => packWord s
  | 0x0D => BitVec.ofNat 32 s.outcnt
  | 0x0E => BitVec.ofNat 32 s.inpos
  | 0x0F => s.rdbit.setWidth 32
  | 0x10 => s.decCount
  | 0x11 => s.cursor.setWidth 32
  | _ => 0#32

/-- `RegRead(a)`: the map of R38. -/
def regRead (s : State) (a : RegAddr) : Word32 :=
  let n := a.toNat
  if n < 0x00100 then namedWord s n
  else if n < 0x00200 then symGet s.freq (a.extractLsb' 0 8)
  else if n < 0x00300 then symInfoWord s (a.extractLsb' 0 8)
  else if n < 0x10000 then 0#32
  else if n < 0x20000 then cdigWord s (a.extractLsb' 8 8) (a.extractLsb' 0 8)
  else if n < 0x20800 then nodeWord s (a.extractLsb' 2 9) (a.extractLsb' 0 2)
  else if n < 0x40000 then 0#32
  else if n < 0x60000 then childWord s (a.extractLsb' 8 9) (a.extractLsb' 0 8)
  else 0#32

end Sys2Proof.Machine
end

