-- ==== Sys2Proof/Machine/Issue.lean ====
section
/-! DEFINITION. The host's moves: the common dispatch of a command word (spec/45_control.md R200, R202), the register
read port (spec/20_memory.md R57, spec/70_reset_and_hazards.md R284), attaching IN (R280) and power-on (R270). -/

namespace Sys2Proof.Machine

/-- "the exact SRST word", `0x00000000_000000FF` (R201). -/
def srstWord : CmdWord := 0x00000000000000FF#64

/-- Which commands read IN: "Only PARSEH and DECODE read `IN`" (R51). -/
def readsIn : Instr → Bool
  | .parseh | .decode => true
  | .nop | .setk _ | .clrf | .cnt _ | .ldf _ _ | .setn _ | .build | .gen | .emith | .enc _ | .flush | .srst => false

/-- The error of an undecodable word, PROTOCOL with the word's opcode as ERROP and as info (R84, R237). -/
def raiseDecode (e : DecodeError) (c : CmdWord) (s : State) : State :=
  match e with
  | .illegalOpcode => raise .illegalOpcode (Cmd.opc c) (Cmd.opc c).toNat s
  | .badField => raise .badField (Cmd.opc c) (Cmd.opc c).toNat s

/-- `Step(c)` of R200. While an error is pending, every word but the exact SRST word is dropped (R202). Accepting a
PARSEH or DECODE fixes IN for the session (R280; log 3). -/
def dispatch (c : CmdWord) (s : State) : Answer :=
  if errPending s then
    if c = srstWord then exec .srst s else .next s
  else
    match decode c with
    | .error e => .next (raiseDecode e c s)
    | .ok i => exec i { s with inFixed := s.inFixed || readsIn i }

/-- One move of the host (R69). -/
def hostMove (m : HostMove) (s : State) : Answer :=
  match m with
  | .command c => dispatch c s
  | .read a => .next { s with reads := s.reads ++ [regRead s a] }
  | .readOverlap a =>
    .next { s with reads := s.reads ++ [Config.overlapRead s.freeCount a], freeCount := s.freeCount + 1 }
  | .attach bytes => if s.inFixed then .refused .inputChangedInSession else .next { s with inp := bytes }
  | .powerOn bytes => .next { resetCore s with inp := bytes }

end Sys2Proof.Machine
end

