-- ==== Sys2Proof/Machine/Step.lean ====
section
/-! DEFINITION. One step: the host's next move (spec/20_memory.md R50, R69). CORE fetches nothing (spec/10_state.md
R22), so "the next instruction" is the next command word the host issues. -/

namespace Sys2Proof.Machine

/-- The oldest pending move of the host is taken off the queue and carried out; with none pending CORE idles and
keeps its state (R254, R271). -/
def step (s : State) : Host.Outcome State Fault Refusal :=
  match s.host with
  | [] => .next s
  | m :: rest => hostMove m { s with host := rest }

/-- The state in which the host's next move issues the command word whose bits are `w` (log 1). -/
def State.withFetchWord (s : State) (nbits w : Nat) : State :=
  { s with host := .command (BitVec.ofNat 64 (w % 2 ^ nbits)) :: s.host }

end Sys2Proof.Machine
end

