-- ==== Sys2Proof/Machine/Assembler.lean ====
section
/-! DEFINITION. The assembler of spec/30_encoding.md: its syntax and operand checks (R85) and its pseudo-instructions
(R86). It is host software: CORE sees the words it makes and nothing else. What R85 leaves open of the text form
is the model's DESIGN CHOICE, named at the definition that settles it and listed in log 10. -/

namespace Sys2Proof.Asm

/-- The pseudo-instructions of R86. -/
inductive Pseudo where
  | cnts | encs | ldft | compress | decompress
  deriving DecidableEq, Repr

/-- One source line (R85, R86): a command with its operands as the numbers written, or a pseudo-instruction. -/
inductive Line where
  | plain (o : Opcode)
  | one (o : Opcode) (x : Nat)
  | two (o : Opcode) (x y : Nat)
  | cnts (text : List Byte)
  | encs (text : List Byte)
  | ldft (entries : List (Nat × Nat))
  | compress (k : Nat) (text : List Byte)
  | decompress
  deriving DecidableEq, Repr

/-- R85: a symbol above 255 is rejected. -/
def symOperand (x : Nat) : Option Sym := if x ≤ 255 then some (BitVec.ofNat 8 x) else none

/-- R85: a radix above 255 or below 2 is rejected. -/
def radixOperand (x : Nat) : Option (BitVec 8) := if 2 ≤ x ∧ x ≤ 255 then some (BitVec.ofNat 8 x) else none

/-- R85: a frequency or count above 2^32 − 1 is rejected. -/
def wordOperand (x : Nat) : Option Word32 := if x < 2 ^ 32 then some (BitVec.ofNat 32 x) else none

/-- A command without operands (R85). -/
def plainInstr : Opcode → Option Instr
  | .nop => some .nop
  | .clrf => some .clrf
  | .build => some .build
  | .gen => some .gen
  | .emith => some .emith
  | .flush => some .flush
  | .parseh => some .parseh
  | .decode => some .decode
  | .srst => some .srst
  | .setk | .cnt | .ldf | .setn | .enc => none

/-- `SETK k`, `CNT s`, `SETN n`, `ENC s` (R85). -/
def oneInstr (o : Opcode) (x : Nat) : Option Instr :=
  match o with
  | .setk => (radixOperand x).map .setk
  | .cnt => (symOperand x).map .cnt
  | .setn => (wordOperand x).map .setn
  | .enc => (symOperand x).map .enc
  | .nop | .clrf | .ldf | .build | .gen | .emith | .flush | .parseh | .decode | .srst => none

/-- `LDF s, f` (R85). -/
def ldfInstr (x f : Nat) : Option Instr :=
  match symOperand x, wordOperand f with
  | some x, some f => some (.ldf x f)
  | _, _ => none

/-- R86: the real commands of `COMPRESS k, "text"`. -/
def compressProgram (k : BitVec 8) (text : List Byte) : List Instr :=
  [.setk k, .clrf] ++ text.map .cnt ++ [.build, .gen, .emith] ++ text.map .enc ++ [.flush]

/-- R86: the real commands of `DECOMPRESS`. -/
def decompressProgram : List Instr := [.parseh, .build, .decode]

/-- A line's commands, or `none` where the assembler rejects it (R85, R86). -/
def expand : Line → Option (List Instr)
  | .plain o => (plainInstr o).map (fun i => [i])
  | .one o x => (oneInstr o x).map (fun i => [i])
  | .two o x y => if o = .ldf then (ldfInstr x y).map (fun i => [i]) else none
  | .cnts text => some (text.map .cnt)
  | .encs text => some (text.map .enc)
  | .ldft entries => entries.mapM (fun e => ldfInstr e.1 e.2)
  | .compress k text => (radixOperand k).map (fun k => compressProgram k text)
  | .decompress => some decompressProgram

/-- The words of a program (R85: `{A32, 16'b0, A8, OPC}`). -/
def words (p : List Instr) : List CmdWord := p.map encode

/-! ### The text form (R85) -/

/-- The tokens of a line. -/
inductive Tok where
  | word (cs : List Char)
  | num (n : Nat)
  | text (bs : List Byte)
  | comma
  | colon
  deriving DecidableEq, Repr

/-- The double quote. -/
def dquote : Char := Char.ofNat 34

/-- The single quote. -/
def squote : Char := Char.ofNat 39

/-- The backslash. -/
def backslash : Char := Char.ofNat 92

/-- The value of a hexadecimal digit, a letter in either case (R85 says neither: DESIGN CHOICE, log 10). -/
def hexDigit (c : Char) : Option Nat :=
  if '0' ≤ c ∧ c ≤ '9' then some (c.toNat - 48)
  else if 'a' ≤ c ∧ c ≤ 'f' then some (c.toNat - 87)
  else if 'A' ≤ c ∧ c ≤ 'F' then some (c.toNat - 55)
  else none

/-- Digits in a base, the most significant first. -/
def digitsIn (base : Nat) (cs : List Char) : Option Nat :=
  if cs = [] then none
  else cs.foldlM (fun acc c => (hexDigit c).bind (fun d => if d < base then some (base * acc + d) else none)) 0

/-- "Numbers are decimal, or hexadecimal with `0x`" (R85); the prefix `0X` is rejected (DESIGN CHOICE, log 10). -/
def number : List Char → Option Nat
  | '0' :: 'x' :: cs => digitsIn 16 cs
  | cs => digitsIn 10 cs

/-- A letter or a digit. -/
def isWordChar (c : Char) : Bool :=
  ('0' ≤ c && c ≤ '9') || ('a' ≤ c && c ≤ 'z') || ('A' ≤ c && c ≤ 'Z')

/-- The ASCII byte of a character (R85; 93_implementation_defined.md G2). -/
def asciiByte (c : Char) : Option Byte := if c.toNat < 128 then some (BitVec.ofNat 8 c.toNat) else none

/-- The bytes of a quoted text up to its closing quote, with the escapes `\xHH` and `\\` (R86), and what follows.
Any other escape and any character beyond ASCII is rejected (DESIGN CHOICE, log 10). -/
def quoted : Nat → List Char → Option (List Byte × List Char)
  | 0, _ => none
  | _ + 1, [] => none
  | fuel + 1, c :: cs =>
    if c = dquote then some ([], cs)
    else if c = backslash then
      match cs with
      | 'x' :: h :: l :: rest =>
        match hexDigit h, hexDigit l, quoted fuel rest with
        | some h, some l, some (bs, more) => some (BitVec.ofNat 8 (16 * h + l) :: bs, more)
        | _, _, _ => none
      | d :: rest =>
        if d = backslash then (quoted fuel rest).map (fun r => (0x5C#8 :: r.1, r.2)) else none
      | [] => none
    else
      match asciiByte c, quoted fuel cs with
      | some b, some (bs, more) => some (b :: bs, more)
      | _, _ => none

/-- The tokens of a line; "Everything after a `;` is a comment" (R85). DESIGN CHOICES (log 10): a character literal is
the number it means, so it may stand for every number operand, not a symbol alone (`SETK 'a'`, `SETN 'a'`, `LDF 1, 'a'`,
`COMPRESS 'a', "…"`); white space is the space and the tab, may stand anywhere between tokens and is needed nowhere but between a
name and a number (`CNT'a'`, `CNTS"x"` and `LDF 1,2` are read, `CNT1` is one unknown name); a `;` inside quotes starts no comment. -/
def lex : Nat → List Char → Option (List Tok)
  | 0, _ => none
  | _ + 1, [] => some []
  | fuel + 1, c :: cs =>
    if c = ';' then some []
    else if c = ' ' ∨ c = Char.ofNat 9 then lex fuel cs
    else if c = ',' then (lex fuel cs).map (.comma :: ·)
    else if c = ':' then (lex fuel cs).map (.colon :: ·)
    else if c = squote then
      match cs with
      | x :: q :: rest =>
        if q = squote then (asciiByte x).bind (fun b => (lex fuel rest).map (.num b.toNat :: ·)) else none
      | _ => none
    else if c = dquote then
      (quoted fuel cs).bind (fun r => (lex fuel r.2).map (.text r.1 :: ·))
    else if '0' ≤ c ∧ c ≤ '9' then
      (number ((c :: cs).takeWhile isWordChar)).bind
        (fun n => (lex fuel ((c :: cs).dropWhile isWordChar)).map (.num n :: ·))
    else if isWordChar c then
      (lex fuel ((c :: cs).dropWhile isWordChar)).map (.word ((c :: cs).takeWhile isWordChar) :: ·)
    else none

/-- The mnemonics of R72. -/
def mnemonic : Opcode → List Char
  | .nop => ['N', 'O', 'P']
  | .setk => ['S', 'E', 'T', 'K']
  | .clrf => ['C', 'L', 'R', 'F']
  | .cnt => ['C', 'N', 'T']
  | .ldf => ['L', 'D', 'F']
  | .setn => ['S', 'E', 'T', 'N']
  | .build => ['B', 'U', 'I', 'L', 'D']
  | .gen => ['G', 'E', 'N']
  | .emith => ['E', 'M', 'I', 'T', 'H']
  | .enc => ['E', 'N', 'C']
  | .flush => ['F', 'L', 'U', 'S', 'H']
  | .parseh => ['P', 'A', 'R', 'S', 'E', 'H']
  | .decode => ['D', 'E', 'C', 'O', 'D', 'E']
  | .srst => ['S', 'R', 'S', 'T']

/-- The names of R86. -/
def Pseudo.name : Pseudo → List Char
  | .cnts => ['C', 'N', 'T', 'S']
  | .encs => ['E', 'N', 'C', 'S']
  | .ldft => ['L', 'D', 'F', 'T']
  | .compress => ['C', 'O', 'M', 'P', 'R', 'E', 'S', 'S']
  | .decompress => ['D', 'E', 'C', 'O', 'M', 'P', 'R', 'E', 'S', 'S']

/-- The entries `s1:f1, s2:f2, ...` of LDFT (R86), at least one (DESIGN CHOICE, log 10). -/
def entries : List Tok → Option (List (Nat × Nat))
  | [.num s, .colon, .num f] => some [(s, f)]
  | .num s :: .colon :: .num f :: .comma :: rest => (entries rest).map ((s, f) :: ·)
  | _ => none

/-- The operands of a command (R85). -/
def commandLine (o : Opcode) : List Tok → Option Line
  | [] => some (.plain o)
  | [.num x] => some (.one o x)
  | [.num x, .comma, .num y] => some (.two o x y)
  | _ => none

/-- The operands of a pseudo-instruction (R86). -/
def pseudoLine (p : Pseudo) (ts : List Tok) : Option Line :=
  match p, ts with
  | .cnts, [.text bs] => some (.cnts bs)
  | .encs, [.text bs] => some (.encs bs)
  | .ldft, ts => (entries ts).map .ldft
  | .compress, [.num k, .comma, .text bs] => some (.compress k bs)
  | .decompress, [] => some .decompress
  | _, _ => none

/-- One line's tokens as a line. DESIGN CHOICES (log 10): names are written in capitals, as R72 and R86 write them, and a
line with no token has no command. -/
def parseToks : List Tok → Option (List Line)
  | [] => some []
  | .word w :: ts =>
    match Opcode.all.find? (fun o => mnemonic o == w) with
    | some o => (commandLine o ts).map (fun l => [l])
    | none =>
      match [Pseudo.cnts, .encs, .ldft, .compress, .decompress].find? (fun p => p.name == w) with
      | some p => (pseudoLine p ts).map (fun l => [l])
      | none => none
  | _ => none

/-- The commands of one source line, `none` where the assembler rejects it. -/
def assembleLine (cs : List Char) : Option (List Instr) :=
  ((lex (cs.length + 1) cs).bind parseToks).bind (fun ls => (ls.mapM expand).map List.flatten)

/-- The words of a source text, given line by line (R85: "One command per line"); one rejected line rejects the text
(DESIGN CHOICE, log 10). -/
def assemble (ls : List (List Char)) : Option (List CmdWord) :=
  (ls.mapM assembleLine).map (fun is => words is.flatten)

end Sys2Proof.Asm
end

