-- ==== Sys2Proof/Safety.lean ====
section
/-! DEFINITION. The terms claims about CORE are stated in: a host that issues a program's words, a bit stream as
bytes, walks in the tree, and the invariant of the machine. -/

namespace Sys2Proof.Machine

/-! ### Programs -/

/-- The host issues the words of a program, one after another, and CORE runs them: as many steps as there are words
(spec/70_reset_and_hazards.md R281, R282). -/
def issue (p : List Instr) (s : State) : Answer :=
  Host.Core.run Sys2Proof.core p.length { s with host := (Asm.words p).map HostMove.command }

/-! ### Bit streams (R58, R79) -/

/-- Eight bits as a byte, the first at bit 7; bits that are missing are 0 (R58). -/
def byteOfBits (bs : List Bool) : Byte :=
  BitVec.ofNat 8 ((List.range 8).foldl (fun acc i => 2 * acc + (bs[i]?.getD false).toNat) 0)

/-- The first `n` bytes of a bit stream. -/
def bytesOfBits (n : Nat) (bs : List Bool) : List Byte :=
  (List.range n).map (fun j => byteOfBits (bs.drop (8 * j)))

/-- A whole bit stream as bytes, "zero-padded on the right if the total bit count is not a multiple of 8" (R79). -/
def packedBytes (bs : List Bool) : List Byte := bytesOfBits ((bs.length + 7) / 8) bs

/-- The bits of a byte stream, each byte's bit 7 first (R54, R58). -/
def bitsOfBytes (bs : List Byte) : List Bool := bs.flatMap (digitBits 8)

/-! ### Walks (R121, R177) -/

/-- `path` leads from node x to node y in the arena: at each internal node a digit below K picks the child (R121). -/
def leadsTo (arena : List Node) (k : Nat) : NodeIdx → List Byte → NodeIdx → Prop
  | x, [], y => x = y
  | x, d :: ds, y =>
    (nodeAt arena x).kind = NodeKind.int ∧ d.toNat < k ∧ leadsTo arena k ((nodeAt arena x).child d.toNat) ds y

/-! ### The order of the tree builder (R104) -/

/-- R104: node a precedes node b exactly when `(FREQ, KEY)` of a is lexicographically less than that of b. -/
def precedes (arena : List Node) (a b : NodeIdx) : Prop :=
  (nodeAt arena a).freq.toNat < (nodeAt arena b).freq.toNat ∨
    ((nodeAt arena a).freq.toNat = (nodeAt arena b).freq.toNat ∧
      (nodeAt arena a).key.toNat < (nodeAt arena b).key.toNat)

/-! ### Words of the statements -/

/-- R41: every piece of R21's state at its reset value. -/
def hasResetValues (t : State) : Prop :=
  t.k = 0#8 ∧ t.ncount = 0#32 ∧ (∀ x : Sym, symGet t.freq x = 0#32 ∧ symGet t.present x = false) ∧
  t.treeValid = false ∧ t.codeValid = false ∧ t.decDone = false ∧
  (∀ n : NodeIdx, nodeAt t.node n = ⟨.free, 0#8, 0#9, 0#40, 0#8, []⟩) ∧
  t.nnodes = 0#10 ∧ t.nleaf = 0#10 ∧ t.npad = 0#8 ∧ t.root = 511#9 ∧
  (∀ x : Sym, symGet t.cvalid x = false ∧ symGet t.clen x = 0#8 ∧ ∀ i : Nat, digitAt t.cdig x i = 0#8) ∧
  t.acc = 0#8 ∧ t.boff = 0#3 ∧ t.out = [] ∧ t.outcnt = 0 ∧ t.inpos = 0 ∧ t.rdbit = 0#3 ∧ t.decCount = 0#32 ∧
  t.cursor = 511#9 ∧ t.errKind = ErrKind.none ∧ t.errSub = 0#8 ∧ t.errOp = 0#8 ∧ t.errInfo = 0#32

/-- The bytes of IN from the next byte boundary on, where PARSEH and DECODE start (R172, R176). -/
def startByte (s : State) : Nat := if s.rdbit = 0#3 then s.inpos else s.inpos + 1

/-- The four bytes of a 32-bit header field, the least significant first (R56). -/
def le32 (v : Word32) : List Byte :=
  [v.extractLsb' 0 8, v.extractLsb' 8 8, v.extractLsb' 16 8, v.extractLsb' 24 8]

/-- The bytes of header entries `sym_j`, `freq_j` (R75). -/
def entryBytes (es : List (Sym × Word32)) : List Byte := es.flatMap (fun e => e.1 :: le32 e.2)

/-- The bits of a string of digits, each in w bits, the most significant first (R58, R79). -/
def bitsOfDigits (w : Nat) (ds : List Byte) : List Bool :=
  ds.flatMap (fun d => (List.range w).map (fun j => d.getLsbD (w - 1 - j)))

/-- The code of a symbol in the ROM: the digits `CDIG[x][0..CLEN[x]-1]` (R34). -/
def codeOf (s : State) (x : Sym) : List Byte := (List.range (symGet s.clen x).toNat).map (digitAt s.cdig x)

/-- The bits of the codes of symbols in order (R79). -/
def codeStream (s : State) (xs : List Sym) : List Bool := xs.flatMap (fun x => bitsOfDigits (digitWidth s.k) (codeOf s x))

/-- `code` gives symbol x its code in the tree: the digits on the way from the root to x's leaf (R121). -/
def isCodeFor (s : State) (code : Sym → List Byte) (x : Sym) : Prop :=
  ∃ y : NodeIdx, leadsTo s.node s.k.toNat s.root (code x) y ∧
    (nodeAt s.node y).kind = NodeKind.leaf ∧ (nodeAt s.node y).sym = x

/-- The payload bits of symbols in order for such a code (R79, R82). -/
def payloadBits (k : BitVec 8) (code : Sym → List Byte) (xs : List Sym) : List Bool :=
  xs.flatMap (fun x => bitsOfDigits (digitWidth k) (code x))

/-- R107: the number of padding leaves for n entries and radix k. -/
def paddingOf (n k : Nat) : Nat := if (n - 1) % (k - 1) = 0 then 0 else (k - 1) - (n - 1) % (k - 1)

/-- The number of symbols of the table below x: the arena index of x's leaf (R103). -/
def leafIndex (present : Vector Bool 256) (x : Sym) : Nat :=
  (allSyms.filter (fun y => symGet present y && decide (y.toNat < x.toNat))).length

/-- R239: which errors a command can raise, besides those any word can raise. -/
def raisable : Instr → List Err
  | .nop | .clrf | .setn _ | .flush | .srst => []
  | .setk _ => [.badK]
  | .cnt _ => [.countOverflow]
  | .ldf _ _ => [.dupSymbol]
  | .build => [.badK]
  | .gen => [.noTree]
  | .emith => [.misaligned, .badK]
  | .enc _ => [.noCodes, .noCode]
  | .parseh => [.hdrTrunc, .badK, .badNdist, .emptyTable, .dupSymbol]
  | .decode => [.noTree, .misaligned, .emptyTable, .underrun, .badDigit, .padLeaf]

/-! ### The invariant -/

/-- R23: "after reset `K` is 0 or in 2..255". -/
def radixLegal (s : State) : Prop := s.k = 0#8 ∨ 2#8 ≤ s.k

/-- R25: "When `PRESENT[s] = 0`, `FREQ[s]` is 0". -/
def tableClean (s : State) : Prop := ∀ x : Sym, symGet s.present x = false → symGet s.freq x = 0#32

/-- R27: `TREE_VALID = 1` means the arena holds the tree BUILD made from the current FREQ, PRESENT and K, and a legal
K it is. -/
def treeCurrent (s : State) : Prop :=
  s.treeValid = true →
    2#8 ≤ s.k ∧ buildTree s.k s.freq s.present = .ok ⟨s.node, s.nnodes, s.nleaf, s.npad, s.root⟩

/-- R27: `CODE_VALID = 1` means the ROM holds the codes GEN derived from that tree, and it implies TREE_VALID. -/
def codesCurrent (s : State) : Prop :=
  s.codeValid = true →
    s.treeValid = true ∧ genCodes s.k s.node s.root = .ok ⟨s.cvalid, s.clen, s.cdig⟩

/-- R27, R175: `DEC_DONE = 1` means the last DECODE reached its terminal condition; R176: "CURSOR after completion
equals ROOT". -/
def doneMeansDone (s : State) : Prop :=
  s.decDone = true → s.treeValid = true ∧ s.decCount = s.ncount ∧ s.cursor = s.root

/-- R33: entries 0..NNODES−1 are in use and the rest are FREE. -/
def arenaCounted (s : State) : Prop := Arena.wf s.node = true ∧ s.nnodes.toNat = s.node.length

/-- R34: a symbol's digits number `CLEN` (stale contents included, I6), and a symbol without a code has none. -/
def romClean (s : State) : Prop :=
  ∀ x : Sym, (symGet s.cdig x).length = (symGet s.clen x).toNat ∧
    (symGet s.cvalid x = false → symGet s.clen x = 0#8)

/-- R35: "Bits of `ACC` below the filled ones are 0." -/
def accClean (s : State) : Prop := ∀ i : Nat, i < 8 - s.boff.toNat → s.acc.getLsbD i = false

/-- R21: `OUTCNT = |OUT|`. -/
def outCounted (s : State) : Prop := s.outcnt = s.out.length

/-- R36, R51: the read position lies in IN, and no byte is partly read past its end. -/
def positionLegal (s : State) : Prop :=
  s.inpos ≤ s.inp.length ∧ (s.rdbit ≠ 0#3 → s.inpos < s.inp.length) ∧
    (s.inFixed = false → s.inpos = 0 ∧ s.rdbit = 0#3)

/-- R41, R237: with no error pending the other error registers are 0, and otherwise they hold a row of R237's table:
"No other codes exist." -/
def errorLegal (s : State) : Prop :=
  (s.errKind = ErrKind.none ∧ s.errSub = 0#8 ∧ s.errOp = 0#8 ∧ s.errInfo = 0#32) ∨
    ∃ e : Err, s.errKind = e.kind ∧ s.errSub = e.sub

/-- The machine's invariant: what the spec says of every state a run reaches. -/
structure Inv (s : State) : Prop where
  radix    : radixLegal s
  table    : tableClean s
  tree     : treeCurrent s
  codes    : codesCurrent s
  done     : doneMeansDone s
  arena    : arenaCounted s
  rom      : romClean s
  acc      : accClean s
  out      : outCounted s
  position : positionLegal s
  error    : errorLegal s

end Sys2Proof.Machine
end

