-- ==== Sys2Proof/Certificates/Slice0/Obligations.lean ====
section
/-! DEFINITION. The statements for the provers, each from the numbered rules of spec/. A statement of the form
`exec i s = .next { s with … }` says the whole next state, so it is its own frame: no field but those written changes.
Where it says `t = { s with f := t.f, … }`, no field but those named changes. A rule named with "(inferred)" is one the
spec marks `[derived: …]`, its own inference; a clause that is the model's choice names its log entry. -/

open Sys2Proof Sys2Proof.Machine

/-! ### The command word (30_encoding.md) -/

/-- Words written out from R70 and R72 (95_test_vectors.md section 2) decode to the commands they stand for, and
V-E1 to V-E5 are rejected by name. -/
def Obligations.WrittenWordsDecode : Prop :=
  decode 0x0000000000000000#64 = .ok .nop ∧ decode 0x0000000000000301#64 = .ok (.setk 3#8) ∧
  decode 0x0000000000000002#64 = .ok .clrf ∧ decode 0x0000000000006103#64 = .ok (.cnt 0x61#8) ∧
  decode 0x0000000200006104#64 = .ok (.ldf 0x61#8 2#32) ∧ decode 0x0000000300000005#64 = .ok (.setn 3#32) ∧
  decode 0x0000000000000010#64 = .ok .build ∧ decode 0x0000000000000011#64 = .ok .gen ∧
  decode 0x0000000000000020#64 = .ok .emith ∧ decode 0x0000000000006121#64 = .ok (.enc 0x61#8) ∧
  decode 0x0000000000000022#64 = .ok .flush ∧ decode 0x0000000000000030#64 = .ok .parseh ∧
  decode 0x0000000000000031#64 = .ok .decode ∧ decode 0x00000000000000FF#64 = .ok .srst ∧
  decode 0x0000000000000006#64 = .error .illegalOpcode ∧ decode 0x0000000000000502#64 = .error .badField ∧
  decode 0x0000000000010301#64 = .error .badField ∧ decode 0x0000000700000301#64 = .error .badField ∧
  decode 0x00000001000000FF#64 = .error .badField

/-- R70, R72, R84, R85: for every command, with every operand at every value the encoding admits, the decoder reads
back what the encoder wrote. -/
def Obligations.DecodeInvertsEncode : Prop := ∀ i : Instr, decode (encode i) = .ok i

/-- R70, R72, R84: each legal word has one meaning: a word that decodes is the encoding of what it decodes to. -/
def Obligations.EncodeInvertsDecode : Prop := ∀ (c : CmdWord) (i : Instr), decode c = .ok i → encode i = c

/-- R84, R200, R201, R202, the decoding of every word: with no error pending an opcode outside the 14 raises PROTOCOL
ILLEGAL_OPCODE, a non-zero reserved or unused field raises PROTOCOL BAD_FIELD, and any other word is executed as the
command of its opcode; with an error pending the exact SRST word is executed and every other word is dropped without
being decoded. (That executing a PARSEH or DECODE sets `inFixed` is log 3's DESIGN CHOICE, no rule of the spec.) -/
def Obligations.IllegalWordsRaise : Prop :=
  ∀ (s : State) (c : CmdWord) (rest : List HostMove), s.host = .command c :: rest →
    (s.errKind = ErrKind.none →
      (c.extractLsb' 0 8 ∉ [0x00#8, 0x01#8, 0x02#8, 0x03#8, 0x04#8, 0x05#8, 0x10#8, 0x11#8, 0x20#8, 0x21#8, 0x22#8,
          0x30#8, 0x31#8, 0xFF#8] →
        step s = .next { s with host := rest, errKind := .protocol, errSub := 1#8, errOp := c.extractLsb' 0 8,
                                errInfo := (c.extractLsb' 0 8).setWidth 32 }) ∧
      (c.extractLsb' 0 8 ∈ [0x00#8, 0x01#8, 0x02#8, 0x03#8, 0x04#8, 0x05#8, 0x10#8, 0x11#8, 0x20#8, 0x21#8, 0x22#8,
          0x30#8, 0x31#8, 0xFF#8] →
        ((c.extractLsb' 16 16 ≠ 0#16 ∨
            (c.extractLsb' 0 8 ∉ [0x01#8, 0x03#8, 0x04#8, 0x21#8] ∧ c.extractLsb' 8 8 ≠ 0#8) ∨
            (c.extractLsb' 0 8 ∉ [0x04#8, 0x05#8] ∧ c.extractLsb' 32 32 ≠ 0#32)) →
          step s = .next { s with host := rest, errKind := .protocol, errSub := 2#8, errOp := c.extractLsb' 0 8,
                                  errInfo := (c.extractLsb' 0 8).setWidth 32 }) ∧
        (¬ (c.extractLsb' 16 16 ≠ 0#16 ∨
            (c.extractLsb' 0 8 ∉ [0x01#8, 0x03#8, 0x04#8, 0x21#8] ∧ c.extractLsb' 8 8 ≠ 0#8) ∨
            (c.extractLsb' 0 8 ∉ [0x04#8, 0x05#8] ∧ c.extractLsb' 32 32 ≠ 0#32)) →
          ∃ i : Instr, decode c = .ok i ∧ i.opcode.code = c.extractLsb' 0 8 ∧
            step s = exec i { s with host := rest, inFixed := s.inFixed || readsIn i }))) ∧
    (s.errKind ≠ ErrKind.none →
      (c = 0x00000000000000FF#64 → step s = exec .srst { s with host := rest }) ∧
      (c ≠ 0x00000000000000FF#64 → step s = .next { s with host := rest }))

/-- R80: `W(K)` is the least w with 2^w ≥ K, and the table of its values. -/
def Obligations.DigitWidthLeast : Prop :=
  ∀ k : BitVec 8, 2 ≤ k.toNat →
    k.toNat ≤ 2 ^ digitWidth k ∧ (∀ w : Nat, k.toNat ≤ 2 ^ w → digitWidth k ≤ w) ∧
    (k.toNat = 2 → digitWidth k = 1) ∧ (3 ≤ k.toNat ∧ k.toNat ≤ 4 → digitWidth k = 2) ∧
    (5 ≤ k.toNat ∧ k.toNat ≤ 8 → digitWidth k = 3) ∧ (9 ≤ k.toNat ∧ k.toNat ≤ 16 → digitWidth k = 4) ∧
    (17 ≤ k.toNat ∧ k.toNat ≤ 32 → digitWidth k = 5) ∧ (33 ≤ k.toNat ∧ k.toNat ≤ 64 → digitWidth k = 6) ∧
    (65 ≤ k.toNat ∧ k.toNat ≤ 128 → digitWidth k = 7) ∧ (129 ≤ k.toNat → digitWidth k = 8)

/-- R85, R86: what the assembler emits for each pseudo-instruction, and the operands out of range it rejects, in a
command and in a pseudo-instruction alike. -/
def Obligations.AssemblerExpands : Prop :=
  (∀ (k : Nat) (text : List Byte), 2 ≤ k → k ≤ 255 →
    Asm.expand (.compress k text) =
      some ([.setk (BitVec.ofNat 8 k), .clrf] ++ text.map .cnt ++ [.build, .gen, .emith] ++ text.map .enc ++ [.flush])) ∧
  Asm.expand .decompress = some [.parseh, .build, .decode] ∧
  (∀ text : List Byte, Asm.expand (.cnts text) = some (text.map .cnt) ∧ Asm.expand (.encs text) = some (text.map .enc)) ∧
  (∀ es : List (Sym × Word32),
    Asm.expand (.ldft (es.map (fun e => (e.1.toNat, e.2.toNat)))) = some (es.map (fun e => .ldf e.1 e.2))) ∧
  (∀ k : Nat, k < 2 ∨ 255 < k →
    Asm.expand (.one .setk k) = none ∧ ∀ text : List Byte, Asm.expand (.compress k text) = none) ∧
  (∀ x : Nat, 255 < x → Asm.expand (.one .cnt x) = none ∧ Asm.expand (.one .enc x) = none ∧
    ∀ f : Nat, Asm.expand (.two .ldf x f) = none) ∧
  (∀ n : Nat, 2 ^ 32 ≤ n → Asm.expand (.one .setn n) = none ∧ ∀ x : Nat, Asm.expand (.two .ldf x n) = none) ∧
  (∀ es : List (Nat × Nat), (∃ e ∈ es, 255 < e.1 ∨ 2 ^ 32 ≤ e.2) → Asm.expand (.ldft es) = none)

/-! ### Dispatch, the host's moves, reset (45_control.md, 20_memory.md, 70_reset_and_hazards.md) -/

/-- R200: when the host's next move is a word that decodes to i and no error is pending, the step is `exec i` on the
state with that move taken (and IN fixed for the session once a PARSEH or DECODE is accepted, log 3). -/
def Obligations.StepRunsDecoded : Prop :=
  ∀ (s : State) (c : CmdWord) (rest : List HostMove) (i : Instr), s.host = .command c :: rest →
    s.errKind = ErrKind.none → decode c = .ok i →
    step s = exec i { s with host := rest, inFixed := s.inFixed || readsIn i }

/-- R202: while an error is pending, every word other than the exact SRST word is dropped, and nothing of CORE
changes: the first error is kept. -/
def Obligations.PendingErrorDrops : Prop :=
  ∀ (s : State) (c : CmdWord) (rest : List HostMove), s.host = .command c :: rest → s.errKind ≠ ErrKind.none →
    c ≠ 0x00000000000000FF#64 → step s = .next { s with host := rest }

/-- R201: SRST resets all of CORE; its exact word does so whether or not an error is pending; a word with opcode 0xFF
and a non-zero field raises BAD_FIELD with no error pending and is dropped with one. (That IN stays attached, and that the
host's own fields stay, are logs 1, 2, 5 and 6.) -/
def Obligations.SoftReset : Prop :=
  ∀ (s : State) (rest : List HostMove),
    exec .srst s = .next { State.reset with inp := s.inp, host := s.host, reads := s.reads, freeCount := s.freeCount } ∧
    (s.host = .command 0x00000000000000FF#64 :: rest →
      step s = .next { State.reset with inp := s.inp, host := rest, reads := s.reads, freeCount := s.freeCount }) ∧
    ∀ c : CmdWord, s.host = .command c :: rest → c.extractLsb' 0 8 = 0xFF#8 → c ≠ 0x00000000000000FF#64 →
      (s.errKind = ErrKind.none →
        step s = .next { s with host := rest, errKind := .protocol, errSub := 2#8, errOp := 0xFF#8, errInfo := 0xFF#32 }) ∧
      (s.errKind ≠ ErrKind.none → step s = .next { s with host := rest })

/-- R41: State.reset, SRST and power-on all leave every piece of R21's state at its reset value. -/
def Obligations.ResetLeavesResetValues : Prop :=
  hasResetValues State.reset ∧
  ∀ (s : State) (rest : List HostMove),
    (s.host = .command 0x00000000000000FF#64 :: rest → ∃ t, step s = .next t ∧ hasResetValues t) ∧
    (∀ bytes : List Byte, s.host = .powerOn bytes :: rest → ∃ t, step s = .next t ∧ hasResetValues t)

/-- R272 (inferred): what reset looks like from the host: ID, NIL in ROOT and CURSOR, every other register word 0, OUT empty. -/
def Obligations.ResetReadsFromHost : Prop :=
  regRead State.reset 0x00000#20 = 0x48464D07#32 ∧ regRead State.reset 0x0000B#20 = 0x1FF#32 ∧
  regRead State.reset 0x00011#20 = 0x1FF#32 ∧
  (∀ a : RegAddr, a ≠ 0x00000#20 → a ≠ 0x0000B#20 → a ≠ 0x00011#20 → regRead State.reset a = 0#32) ∧
  State.reset.out = []

/-- The host's other moves (R57, R69, R254, R273, R280, R284). With none pending CORE idles (log 1). A register read at
a command boundary returns the word of R38 (kept in `reads`, log 5) and changes nothing of CORE; one that overlaps a
command returns some word, a free value (log 6). IN is attached before the session's first PARSEH or DECODE; a later
attach is the model's one refused move (log 3). Power-on resets CORE with the IN then attached (log 2). -/
def Obligations.HostMovesLeaveCore : Prop :=
  ∀ (s : State) (rest : List HostMove),
    (s.host = [] → step s = .next s) ∧
    (∀ a : RegAddr, s.host = .read a :: rest → step s = .next { s with host := rest, reads := s.reads ++ [regRead s a] }) ∧
    (∀ a : RegAddr, s.host = .readOverlap a :: rest →
      ∃ v : Word32, step s = .next { s with host := rest, reads := s.reads ++ [v], freeCount := s.freeCount + 1 }) ∧
    (∀ bytes : List Byte, s.host = .attach bytes :: rest →
      (s.inFixed = false → step s = .next { s with host := rest, inp := bytes }) ∧
      (s.inFixed = true → step s = .refused .inputChangedInSession)) ∧
    (∀ bytes : List Byte, s.host = .powerOn bytes :: rest → step s =
      .next { State.reset with inp := bytes, host := rest, reads := s.reads, freeCount := s.freeCount })

/-- R29: STATUS bit by bit, and its reset value. -/
def Obligations.StatusWordBits : Prop :=
  (∀ s : State,
    ((statusWord s).getLsbD 0 = true ↔ s.errKind ≠ ErrKind.none) ∧
    (statusWord s).getLsbD 1 = s.treeValid ∧ (statusWord s).getLsbD 2 = s.codeValid ∧
    (statusWord s).getLsbD 3 = s.decDone ∧
    ((statusWord s).getLsbD 4 = true ↔ s.treeValid = true ∧ s.root = 511#9) ∧
    (∀ i : Nat, 5 ≤ i → (statusWord s).getLsbD i = false)) ∧
  statusWord State.reset = 0x00000000#32

/-- R38: the register read map, every row and the unlisted addresses, with the numbers it shows for the error kinds
(R236) and the node kinds (R30). -/
def Obligations.RegisterReadMap : Prop :=
  (ErrKind.none.code = 0#2 ∧ ErrKind.config.code = 1#2 ∧ ErrKind.format.code = 2#2 ∧ ErrKind.protocol.code = 3#2) ∧
  (NodeKind.free.code = 0#2 ∧ NodeKind.leaf.code = 1#2 ∧ NodeKind.pad.code = 2#2 ∧ NodeKind.int.code = 3#2) ∧
  ∀ s : State,
    regRead s 0x00000#20 = 0x48464D07#32 ∧ regRead s 0x00001#20 = statusWord s ∧
    regRead s 0x00002#20 = 0#8 ++ s.errOp ++ s.errSub ++ 0#6 ++ s.errKind.code ∧
    regRead s 0x00003#20 = s.errInfo ∧ regRead s 0x00004#20 = s.k.setWidth 32 ∧
    regRead s 0x00005#20 = (if 2 ≤ s.k.toNat then BitVec.ofNat 32 (digitWidth s.k) else 0#32) ∧
    regRead s 0x00006#20 = s.ncount ∧ regRead s 0x00007#20 = BitVec.ofNat 32 (ndist s.present) ∧
    regRead s 0x00008#20 = s.npad.setWidth 32 ∧ regRead s 0x00009#20 = s.nleaf.setWidth 32 ∧
    regRead s 0x0000A#20 = s.nnodes.setWidth 32 ∧ regRead s 0x0000B#20 = s.root.setWidth 32 ∧
    regRead s 0x0000C#20 = 0#21 ++ s.boff ++ s.acc ∧ regRead s 0x0000D#20 = BitVec.ofNat 32 s.outcnt ∧
    regRead s 0x0000E#20 = BitVec.ofNat 32 s.inpos ∧ regRead s 0x0000F#20 = s.rdbit.setWidth 32 ∧
    regRead s 0x00010#20 = s.decCount ∧ regRead s 0x00011#20 = s.cursor.setWidth 32 ∧
    (∀ x : Sym,
      regRead s (BitVec.ofNat 20 (0x00100 + x.toNat)) = symGet s.freq x ∧
      regRead s (BitVec.ofNat 20 (0x00200 + x.toNat)) =
        0#16 ++ symGet s.clen x ++ 0#6 ++ BitVec.ofBool (symGet s.cvalid x) ++ BitVec.ofBool (symGet s.present x) ∧
      (∀ i : Nat, i < 255 →
        regRead s (BitVec.ofNat 20 (0x10000 + 256 * x.toNat + i)) = (digitAt s.cdig x i).setWidth 32) ∧
      regRead s (BitVec.ofNat 20 (0x10000 + 256 * x.toNat + 255)) = 0#32) ∧
    (∀ n : NodeIdx, n ≠ 511#9 →
      regRead s (BitVec.ofNat 20 (0x20000 + 4 * n.toNat + 0)) =
        0#7 ++ (nodeAt s.node n).key ++ (nodeAt s.node n).sym ++ 0#6 ++ (nodeAt s.node n).kind.code ∧
      regRead s (BitVec.ofNat 20 (0x20000 + 4 * n.toNat + 1)) = (nodeAt s.node n).freq.extractLsb' 0 32 ∧
      regRead s (BitVec.ofNat 20 (0x20000 + 4 * n.toNat + 2)) = 0#24 ++ (nodeAt s.node n).freq.extractLsb' 32 8 ∧
      regRead s (BitVec.ofNat 20 (0x20000 + 4 * n.toNat + 3)) = 0#24 ++ (nodeAt s.node n).nch ∧
      (∀ c : Nat, c < 255 →
        regRead s (BitVec.ofNat 20 (0x40000 + 256 * n.toNat + c)) = ((nodeAt s.node n).child c).setWidth 32) ∧
      regRead s (BitVec.ofNat 20 (0x40000 + 256 * n.toNat + 255)) = 0#32) ∧
    (∀ j : Nat, j < 4 → regRead s (BitVec.ofNat 20 (0x20000 + 4 * 511 + j)) = 0#32) ∧
    (∀ c : Nat, c < 256 → regRead s (BitVec.ofNat 20 (0x40000 + 256 * 511 + c)) = 0#32) ∧
    (∀ a : RegAddr, (0x00012 ≤ a.toNat ∧ a.toNat < 0x00100) ∨ (0x00300 ≤ a.toNat ∧ a.toNat < 0x10000) ∨
      (0x20800 ≤ a.toNat ∧ a.toNat < 0x40000) ∨ 0x60000 ≤ a.toNat → regRead s a = 0#32)

/-! ### Configuration and the frequency table (40_frequency.md), NOP (45_control.md) -/

/-- R203: NOP does nothing; its encoding is exactly the zero word, and a word with opcode 0 and a non-zero field is no
NOP but a BAD_FIELD error. -/
def Obligations.NopDoesNothing : Prop :=
  (∀ s : State, exec .nop s = .next s) ∧ decode 0x0000000000000000#64 = .ok .nop ∧
  ∀ c : CmdWord, c.extractLsb' 0 8 = 0x00#8 → c ≠ 0#64 → decode c = .error .badField

/-- R90: SETK k below 2 raises CONFIG BAD_K and leaves K; from 2 on it sets K and clears the three validity flags. -/
def Obligations.SetkSetsRadix : Prop :=
  ∀ (k : BitVec 8) (s : State),
    decode (0#32 ++ 0#16 ++ k ++ 0x01#8) = .ok (.setk k) ∧
    (k.toNat < 2 → exec (.setk k) s =
      .next { s with errKind := .config, errSub := 1#8, errOp := 0x01#8, errInfo := k.setWidth 32 }) ∧
    (2 ≤ k.toNat → exec (.setk k) s =
      .next { s with k := k, treeValid := false, codeValid := false, decDone := false })

/-- R91: CLRF empties the table, clears NCOUNT and the three validity flags, and leaves everything else. -/
def Obligations.ClrfClearsTable : Prop :=
  decode 0x0000000000000002#64 = .ok .clrf ∧
  ∀ s : State, ∃ t, exec .clrf s = .next t ∧
    (∀ x : Sym, symGet t.freq x = 0#32 ∧ symGet t.present x = false) ∧
    t = { s with freq := t.freq, present := t.present, ncount := 0#32,
                 treeValid := false, codeValid := false, decDone := false }

/-- R92: CNT x raises FORMAT COUNT_OVERFLOW when NCOUNT or FREQ[x] is 2^32 − 1, changing nothing else; otherwise it
counts x once. -/
def Obligations.CntCountsSymbol : Prop :=
  ∀ (x : Sym) (s : State),
    decode (0#32 ++ 0#16 ++ x ++ 0x03#8) = .ok (.cnt x) ∧
    (s.ncount.toNat = 2 ^ 32 - 1 ∨ (symGet s.freq x).toNat = 2 ^ 32 - 1 → exec (.cnt x) s =
      .next { s with errKind := .format, errSub := 8#8, errOp := 0x03#8, errInfo := x.setWidth 32 }) ∧
    (s.ncount.toNat ≠ 2 ^ 32 - 1 ∧ (symGet s.freq x).toNat ≠ 2 ^ 32 - 1 →
      ∃ t, exec (.cnt x) s = .next t ∧
        (symGet t.freq x).toNat = (symGet s.freq x).toNat + 1 ∧ symGet t.present x = true ∧
        t.ncount.toNat = s.ncount.toNat + 1 ∧
        (∀ y : Sym, y ≠ x → symGet t.freq y = symGet s.freq y ∧ symGet t.present y = symGet s.present y) ∧
        t = { s with freq := t.freq, present := t.present, ncount := t.ncount,
                     treeValid := false, codeValid := false, decDone := false })

/-- R93: LDF x, f raises FORMAT DUP_SYMBOL when x is already a key; otherwise it enters (x, f), f = 0 included, and
leaves NCOUNT. -/
def Obligations.LdfLoadsEntry : Prop :=
  ∀ (x : Sym) (f : Word32) (s : State),
    decode (f ++ 0#16 ++ x ++ 0x04#8) = .ok (.ldf x f) ∧
    (symGet s.present x = true → exec (.ldf x f) s =
      .next { s with errKind := .format, errSub := 3#8, errOp := 0x04#8, errInfo := x.setWidth 32 }) ∧
    (symGet s.present x = false →
      ∃ t, exec (.ldf x f) s = .next t ∧ symGet t.freq x = f ∧ symGet t.present x = true ∧
        (∀ y : Sym, y ≠ x → symGet t.freq y = symGet s.freq y ∧ symGet t.present y = symGet s.present y) ∧
        t = { s with freq := t.freq, present := t.present,
                     treeValid := false, codeValid := false, decDone := false })

/-- R94: SETN n sets NCOUNT and clears DEC_DONE; TREE_VALID and CODE_VALID stay. -/
def Obligations.SetnSetsCount : Prop :=
  ∀ (n : Word32) (s : State),
    decode (n ++ 0#16 ++ 0#8 ++ 0x05#8) = .ok (.setn n) ∧
    exec (.setn n) s = .next { s with ncount := n, decDone := false }

/-- R95 (inferred): from any error-free state, CLRF and then CNT of each byte of S leave the table of S's occurrences. -/
def Obligations.FrequencyModelCounts : Prop :=
  ∀ (S : List Sym) (s : State), S.length ≤ 2 ^ 32 - 1 → s.errKind = ErrKind.none →
    ∃ t, issue (.clrf :: S.map .cnt) s = .next t ∧ t.errKind = ErrKind.none ∧
      (∀ x : Sym, (symGet t.freq x).toNat = S.count x) ∧ (∀ x : Sym, symGet t.present x = true ↔ x ∈ S) ∧
      t.ncount.toNat = S.length

/-- Derived from R93, LDF's effect: the order in which entries are loaded does not matter: two LDF sequences with the
same new entries in different orders leave the same state. -/
def Obligations.LoadOrderIrrelevant : Prop :=
  ∀ (es es' : List (Sym × Word32)) (s : State), es.Perm es' → (es.map Prod.fst).Nodup → s.errKind = ErrKind.none →
    (∀ e ∈ es, symGet s.present e.1 = false) →
    ∃ t, issue (es.map (fun e => .ldf e.1 e.2)) s = .next t ∧ issue (es'.map (fun e => .ldf e.1 e.2)) s = .next t ∧
      t.errKind = ErrKind.none ∧ ∀ e ∈ es, symGet t.freq e.1 = e.2 ∧ symGet t.present e.1 = true

/-! ### The tree builder (41_tree_builder.md) -/

/-- R100, R101, and R110, R111 (inferred): BUILD with K below 2 raises CONFIG BAD_K before any work; with every legal radix and EVERY
table it completes (no assert of R100 can fail), writes the arena and its summary registers, sets TREE_VALID, clears
CODE_VALID and DEC_DONE, and leaves everything else. R247 says that the asserts cannot fail. (`Arena.wf` is log 4's
list form of the arena.) -/
def Obligations.BuildCompletes : Prop :=
  ∀ s : State,
    (s.k.toNat < 2 → exec .build s =
      .next { s with errKind := .config, errSub := 1#8, errOp := 0x10#8, errInfo := s.k.setWidth 32 }) ∧
    (2 ≤ s.k.toNat → ∃ t, exec .build s = .next t ∧
      t.nnodes.toNat = t.node.length ∧ Arena.wf t.node = true ∧
      t = { s with node := t.node, nnodes := t.nnodes, nleaf := t.nleaf, npad := t.npad, root := t.root,
                   treeValid := true, codeValid := false, decDone := false })

/-- R105, R106: BUILD of an empty table leaves no tree, and TREE_EMPTY reads 1; BUILD of a single entry makes its leaf
the root, without padding, whatever K. -/
def Obligations.BuildOfNoneOrOne : Prop :=
  ∀ s : State, 2 ≤ s.k.toNat →
    ((∀ y : Sym, symGet s.present y = false) →
      ∃ t, exec .build s = .next t ∧ treeEmpty t = true ∧
        t = { s with node := [], nnodes := 0#10, nleaf := 0#10, npad := 0#8, root := 511#9,
                     treeValid := true, codeValid := false, decDone := false }) ∧
    (∀ x : Sym, (∀ y : Sym, symGet s.present y = true ↔ y = x) →
      exec .build s = .next { s with
        node := [⟨.leaf, x, x.setWidth 9, (symGet s.freq x).setWidth 40, 0#8, []⟩]
        nnodes := 1#10, nleaf := 1#10, npad := 0#8, root := 0#9
        treeValid := true, codeValid := false, decDone := false })

/-- R103, R107: for one entry or more the leaves stand at 0..n−1 in ascending symbol order, zero-frequency entries
included, and the padding leaves, as many as R107 says (0..K−2), at n..n+p−1 with keys 256, 257, ... -/
def Obligations.BuildPlacesLeaves : Prop :=
  ∀ s : State, 2 ≤ s.k.toNat → 1 ≤ ndist s.present →
    ∃ t, exec .build s = .next t ∧
      (∀ x : Sym, symGet s.present x = true →
        leafIndex s.present x < ndist s.present ∧
        nodeAt t.node (BitVec.ofNat 9 (leafIndex s.present x)) =
          ⟨.leaf, x, x.setWidth 9, (symGet s.freq x).setWidth 40, 0#8, []⟩) ∧
      (∀ j : Nat, j < paddingOf (ndist s.present) s.k.toNat →
        nodeAt t.node (BitVec.ofNat 9 (ndist s.present + j)) = ⟨.pad, 0#8, BitVec.ofNat 9 (256 + j), 0#40, 0#8, []⟩) ∧
      t.npad.toNat = paddingOf (ndist s.present) s.k.toNat ∧
      paddingOf (ndist s.present) s.k.toNat ≤ s.k.toNat - 2

/-- R110, R111, R118 (inferred): (L − 1) mod (K − 1) = 0, exactly I = (L − 1)/(K − 1) internal nodes are made, at most 255,
NNODES = L + I ≤ 511, the root is the last node, and the arena is full for n = 256 with K = 2 and with K = 255. -/
def Obligations.BuildCountsNodes : Prop :=
  ∀ s : State, 2 ≤ s.k.toNat → 2 ≤ ndist s.present →
    ∃ t, exec .build s = .next t ∧
      t.nleaf.toNat = ndist s.present + paddingOf (ndist s.present) s.k.toNat ∧
      (t.nleaf.toNat - 1) % (s.k.toNat - 1) = 0 ∧
      t.node.countP (fun n => decide (n.kind = NodeKind.int)) = (t.nleaf.toNat - 1) / (s.k.toNat - 1) ∧
      (t.nleaf.toNat - 1) / (s.k.toNat - 1) ≤ 255 ∧
      t.nnodes.toNat = t.nleaf.toNat + (t.nleaf.toNat - 1) / (s.k.toNat - 1) ∧
      t.nnodes.toNat ≤ 511 ∧ t.root.toNat + 1 = t.nnodes.toNat ∧
      (ndist s.present = 256 → s.k.toNat = 2 ∨ s.k.toNat = 255 → t.nnodes.toNat = 511)

/-- R118 (inferred) with its two scenarios, and R112: for K = 2 no padding is ever added. -/
def Obligations.PaddingInvariant : Prop :=
  ∀ s : State, 2 ≤ s.k.toNat → 2 ≤ ndist s.present →
    ∃ t, exec .build s = .next t ∧ (t.nleaf.toNat - 1) % (s.k.toNat - 1) = 0 ∧
      (s.k.toNat = 2 ∨ (ndist s.present - 1) % (s.k.toNat - 1) = 0 → t.npad = 0#8) ∧
      (ndist s.present = 5 → s.k.toNat = 3 → t.npad = 0#8) ∧
      (ndist s.present = 4 → s.k.toNat = 3 → t.npad = 1#8 ∧ t.nleaf = 5#10)

/-- R31, R32 (its bound inferred): the keys and the frequencies of BUILD's nodes: a real leaf has its symbol and its table entry, a padding
leaf a key above 255 and frequency 0, an internal node the least key and the exact sum, which never wraps; no key
passes 508. -/
def Obligations.NodeKeysAndFrequencies : Prop :=
  ∀ s : State, 2 ≤ s.k.toNat → ∃ t, exec .build s = .next t ∧
    ∀ x : NodeIdx,
      (nodeAt t.node x).key.toNat ≤ 508 ∧ (nodeAt t.node x).freq.toNat ≤ 256 * (2 ^ 32 - 1) ∧
      ((nodeAt t.node x).kind = NodeKind.leaf →
        (nodeAt t.node x).key = (nodeAt t.node x).sym.setWidth 9 ∧
        (nodeAt t.node x).freq = (symGet s.freq (nodeAt t.node x).sym).setWidth 40) ∧
      ((nodeAt t.node x).kind = NodeKind.pad → 256 ≤ (nodeAt t.node x).key.toNat ∧ (nodeAt t.node x).freq = 0#40) ∧
      ((nodeAt t.node x).kind = NodeKind.int →
        (∃ c ∈ (nodeAt t.node x).ch, (nodeAt t.node c).key = (nodeAt t.node x).key) ∧
        (∀ c ∈ (nodeAt t.node x).ch, (nodeAt t.node x).key.toNat ≤ (nodeAt t.node c).key.toNat) ∧
        (nodeAt t.node x).freq.toNat = ((nodeAt t.node x).ch.map (fun c => (nodeAt t.node c).freq.toNat)).sum)

/-- R104, R109: each merge takes the K least live nodes. An internal node has K children, older than itself, in
ascending order of (FREQ, KEY), child c[t] for digit t, and each of them precedes every other node that was live at
that merge (older than the new node and no older node's child). -/
def Obligations.MergeTakesLeast : Prop :=
  ∀ s : State, 2 ≤ s.k.toNat → ∃ t, exec .build s = .next t ∧
    ∀ x : NodeIdx, (nodeAt t.node x).kind = NodeKind.int →
      (nodeAt t.node x).sym = 0#8 ∧ (nodeAt t.node x).nch = s.k ∧
      (nodeAt t.node x).ch.length = s.k.toNat ∧
      (∀ c ∈ (nodeAt t.node x).ch, c.toNat < x.toNat) ∧
      (nodeAt t.node x).ch.Pairwise (precedes t.node) ∧
      (∀ c ∈ (nodeAt t.node x).ch, ∀ y : NodeIdx, y.toNat < x.toNat → y ∉ (nodeAt t.node x).ch →
        (∀ z : NodeIdx, z.toNat < x.toNat → y ∉ (nodeAt t.node z).ch) → precedes t.node c y)

/-- R113 (inferred): the tree is full, with strict ownership, no sharing and no cycles: every internal node has exactly K
children, every node but the root is the child of exactly one node, children are older than their parent, leaves have
no children, and every node is reached from the root. -/
def Obligations.TreeIsFull : Prop :=
  ∀ s : State, 2 ≤ s.k.toNat → 1 ≤ ndist s.present →
    ∃ t, exec .build s = .next t ∧
      (∀ x : NodeIdx, (nodeAt t.node x).kind = NodeKind.int →
        (nodeAt t.node x).nch = s.k ∧ (nodeAt t.node x).ch.length = s.k.toNat ∧
        ∀ c ∈ (nodeAt t.node x).ch, c.toNat < x.toNat) ∧
      (∀ x : NodeIdx, (nodeAt t.node x).kind ≠ NodeKind.int → (nodeAt t.node x).ch = []) ∧
      (∀ x : NodeIdx, x.toNat < t.nnodes.toNat →
        (t.node.flatMap Node.ch).count x = (if x = t.root then 0 else 1) ∧
        ∃ p : List Byte, leadsTo t.node s.k.toNat t.root p x)

/-- R116 (inferred): two BUILDs on the same FREQ, PRESENT and K give the same arena, field for field, and GENs after them the
same codes, whatever else the states hold. -/
def Obligations.BuildIsDeterministic : Prop :=
  ∀ s s' : State, 2 ≤ s.k.toNat → s'.k = s.k → s'.freq = s.freq → s'.present = s.present →
    ∃ t t', exec .build s = .next t ∧ exec .build s' = .next t' ∧
      t'.node = t.node ∧ t'.nnodes = t.nnodes ∧ t'.nleaf = t.nleaf ∧ t'.npad = t.npad ∧ t'.root = t.root ∧
      ∃ u u', exec .gen t = .next u ∧ exec .gen t' = .next u' ∧
        u'.cvalid = u.cvalid ∧ u'.clen = u.clen ∧ u'.cdig = u.cdig

/-! ### The code table generator (42_code_table.md) -/

/-- R120, and R114, R121, R122 (inferred): GEN with a valid tree completes and writes, for exactly the symbols of the table, the path
from the root to the symbol's leaf, at most 255 digits, each below K; padding leaves get no code; nothing but the ROM
and CODE_VALID changes. -/
def Obligations.GenWritesPaths : Prop :=
  ∀ s : State, Inv s → s.treeValid = true →
    ∃ t, exec .gen s = .next t ∧
      t = { s with cvalid := t.cvalid, clen := t.clen, cdig := t.cdig, codeValid := true } ∧
      (∀ x : Sym, symGet t.cvalid x = symGet s.present x) ∧
      (∀ x : Sym, symGet s.present x = true →
        (codeOf t x).length ≤ 255 ∧ (∀ d ∈ codeOf t x, d.toNat < s.k.toNat) ∧
        ∃ y : NodeIdx, leadsTo s.node s.k.toNat s.root (codeOf t x) y ∧
          (nodeAt s.node y).kind = NodeKind.leaf ∧ (nodeAt s.node y).sym = x) ∧
      (∀ (x : Sym) (i : Nat), (symGet t.clen x).toNat ≤ i → digitAt t.cdig x i = 0#8)

/-- R123, R125 and GEN's check: with TREE_VALID = 0 GEN raises PROTOCOL NO_TREE and writes nothing else; a single-leaf
tree gives its symbol the empty code and no other symbol a code; an empty tree gives no codes, sets CODE_VALID, and
then every ENC raises PROTOCOL NO_CODE. -/
def Obligations.GenAtTheEdges : Prop :=
  ∀ s : State,
    (s.treeValid = false → exec .gen s =
      .next { s with errKind := .protocol, errSub := 3#8, errOp := 0x11#8, errInfo := 0x11#32 }) ∧
    (s.treeValid = true → s.root ≠ 511#9 → (nodeAt s.node s.root).kind = NodeKind.leaf →
      ∃ t, exec .gen s = .next t ∧
        t = { s with cvalid := t.cvalid, clen := t.clen, cdig := t.cdig, codeValid := true } ∧
        symGet t.cvalid (nodeAt s.node s.root).sym = true ∧ symGet t.clen (nodeAt s.node s.root).sym = 0#8 ∧
        ∀ x : Sym, x ≠ (nodeAt s.node s.root).sym → symGet t.cvalid x = false) ∧
    (s.treeValid = true → s.root = 511#9 →
      ∃ t, exec .gen s = .next t ∧
        t = { s with cvalid := t.cvalid, clen := t.clen, cdig := t.cdig, codeValid := true } ∧
        ∀ x : Sym, symGet t.cvalid x = false ∧ exec (.enc x) t =
          .next { t with errKind := .protocol, errSub := 5#8, errOp := 0x21#8, errInfo := x.setWidth 32 })

/-- R124 (inferred): no code in the ROM is a prefix of another, and no two symbols share a code. -/
def Obligations.CodesArePrefixFree : Prop :=
  ∀ s : State, Inv s → s.codeValid = true → ∀ x y : Sym, symGet s.cvalid x = true → symGet s.cvalid y = true →
    x ≠ y → ¬ codeOf s x <+: codeOf s y

/-! ### The header serializer and the packer (43_packer.md) -/

/-- R150, R75, R77: EMITH checks MISALIGNED before BAD_K, both before any output; otherwise it appends the header,
9 + 5D bytes with the entries in ascending symbol order, and changes nothing else. -/
def Obligations.EmithEmitsHeader : Prop :=
  decode 0x0000000000000020#64 = .ok .emith ∧
  ∀ s : State,
    (s.boff ≠ 0#3 → exec .emith s =
      .next { s with errKind := .protocol, errSub := 6#8, errOp := 0x20#8, errInfo := s.boff.setWidth 32 }) ∧
    (s.boff = 0#3 → s.k.toNat < 2 → exec .emith s =
      .next { s with errKind := .config, errSub := 1#8, errOp := 0x20#8, errInfo := s.k.setWidth 32 }) ∧
    (s.boff = 0#3 → 2 ≤ s.k.toNat → exec .emith s =
      .next { s with
        out := s.out ++ (s.k :: le32 s.ncount ++ le32 (BitVec.ofNat 32 (ndist s.present)) ++
          entryBytes ((allSyms.filter (symGet s.present)).map (fun x => (x, symGet s.freq x))))
        outcnt := s.outcnt + (9 + 5 * ndist s.present) })

/-- R151, R35: PutBit places one bit at ACC[7 − BOFF]; the eighth bit sends the byte out; the bits of ACC below the
filled ones stay 0. -/
def Obligations.PutBitPlacesBit : Prop :=
  ∀ (s : State) (b : Bool),
    (s.boff ≠ 7#3 → ∃ a : BitVec 8, putBit s b = { s with acc := a, boff := s.boff + 1#3 } ∧
      ∀ i : Nat, i < 8 → a.getLsbD i = if i = 7 - s.boff.toNat then b else s.acc.getLsbD i) ∧
    (s.boff = 7#3 → ∃ a : BitVec 8,
      putBit s b = { s with acc := 0#8, boff := 0#3, out := s.out ++ [a], outcnt := s.outcnt + 1 } ∧
      ∀ i : Nat, i < 8 → a.getLsbD i = if i = 0 then b else s.acc.getLsbD i) ∧
    (accClean s → accClean (putBit s b))

/-- R152, R58, R79: ENC x raises NO_CODES, then NO_CODE, before any bit is placed; otherwise the bits pending in ACC and
then the digits of x's code, each in W(K) bits, most significant first, go out in whole bytes and the rest stays in
ACC; nothing else changes. (The accumulator's clean form is R35's, an invariant.) -/
def Obligations.EncPacksCode : Prop :=
  ∀ (x : Sym) (s : State),
    decode (0#32 ++ 0#16 ++ x ++ 0x21#8) = .ok (.enc x) ∧
    (s.codeValid = false → exec (.enc x) s =
      .next { s with errKind := .protocol, errSub := 4#8, errOp := 0x21#8, errInfo := 0x21#32 }) ∧
    (s.codeValid = true → symGet s.cvalid x = false → exec (.enc x) s =
      .next { s with errKind := .protocol, errSub := 5#8, errOp := 0x21#8, errInfo := x.setWidth 32 }) ∧
    (accClean s → s.codeValid = true → symGet s.cvalid x = true →
      ∀ bits : List Bool, bits = (bitsOfDigits 8 [s.acc]).take s.boff.toNat ++ codeStream s [x] →
        exec (.enc x) s = .next { s with
          acc := byteOfBits (bits.drop (8 * (bits.length / 8)))
          boff := BitVec.ofNat 3 (bits.length % 8)
          out := s.out ++ bytesOfBits (bits.length / 8) bits
          outcnt := s.outcnt + bits.length / 8 })

/-- R153: FLUSH emits the partial byte if there is one and does nothing otherwise; a second FLUSH is a no-op. -/
def Obligations.FlushEmitsPartialByte : Prop :=
  decode 0x0000000000000022#64 = .ok .flush ∧
  ∀ s : State,
    (s.boff = 0#3 → exec .flush s = .next s) ∧
    (s.boff ≠ 0#3 → exec .flush s =
      .next { s with out := s.out ++ [s.acc], outcnt := s.outcnt + 1, acc := 0#8, boff := 0#3 }) ∧
    ∃ t, exec .flush s = .next t ∧ exec .flush t = .next t

/-- R154 (inferred): from an error-free state with valid codes, every symbol of S with a code, and BOFF = 0 (so ACC is 0, R35),
ENC of each symbol and then FLUSH append the payload of R79 to OUT and nothing else, and leave ACC = 0 and BOFF = 0;
with EMITH before them, OUT gets the header and then that payload. -/
def Obligations.PackerEmitsPayload : Prop :=
  ∀ (S : List Sym) (s : State), s.errKind = ErrKind.none → s.codeValid = true →
    (∀ x ∈ S, symGet s.cvalid x = true) → s.boff = 0#3 → accClean s →
    issue (S.map .enc ++ [.flush]) s =
      .next { s with host := [], out := s.out ++ packedBytes (codeStream s S),
                     outcnt := s.outcnt + ((codeStream s S).length + 7) / 8, acc := 0#8, boff := 0#3 } ∧
    (2 ≤ s.k.toNat → ∃ h : State, exec .emith { s with host := [] } = .next h ∧
      issue (.emith :: S.map .enc ++ [.flush]) s =
        .next { h with out := h.out ++ packedBytes (codeStream s S),
                       outcnt := h.outcnt + ((codeStream s S).length + 7) / 8, acc := 0#8, boff := 0#3 })

/-- R155 (inferred): when the table has one entry, every ENC of that symbol places no bits. -/
def Obligations.SingleSymbolPacksNothing : Prop :=
  ∀ (s : State) (x : Sym), Inv s → s.codeValid = true → ndist s.present = 1 → symGet s.present x = true →
    exec (.enc x) s = .next s

/-! ### The header parser (44_unpacker.md) -/

/-- R172, R75, R170: PARSEH of a well-formed header at the next byte boundary of IN loads K (whatever K was), NCOUNT and
exactly the header's entries, clears the validity flags, leaves INPOS at the first payload byte, 9 + 5D on, and changes
nothing else. Zero frequencies, any entry order and D ≥ 1 with N = 0 are accepted. -/
def Obligations.ParsehLoadsHeader : Prop :=
  ∀ (s : State) (k : Byte) (n : Word32) (es : List (Sym × Word32)) (rest : List Byte), 2 ≤ k.toNat →
    (es.map Prod.fst).Nodup → (es = [] → n = 0#32) →
    s.inp.drop (startByte s) = k :: le32 n ++ le32 (BitVec.ofNat 32 es.length) ++ entryBytes es ++ rest →
    ∃ t, exec .parseh s = .next t ∧
      (∀ x : Sym, symGet t.present x = true ↔ x ∈ es.map Prod.fst) ∧
      (∀ e ∈ es, symGet t.freq e.1 = e.2) ∧ (∀ x : Sym, x ∉ es.map Prod.fst → symGet t.freq x = 0#32) ∧
      t = { s with k := k, ncount := n, freq := t.freq, present := t.present, treeValid := false, codeValid := false,
                   decDone := false, inpos := startByte s + (9 + 5 * es.length), rdbit := 0#3 }

/-- R171, R172: PARSEH's errors in the fixed fields, in header order; each leaves K, NCOUNT and the table as they were,
and INPOS past the bytes read. -/
def Obligations.ParsehRejectsFixedFields : Prop :=
  ∀ s : State,
    (s.inp.drop (startByte s) = [] → exec .parseh s =
      .next { s with inpos := startByte s, rdbit := 0#3, errKind := .format, errSub := 1#8, errOp := 0x30#8,
                     errInfo := BitVec.ofNat 32 (startByte s) }) ∧
    (∀ (k : Byte) (rest : List Byte), s.inp.drop (startByte s) = k :: rest →
      (k.toNat < 2 → exec .parseh s =
        .next { s with inpos := startByte s + 1, rdbit := 0#3, errKind := .config, errSub := 1#8, errOp := 0x30#8,
                       errInfo := k.setWidth 32 }) ∧
      (2 ≤ k.toNat → rest.length < 8 → exec .parseh s =
        .next { s with inpos := s.inp.length, rdbit := 0#3, errKind := .format, errSub := 1#8, errOp := 0x30#8,
                       errInfo := BitVec.ofNat 32 s.inp.length }) ∧
      (2 ≤ k.toNat → ∀ (n d : Word32) (more : List Byte), rest = le32 n ++ le32 d ++ more →
        (256 < d.toNat → exec .parseh s =
          .next { s with inpos := startByte s + 9, rdbit := 0#3, errKind := .format, errSub := 2#8, errOp := 0x30#8,
                         errInfo := d }) ∧
        (d = 0#32 → n ≠ 0#32 → exec .parseh s =
          .next { s with inpos := startByte s + 9, rdbit := 0#3, errKind := .format, errSub := 4#8, errOp := 0x30#8,
                         errInfo := n })))

/-- R171, R172, R241: PARSEH's errors inside the entries. After es distinct entries of the D the header declares, a
symbol byte already entered raises DUP_SYMBOL, and IN ending in the next entry raises HDR_TRUNC; K, NCOUNT and the
entries es stay loaded. -/
def Obligations.ParsehRejectsEntries : Prop :=
  ∀ (s : State) (k : Byte) (n d : Word32) (es : List (Sym × Word32)) (tail : List Byte), 2 ≤ k.toNat →
    d.toNat ≤ 256 → es.length < d.toNat → (es.map Prod.fst).Nodup →
    s.inp.drop (startByte s) = k :: le32 n ++ le32 d ++ entryBytes es ++ tail →
    ∃ freq present,
      (∀ x : Sym, symGet present x = true ↔ x ∈ es.map Prod.fst) ∧ (∀ e ∈ es, symGet freq e.1 = e.2) ∧
      (∀ x : Sym, x ∉ es.map Prod.fst → symGet freq x = 0#32) ∧
      (∀ (x : Sym) (more : List Byte), tail = x :: more → x ∈ es.map Prod.fst → exec .parseh s =
        .next { s with k := k, ncount := n, freq := freq, present := present, treeValid := false, codeValid := false,
                       decDone := false, inpos := startByte s + (9 + 5 * es.length) + 1, rdbit := 0#3,
                       errKind := .format, errSub := 3#8, errOp := 0x30#8, errInfo := x.setWidth 32 }) ∧
      (tail.length < 5 → (∀ x ∈ tail.head?, x ∉ es.map Prod.fst) → exec .parseh s =
        .next { s with k := k, ncount := n, freq := freq, present := present, treeValid := false, codeValid := false,
                       decDone := false, inpos := s.inp.length, rdbit := 0#3,
                       errKind := .format, errSub := 1#8, errOp := 0x30#8,
                       errInfo := BitVec.ofNat 32 s.inp.length })

/-- R173 (inferred): the bytes EMITH appends, read back by PARSEH wherever they stand in an IN, reproduce K, NCOUNT, FREQ and
PRESENT exactly (FREQ of an absent symbol is 0 by the invariant of R25). -/
def Obligations.HeaderRoundTrip : Prop :=
  ∀ s : State, s.errKind = ErrKind.none → 2 ≤ s.k.toNat → s.boff = 0#3 → tableClean s →
    (0 < ndist s.present ∨ s.ncount = 0#32) →
    ∃ a, exec .emith s = .next a ∧
      ∀ (r : State) (front rest : List Byte), r.errKind = ErrKind.none →
        r.inp = front ++ a.out.drop s.out.length ++ rest → r.inpos = front.length → r.rdbit = 0#3 →
        ∃ b, exec .parseh r = .next b ∧ b.errKind = ErrKind.none ∧
          b.k = s.k ∧ b.ncount = s.ncount ∧ b.freq = s.freq ∧ b.present = s.present

/-! ### The unpacker (44_unpacker.md) -/

/-- R52, R54, R174: InByte, InBit and ReadDigit: bytes front to back, bits most significant first, a digit's first bit
its most significant; the named raise when IN is exhausted. -/
def Obligations.StreamReads : Prop :=
  ∀ s : State,
    (∀ exc : State → State,
      (s.inp.length ≤ s.inpos → inByte exc s = .error (exc s) ∧ inBit exc s = .error (exc s)) ∧
      ∀ h : s.inpos < s.inp.length,
        inByte exc s = .ok (s.inp[s.inpos], { s with inpos := s.inpos + 1 }) ∧
        inBit exc s = .ok ((s.inp[s.inpos]).getLsbD (7 - s.rdbit.toNat),
          if s.rdbit = 7#3 then { s with rdbit := 0#3, inpos := s.inpos + 1 } else { s with rdbit := s.rdbit + 1#3 })) ∧
    (∀ bs rest : List Bool, bs.length = digitWidth s.k →
      (bitsOfBytes s.inp).drop (8 * s.inpos + s.rdbit.toNat) = bs ++ rest →
      readDigit s = .ok (bs.foldl (fun v b => 2 * v + b.toNat) 0,
        { s with inpos := (8 * s.inpos + s.rdbit.toNat + bs.length) / 8
                 rdbit := BitVec.ofNat 3 ((8 * s.inpos + s.rdbit.toNat + bs.length) % 8) })) ∧
    (8 * s.inpos + s.rdbit.toNat ≤ 8 * s.inp.length →
      8 * s.inp.length < 8 * s.inpos + s.rdbit.toNat + digitWidth s.k →
      readDigit s = .error { s with inpos := s.inp.length, rdbit := 0#3, errKind := .format, errSub := 7#8,
                                    errOp := 0x31#8, errInfo := s.decCount })

/-- R176, R244: DECODE checks NO_TREE and then MISALIGNED before anything else. -/
def Obligations.DecodeChecksFirst : Prop :=
  ∀ s : State,
    (s.treeValid = false → exec .decode s =
      .next { s with errKind := .protocol, errSub := 3#8, errOp := 0x31#8, errInfo := 0x31#32 }) ∧
    (s.treeValid = true → s.boff ≠ 0#3 → exec .decode s =
      .next { s with errKind := .protocol, errSub := 6#8, errOp := 0x31#8, errInfo := s.boff.setWidth 32 })

/-- R180, R181: with NCOUNT = 0 DECODE emits nothing and succeeds, whatever the tree; with NCOUNT > 0 and an empty tree
it raises FORMAT EMPTY_TABLE; with a single-leaf tree it repeats the symbol NCOUNT times and reads no payload. -/
def Obligations.DecodeAtTheEdges : Prop :=
  ∀ s : State, s.treeValid = true → s.boff = 0#3 →
    (s.ncount = 0#32 → exec .decode s =
      .next { s with decCount := 0#32, decDone := true, inpos := startByte s, rdbit := 0#3, cursor := s.root }) ∧
    (s.ncount ≠ 0#32 → s.root = 511#9 → exec .decode s =
      .next { s with decCount := 0#32, decDone := false, inpos := startByte s, rdbit := 0#3, cursor := s.root,
                     errKind := .format, errSub := 4#8, errOp := 0x31#8, errInfo := s.ncount }) ∧
    (s.ncount ≠ 0#32 → s.root ≠ 511#9 → (nodeAt s.node s.root).kind = NodeKind.leaf → exec .decode s =
      .next { s with decCount := s.ncount, decDone := true, inpos := startByte s, rdbit := 0#3, cursor := s.root,
                     out := s.out ++ List.replicate s.ncount.toNat (nodeAt s.node s.root).sym,
                     outcnt := s.outcnt + s.ncount.toNat })

/-- R175, R179, R241, R288: DECODE ends for every legal radix, whatever the arena and IN hold; it only appends to OUT
and touches nothing but the decoder's state, OUT and the error registers; without an error it ends at DEC_COUNT =
NCOUNT with the cursor at the root. -/
def Obligations.DecodeCompletes : Prop :=
  ∀ s : State, 2 ≤ s.k.toNat → ∃ t, exec .decode s = .next t ∧
    t = { s with out := t.out, outcnt := t.outcnt, inpos := t.inpos, rdbit := t.rdbit, decCount := t.decCount,
                 cursor := t.cursor, decDone := t.decDone, errKind := t.errKind, errSub := t.errSub,
                 errOp := t.errOp, errInfo := t.errInfo } ∧
    s.out <+: t.out ∧ t.outcnt + s.out.length = s.outcnt + t.out.length ∧
    (s.errKind = ErrKind.none → t.errKind = ErrKind.none →
      t.decDone = true ∧ t.decCount = s.ncount ∧ t.cursor = s.root)

/-- R82, R177, R179, and R182 (inferred): DECODE inverts the packing: if the tree is valid and IN holds the codes of S from the next byte
boundary on, and NCOUNT is |S|, DECODE emits S, reads exactly their bits and ignores what follows. -/
def Obligations.DecodeInvertsPacking : Prop :=
  ∀ (s : State) (code : Sym → List Byte) (S : List Sym) (rest : List Bool), Inv s → s.treeValid = true →
    s.boff = 0#3 → S.length = s.ncount.toNat → (∀ x ∈ S, isCodeFor s code x) →
    ∀ bits : List Bool, bits = payloadBits s.k code S →
    (bitsOfBytes s.inp).drop (8 * startByte s) = bits ++ rest →
    exec .decode s = .next { s with
      out := s.out ++ S, outcnt := s.outcnt + S.length, decCount := s.ncount, decDone := true, cursor := s.root
      inpos := (8 * startByte s + bits.length) / 8
      rdbit := BitVec.ofNat 3 ((8 * startByte s + bits.length) % 8) }

/-- R176, R178, R241, R243: DECODE on a corrupt payload. After the codes of fewer than NCOUNT symbols and a walk q to
an internal node y: a group of W(K) bits with a value v ≥ K raises BAD_DIGIT with v; a digit whose child is a padding
leaf raises PAD_LEAF with its index, kept in CURSOR; and IN ending before a whole group raises UNDERRUN with DEC_COUNT.
The symbols decoded before stay in OUT. -/
def Obligations.DecodeStopsAtCorruption : Prop :=
  ∀ (s : State) (code : Sym → List Byte) (S : List Sym) (q : List Byte) (y : NodeIdx) (tail : List Bool), Inv s →
    s.treeValid = true → s.boff = 0#3 → S.length < s.ncount.toNat → (∀ x ∈ S, isCodeFor s code x) →
    leadsTo s.node s.k.toNat s.root q y → (nodeAt s.node y).kind = NodeKind.int →
    ∀ head : List Bool, head = payloadBits s.k code S ++ bitsOfDigits (digitWidth s.k) q →
    (bitsOfBytes s.inp).drop (8 * startByte s) = head ++ tail →
    (tail.length < digitWidth s.k → exec .decode s = .next { s with
        out := s.out ++ S, outcnt := s.outcnt + S.length, decCount := BitVec.ofNat 32 S.length, decDone := false
        cursor := y, inpos := s.inp.length, rdbit := 0#3
        errKind := .format, errSub := 7#8, errOp := 0x31#8, errInfo := BitVec.ofNat 32 S.length }) ∧
    (∀ (v : Byte) (more : List Bool), tail = bitsOfDigits (digitWidth s.k) [v] ++ more →
      v.toNat < 2 ^ digitWidth s.k →
      (s.k.toNat ≤ v.toNat → exec .decode s = .next { s with
        out := s.out ++ S, outcnt := s.outcnt + S.length, decCount := BitVec.ofNat 32 S.length, decDone := false
        cursor := y
        inpos := (8 * startByte s + head.length + digitWidth s.k) / 8
        rdbit := BitVec.ofNat 3 ((8 * startByte s + head.length + digitWidth s.k) % 8)
        errKind := .format, errSub := 5#8, errOp := 0x31#8, errInfo := v.setWidth 32 }) ∧
      (v.toNat < s.k.toNat → (nodeAt s.node ((nodeAt s.node y).child v.toNat)).kind = NodeKind.pad →
        exec .decode s = .next { s with
          out := s.out ++ S, outcnt := s.outcnt + S.length, decCount := BitVec.ofNat 32 S.length, decDone := false
          cursor := (nodeAt s.node y).child v.toNat
          inpos := (8 * startByte s + head.length + digitWidth s.k) / 8
          rdbit := BitVec.ofNat 3 ((8 * startByte s + head.length + digitWidth s.k) % 8)
          errKind := .format, errSub := 6#8, errOp := 0x31#8
          errInfo := ((nodeAt s.node y).child v.toNat).setWidth 32 }))

/-- R182 (inferred): for every byte sequence S with |S| ≤ 2^32 − 1 and every radix k in 2..255, compressing S from reset and
decompressing the artifact from reset gives S back, without error. -/
def Obligations.RoundTrip : Prop :=
  ∀ (k : BitVec 8) (S : List Byte), 2 ≤ k.toNat → S.length ≤ 2 ^ 32 - 1 →
    ∃ a b, issue (Asm.compressProgram k S) State.reset = .next a ∧ a.errKind = ErrKind.none ∧
      issue Asm.decompressProgram { State.reset with inp := a.out } = .next b ∧
      b.errKind = ErrKind.none ∧ b.out = S ∧ b.decDone = true ∧ b.k = k

/-! ### Rules over all commands (10_state.md, 60_exceptions.md) -/

/-- R28: a command that changes K, FREQ or PRESENT clears the three validity flags, and unless it is the reset it does
not clear the arena or the code ROM. -/
def Obligations.TableChangeInvalidates : Prop :=
  ∀ (i : Instr) (s t : State), exec i s = .next t → t.k ≠ s.k ∨ t.freq ≠ s.freq ∨ t.present ≠ s.present →
    t.treeValid = false ∧ t.codeValid = false ∧ t.decDone = false ∧
    (i ≠ .srst → t.node = s.node ∧ t.cvalid = s.cvalid ∧ t.clen = s.clen ∧ t.cdig = s.cdig)

/-- R33, R34, R35, R51, R53, R151 to R153: who writes what. But for the reset: only BUILD writes the arena, only GEN the code ROM, only
EMITH, ENC, FLUSH and DECODE write OUT, and they append; only PARSEH and DECODE move in IN, which no command changes;
only ENC and FLUSH write the accumulator. -/
def Obligations.OnlyOwnersWrite : Prop :=
  ∀ (i : Instr) (s t : State), exec i s = .next t →
    t.inp = s.inp ∧ (i ≠ .srst →
      s.out <+: t.out ∧
      (i ≠ .build → t.node = s.node ∧ t.nnodes = s.nnodes ∧ t.nleaf = s.nleaf ∧ t.npad = s.npad ∧ t.root = s.root) ∧
      (i ≠ .gen → t.cvalid = s.cvalid ∧ t.clen = s.clen ∧ t.cdig = s.cdig) ∧
      (i ≠ .emith → (∀ x : Sym, i ≠ .enc x) → i ≠ .flush → i ≠ .decode → t.out = s.out ∧ t.outcnt = s.outcnt) ∧
      (i ≠ .parseh → i ≠ .decode → t.inpos = s.inpos ∧ t.rdbit = s.rdbit) ∧
      ((∀ x : Sym, i ≠ .enc x) → i ≠ .flush → t.acc = s.acc ∧ t.boff = s.boff))

/-- R237, R240, and R239 (inferred): which commands can raise which errors; ERROP is the opcode of the raising command. -/
def Obligations.CommandsRaiseOnly : Prop :=
  ∀ (i : Instr) (s t : State), s.errKind = ErrKind.none → exec i s = .next t → t.errKind ≠ ErrKind.none →
    ∃ e ∈ raisable i, t.errKind = e.kind ∧ t.errSub = e.sub ∧ t.errOp = i.opcode.code

/-- R241: for SETK, CNT, LDF, BUILD, GEN, EMITH and ENC every check comes before any write: a run that raises changes
the error registers and nothing else. -/
def Obligations.ChecksBeforeWrites : Prop :=
  ∀ (i : Instr) (s t : State),
    (∃ k, i = .setk k) ∨ (∃ x, i = .cnt x) ∨ (∃ x f, i = .ldf x f) ∨ i = .build ∨ i = .gen ∨ i = .emith ∨
      (∃ x, i = .enc x) →
    s.errKind = ErrKind.none → exec i s = .next t → t.errKind ≠ ErrKind.none →
    t = { s with errKind := t.errKind, errSub := t.errSub, errOp := t.errOp, errInfo := t.errInfo }

/-! ### The invariant -/

/-- The invariant holds at reset (R41). Its clauses on the arena's list form and on `inFixed` are logs 4 and 3. -/
def Obligations.InvariantAtReset : Prop := Inv State.reset

/-- Every step keeps the invariant (R21, R23, R25, R27, R33, R34, R35, R36, R51, R53, R237): from EVERY state that meets
it, reached or not. `Arena.wf` is log 4's list form of the arena; `positionLegal` speaks of the model's own field
`inFixed`, and the position stays in IN because an attach in the middle of a session is refused (log 3). -/
def Obligations.StepKeepsInvariant : Prop := ∀ s t : State, Inv s → step s = .next t → Inv t

/-- R288, and R247 (inferred): from a state that meets the invariant no step faults: no assert of the spec fails, every command
completes. The one step that is refused is a host's attach in the middle of a session (log 3). -/
def Obligations.NoStepFaults : Prop :=
  ∀ s : State, Inv s →
    (∃ t, step s = .next t) ∨
      ∃ bytes rest, s.host = .attach bytes :: rest ∧ s.inFixed = true ∧ step s = .refused .inputChangedInSession
end

