-- ==== Sys2Proof/Laws/Arrays.lean ====
section
/-! SUPPORT. Laws of the per-symbol arrays, the arena and the key set of the frequency table. -/

namespace Sys2Proof.Machine

variable {α : Type}

/-! ### Per-symbol arrays -/

@[simp] theorem symGet_symSet_same (v : Vector α 256) (x : Sym) (a : α) : symGet (symSet v x a) x = a := by
  simp [symGet, symSet]

theorem symGet_symSet_other (v : Vector α 256) {x y : Sym} (a : α) (h : y ≠ x) :
    symGet (symSet v x a) y = symGet v y := by
  have : x.toNat ≠ y.toNat := fun e => h (BitVec.eq_of_toNat_eq e.symm)
  simp [symGet, symSet, this]

/-- A read after a write: the value written at that symbol, the old value elsewhere. -/
theorem symGet_symSet (v : Vector α 256) (x y : Sym) (a : α) :
    symGet (symSet v x a) y = if y = x then a else symGet v y := by
  split
  · next h => subst h; simp
  · next h => exact symGet_symSet_other v a h

@[simp] theorem symGet_replicate (a : α) (x : Sym) : symGet (Vector.replicate 256 a) x = a := by
  simp [symGet]

/-- Two arrays that agree at every symbol are equal. -/
theorem symGet_ext {v w : Vector α 256} (h : ∀ x : Sym, symGet v x = symGet w x) : v = w := by
  apply Vector.ext
  intro i hi
  have := h (BitVec.ofNat 8 i)
  simpa [symGet, Nat.mod_eq_of_lt hi] using this

/-! ### The symbols -/

@[simp] theorem length_allSyms : allSyms.length = 256 := by simp [allSyms]

@[simp] theorem mem_allSyms (x : Sym) : x ∈ allSyms := by
  simp only [allSyms, List.mem_map, List.mem_range]
  exact ⟨x.toNat, x.isLt, by simp⟩

theorem allSyms_pairwise_lt : allSyms.Pairwise (fun a b => a.toNat < b.toNat) := by
  rw [allSyms, List.pairwise_map]
  refine List.Pairwise.imp_of_mem ?_ (List.pairwise_lt_range (n := 256))
  intro a b ha hb h
  simp only [List.mem_range] at ha hb
  simpa [Nat.mod_eq_of_lt ha, Nat.mod_eq_of_lt hb] using h

/-- The key set is listed in ascending symbol order (R103, R150), so without repeats. -/
theorem presentSyms_pairwise_lt (p : Vector Bool 256) : (presentSyms p).Pairwise (fun a b => a.toNat < b.toNat) :=
  allSyms_pairwise_lt.filter _

theorem presentSyms_nodup (p : Vector Bool 256) : (presentSyms p).Nodup :=
  (presentSyms_pairwise_lt p).imp (fun h e => by simp [e] at h)

@[simp] theorem mem_presentSyms (p : Vector Bool 256) (x : Sym) : x ∈ presentSyms p ↔ symGet p x = true := by
  simp [presentSyms]

/-- R25: NDIST is in 0..256. -/
theorem ndist_le (p : Vector Bool 256) : ndist p ≤ 256 := by
  have := List.length_filter_le (fun s => symGet p s) allSyms
  simpa [ndist, presentSyms] using this

@[simp] theorem presentSyms_none : presentSyms (Vector.replicate 256 false) = [] := by
  simp [presentSyms]

@[simp] theorem ndist_none : ndist (Vector.replicate 256 false) = 0 := by simp [ndist]

/-! ### The arena -/

theorem nodeAt_append_left (a b : List Node) (x : NodeIdx) (h : x.toNat < a.length) :
    nodeAt (a ++ b) x = nodeAt a x := by
  simp [nodeAt, List.getElem?_append_left h]

theorem nodeAt_of_getElem? {a : List Node} {x : NodeIdx} {n : Node} (h : a[x.toNat]? = some n) : nodeAt a x = n := by
  simp [nodeAt, h]

theorem nodeAt_mem {a : List Node} {x : NodeIdx} (h : x.toNat < a.length) : nodeAt a x ∈ a := by
  simp [nodeAt, h]

/-- An entry past the listed ones is FREE (R33), and so is what NIL names. -/
theorem nodeAt_of_le (a : List Node) (x : NodeIdx) (h : a.length ≤ x.toNat) : nodeAt a x = Node.free := by
  simp [nodeAt, List.getElem?_eq_none h]

end Sys2Proof.Machine
end

