-- ==== Sys2Proof/Laws/Tree.lean ====
section
/-! SUPPORT. Laws of the tree builder (spec/41_tree_builder.md): the merge loop keeps a forest (R108, R109, R113), never
runs short (R110) and never fills the arena (R111). -/

namespace Sys2Proof.Machine

/-- The node indices below m. -/
def indices (m : Nat) : List NodeIdx := (List.range m).map (BitVec.ofNat 9)

@[simp] theorem length_indices (m : Nat) : (indices m).length = m := by simp [indices]

theorem mem_indices {m : Nat} (hm : m ≤ 512) (x : NodeIdx) : x ∈ indices m ↔ x.toNat < m := by
  simp only [indices, List.mem_map, List.mem_range]
  constructor
  · rintro ⟨a, ha, rfl⟩; simpa [Nat.mod_eq_of_lt (show a < 512 by omega)] using ha
  · intro h; exact ⟨x.toNat, h, by simp⟩

theorem indices_nodup {m : Nat} (hm : m ≤ 512) : (indices m).Nodup := by
  rw [indices, List.nodup_iff_pairwise_ne, List.pairwise_map]
  refine List.Pairwise.imp_of_mem ?_ (List.pairwise_lt_range (n := m))
  intro a b ha hb h e
  simp only [List.mem_range] at ha hb
  have := congrArg BitVec.toNat e
  simp [Nat.mod_eq_of_lt (show a < 512 by omega), Nat.mod_eq_of_lt (show b < 512 by omega)] at this
  omega

theorem indices_succ (m : Nat) : indices (m + 1) = indices m ++ [BitVec.ofNat 9 m] := by
  simp [indices, List.range_succ]

/-! ### The order (R104) -/

theorem sortLive_perm (arena : List Node) (q : List NodeIdx) : (sortLive arena q).Perm q :=
  List.perm_insertionSort _ _

@[simp] theorem length_sortLive (arena : List Node) (q : List NodeIdx) : (sortLive arena q).length = q.length :=
  (sortLive_perm arena q).length_eq

theorem sortLive_pairwise (arena : List Node) (q : List NodeIdx) :
    (sortLive arena q).Pairwise (fun a b => notAfter arena a b) := by
  have : Std.Total (notAfter arena) := ⟨fun a b => by unfold notAfter; omega⟩
  have : IsTrans NodeIdx (notAfter arena) := ⟨fun a b c h1 h2 => by unfold notAfter at *; omega⟩
  exact List.pairwise_insertionSort _ _

/-- With distinct keys the order is strict (R108). -/
theorem sortLive_strict (arena : List Node) (q : List NodeIdx)
    (hk : (q.map (fun x => (nodeAt arena x).key.toNat)).Nodup) :
    (sortLive arena q).Pairwise (precedes arena) := by
  have hk' : ((sortLive arena q).map (fun x => (nodeAt arena x).key.toNat)).Nodup :=
    ((sortLive_perm arena q).map _).nodup_iff.mpr hk
  rw [List.nodup_iff_pairwise_ne, List.pairwise_map] at hk'
  refine List.Pairwise.imp₂ ?_ (sortLive_pairwise arena q) hk'
  intro a b h1 h2
  unfold notAfter at h1
  unfold precedes
  omega

/-! ### The forest -/

/-- What R100, R104 and R109 say of the internal node n at entry i of an arena. -/
structure InternalOk (k : BitVec 8) (arena : List Node) (i : Nat) (n : Node) : Prop where
  kind : n.kind = .int
  sym : n.sym = 0#8
  nch : n.nch = k
  count : n.ch.length = k.toNat
  older : ∀ c ∈ n.ch, c.toNat < i
  key : (n.ch.map (fun c => (nodeAt arena c).key.toNat)).min? = some n.key.toNat
  freq : n.freq.toNat = (n.ch.map (fun c => (nodeAt arena c).freq.toNat)).sum
  ascending : n.ch.Pairwise (precedes arena)
  least : ∀ c ∈ n.ch, ∀ y : NodeIdx, y.toNat < i → y ∉ n.ch →
    (∀ m ∈ arena.take i, y ∉ m.ch) → precedes arena c y

/-- The arena under construction: its first L entries are leaves, the others internal nodes, and every entry is
either live (in Q) or the child of exactly one other entry. -/
structure Forest (k : BitVec 8) (L : Nat) (arena : List Node) (q : List NodeIdx) : Prop where
  perm : (q ++ arena.flatMap Node.ch).Perm (indices arena.length)
  size : arena.length ≤ 511
  base : L ≤ arena.length
  leaves : ∀ i n, arena[i]? = some n → i < L → n.ch = [] ∧ n.kind ≠ .int
  ints : ∀ i n, arena[i]? = some n → L ≤ i → InternalOk k arena i n
  keys : (q.map (fun x => (nodeAt arena x).key.toNat)).Nodup
  total : (q.map (fun x => (nodeAt arena x).freq.toNat)).sum ≤ 256 * (2 ^ 32 - 1)

theorem Forest.mem_lt {k L arena q} (F : Forest k L arena q) {x : NodeIdx} (h : x ∈ q) : x.toNat < arena.length := by
  have := F.size
  rw [← mem_indices (by omega)]
  exact F.perm.subset (List.mem_append_left _ h)

theorem Forest.nodup {k L arena q} (F : Forest k L arena q) : (q ++ arena.flatMap Node.ch).Nodup :=
  F.perm.nodup_iff.mpr (indices_nodup (by have := F.size; omega))

/-- An entry that is no entry's child is live. -/
theorem Forest.live {k L arena q} (F : Forest k L arena q) {y : NodeIdx} (h : y.toNat < arena.length)
    (hy : ∀ m ∈ arena, y ∉ m.ch) : y ∈ q := by
  have hs := F.size
  have hmem : y ∈ q ++ arena.flatMap Node.ch := F.perm.symm.subset ((mem_indices (by omega) y).mpr h)
  rcases List.mem_append.mp hmem with h1 | h1
  · exact h1
  · obtain ⟨m, hm, hc⟩ := List.mem_flatMap.mp h1
    exact absurd hc (hy m hm)

theorem precedes_append {a b : List Node} {x y : NodeIdx} (hx : x.toNat < a.length) (hy : y.toNat < a.length) :
    precedes (a ++ b) x y ↔ precedes a x y := by
  unfold precedes
  rw [nodeAt_append_left a b x hx, nodeAt_append_left a b y hy]

/-- What is said of an internal node stays true when the arena grows. -/
theorem InternalOk.append {k arena i n} (b : List Node) (h : InternalOk k arena i n) (hi : i ≤ arena.length) :
    InternalOk k (arena ++ b) i n := by
  have hlt : ∀ c ∈ n.ch, c.toNat < arena.length := fun c hc => Nat.lt_of_lt_of_le (h.older c hc) hi
  refine ⟨h.kind, h.sym, h.nch, h.count, h.older, ?_, ?_, ?_, ?_⟩
  · rw [← h.key]; congr 1
    exact List.map_congr_left (fun c hc => by rw [nodeAt_append_left _ _ _ (hlt c hc)])
  · rw [h.freq]; congr 1
    exact List.map_congr_left (fun c hc => by rw [nodeAt_append_left _ _ _ (hlt c hc)])
  · exact h.ascending.imp_of_mem (fun {a} {c} ha hc hp => (precedes_append (hlt a ha) (hlt c hc)).mpr hp)
  · intro c hc y hy hny hm
    rw [List.take_append_of_le_length hi] at hm
    exact (precedes_append (hlt c hc) (Nat.lt_of_lt_of_le hy hi)).mpr (h.least c hc y hy hny hm)

theorem min?_mem_of_ne_nil {l : List Nat} (h : l ≠ []) : ∃ m, l.min? = some m ∧ m ∈ l := by
  cases hm : l.min? with
  | none => exact absurd (List.min?_eq_none_iff.mp hm) h
  | some m => exact ⟨m, rfl, List.min?_mem hm⟩

/-- One merge (R109): the K least live nodes become the children of a new node, which is live. -/
theorem Forest.merge {k L arena q} (F : Forest k L arena q) (hk : 2 ≤ k.toNat) (hq : k.toNat ≤ q.length)
    (hroom : arena.length < 511) :
    Forest k L (arena ++ [intNode k arena ((sortLive arena q).take k.toNat)])
      ((sortLive arena q).drop k.toNat ++ [BitVec.ofNat 9 arena.length]) := by
  generalize hs : sortLive arena q = sq
  have hperm : sq.Perm q := hs ▸ sortLive_perm arena q
  have hlen : sq.length = q.length := hperm.length_eq
  have hsplit : sq.take k.toNat ++ sq.drop k.toNat = sq := List.take_append_drop _ _
  generalize hc : sq.take k.toNat = c at *
  generalize hd : sq.drop k.toNat = d at *
  have hclen : c.length = k.toNat := by rw [← hc]; simp; omega
  have hltq : ∀ x ∈ sq, x.toNat < arena.length := fun x hx => F.mem_lt (hperm.subset hx)
  have hltc : ∀ x ∈ c, x.toNat < arena.length := fun x hx => hltq x (hsplit ▸ List.mem_append_left _ hx)
  have hltd : ∀ x ∈ d, x.toNat < arena.length := fun x hx => hltq x (hsplit ▸ List.mem_append_right _ hx)
  have hkeys : (sq.map (fun x => (nodeAt arena x).key.toNat)).Nodup := (hperm.map _).nodup_iff.mpr F.keys
  have hkeys' := hkeys
  rw [← hsplit, List.map_append] at hkeys'
  have htot : (sq.map (fun x => (nodeAt arena x).freq.toNat)).sum ≤ 256 * (2 ^ 32 - 1) := by
    rw [(hperm.map _).sum_eq]; exact F.total
  have htot' := htot
  rw [← hsplit, List.map_append, List.sum_append] at htot'
  have hcne : c.map (fun x => (nodeAt arena x).key.toNat) ≠ [] := by
    intro e; have := congrArg List.length e; simp [hclen] at this; omega
  obtain ⟨mk, hmk, hmkmem⟩ := min?_mem_of_ne_nil hcne
  have hmklt : mk < 512 := by
    obtain ⟨x, _, rfl⟩ := List.mem_map.mp hmkmem
    exact (nodeAt arena x).key.isLt
  have hnew : (BitVec.ofNat 9 arena.length).toNat = arena.length := by
    simp; omega
  have hnewnode : ∀ m, nodeAt (arena ++ [m]) (BitVec.ofNat 9 arena.length) = m := by
    intro m; apply nodeAt_of_getElem?; rw [hnew]; simp
  have hstrict : sq.Pairwise (precedes arena) := by
    rw [← hs]; exact sortLive_strict arena q F.keys
  have hstrict' := hstrict
  rw [← hsplit, List.pairwise_append] at hstrict'
  generalize hn : intNode k arena c = n
  have hnch : n.ch = c := by rw [← hn]; rfl
  have hnkey : n.key.toNat = mk := by
    rw [← hn]; simp only [intNode, hmk, Option.getD_some, BitVec.toNat_ofNat]; omega
  have hnfreq : n.freq.toNat = (c.map (fun x => (nodeAt arena x).freq.toNat)).sum := by
    rw [← hn]; simp only [intNode, BitVec.toNat_ofNat]; omega
  have hmapd : ∀ (f : Node → Nat), d.map (fun x => f (nodeAt (arena ++ [n]) x)) = d.map (fun x => f (nodeAt arena x)) :=
    fun f => List.map_congr_left (fun x hx => by rw [nodeAt_append_left _ _ _ (hltd x hx)])
  have hok : InternalOk k arena arena.length n := by
    refine ⟨by rw [← hn]; rfl, by rw [← hn]; rfl, by rw [← hn]; rfl, by rw [hnch, hclen], ?_, ?_, ?_, ?_, ?_⟩
    · rw [hnch]; exact hltc
    · rw [hnch, hnkey]; exact hmk
    · rw [hnch, hnfreq]
    · rw [hnch]; exact hstrict'.1
    · intro x hx y hy hny hm
      rw [hnch] at hx hny
      have hyq : y ∈ q := F.live hy (by simpa using hm)
      have hysq : y ∈ c ++ d := hsplit ▸ hperm.symm.subset hyq
      rcases List.mem_append.mp hysq with h | h
      · exact absurd h hny
      · exact hstrict'.2.2 x hx y h
  constructor
  · rw [List.flatMap_append]
    have h1 : ([n].flatMap Node.ch) = c := by simp [hnch]
    rw [h1, List.length_append, List.length_singleton, indices_succ]
    have h2 : (q ++ arena.flatMap Node.ch ++ [BitVec.ofNat 9 arena.length]).Perm
        (indices arena.length ++ [BitVec.ofNat 9 arena.length]) := F.perm.append_right _
    refine List.Perm.trans ?_ h2
    have h3 : (c ++ d).Perm q := hsplit ▸ hperm
    refine List.Perm.trans ?_ ((h3.append_right (arena.flatMap Node.ch)).append_right _)
    rw [List.perm_iff_count]
    intro a
    simp only [List.count_append]
    omega
  · simp; omega
  · have := F.base; simp; omega
  · intro i m hm hi
    have hb := F.base
    rw [List.getElem?_append_left (by omega)] at hm
    exact F.leaves i m hm hi
  · intro i m hm hi
    rcases Nat.lt_or_ge i arena.length with h | h
    · rw [List.getElem?_append_left h] at hm
      exact (F.ints i m hm hi).append _ (Nat.le_of_lt h)
    · have hi' : i = arena.length := by
        have := (List.getElem?_eq_some_iff.mp hm).1
        simp at this; omega
      subst hi'
      simp at hm
      subst hm
      exact hok.append _ (Nat.le_refl _)
  · rw [List.map_append, hmapd (fun m => m.key.toNat)]
    simp only [List.map_cons, List.map_nil, hnewnode, hnkey]
    rw [List.nodup_append] at hkeys' ⊢
    refine ⟨hkeys'.2.1, by simp, ?_⟩
    intro a ha b hb e
    simp at hb
    subst hb
    exact hkeys'.2.2 _ hmkmem a ha e.symm
  · rw [List.map_append, hmapd (fun m => m.freq.toNat)]
    simp only [List.map_cons, List.map_nil, hnewnode, hnfreq, List.sum_append, List.sum_cons, List.sum_nil]
    omega

/-- R110, R111: with (|Q| − 1) a multiple of K − 1 the loop never runs short, makes (|Q| − 1)/(K − 1) nodes, and leaves
one root, the last node made. -/
theorem mergeLoop_spec {k : BitVec 8} {L : Nat} (hk : 2 ≤ k.toNat) (m : Nat) :
    ∀ (fuel : Nat) (arena : List Node) (q : List NodeIdx), Forest k L arena q →
      q.length = m * (k.toNat - 1) + 1 → m ≤ fuel → arena.length + m ≤ 511 →
      ∃ arena' x, mergeLoop k fuel arena q = .ok (arena', x) ∧ Forest k L arena' [x] ∧ arena <+: arena' ∧
        arena'.length = arena.length + m ∧ (1 ≤ m → x.toNat + 1 = arena'.length) ∧ (m = 0 → q = [x]) := by
  induction m with
  | zero =>
    intro fuel arena q F hq _ _
    obtain ⟨x, rfl⟩ := List.length_eq_one_iff.mp (by simpa using hq)
    exact ⟨arena, x, by simp [mergeLoop], F, List.prefix_rfl, rfl, by omega, by simp⟩
  | succ m ih =>
    intro fuel arena q F hq hf hr
    have hmul : (m + 1) * (k.toNat - 1) = m * (k.toNat - 1) + (k.toNat - 1) := by ring
    have hge : k.toNat ≤ q.length := by omega
    obtain ⟨fuel, rfl⟩ : ∃ f, fuel = f + 1 := ⟨fuel - 1, by omega⟩
    have F' := F.merge hk hge (by omega)
    obtain ⟨arena', x, h1, h2, h3, h4, h5, h6⟩ := ih fuel _ _ F' (by simp; omega) (by omega) (by simp; omega)
    have hne : ∀ y, q ≠ [y] := by rintro y rfl; simp at hge; omega
    refine ⟨arena', x, ?_, h2, (List.prefix_append _ _).trans h3, by simp at h4; omega, ?_, by omega⟩
    · rw [mergeLoop]
      · rw [if_neg (by omega), if_neg (by simp [Config.arenaSize]; omega)]; exact h1
      · exact hne
    · intro _
      rcases Nat.eq_zero_or_pos m with e | e
      · have h7 := h6 e
        subst e
        have hnil : (sortLive arena q).drop k.toNat = [] := by
          apply List.drop_eq_nil_of_le; simp; omega
        rw [hnil] at h7
        simp at h7
        rw [← h7]
        simp at h4 ⊢
        omega
      · exact h5 e

/-! ### Padding (R107, R110, R111, R112) -/

/-- R107: "The count p is in 0..K−2". -/
theorem padCount_le (n k : Nat) (hk : 2 ≤ k) : padCount n k ≤ k - 2 := by
  unfold padCount
  have := Nat.mod_lt (n - 1) (show 0 < k - 1 by omega)
  split <;> omega

/-- R110, R118: with the padding, (L − 1) mod (K − 1) = 0. -/
theorem padCount_mod (n k : Nat) (hn : 1 ≤ n) (hk : 2 ≤ k) : (n + padCount n k - 1) % (k - 1) = 0 := by
  unfold padCount
  have h := Nat.mod_lt (n - 1) (show 0 < k - 1 by omega)
  split
  · simpa using ‹(n - 1) % (k - 1) = 0›
  · have h2 := Nat.div_add_mod (n - 1) (k - 1)
    have : n + (k - 1 - (n - 1) % (k - 1)) - 1 = (k - 1) * ((n - 1) / (k - 1) + 1) := by
      rw [Nat.mul_add]; omega
    rw [this]; exact Nat.mul_mod_right _ _

/-- The number of merges, I = (L − 1)/(K − 1) (R110). -/
def mergeCount (n k : Nat) : Nat := (n + padCount n k - 1) / (k - 1)

theorem mergeCount_mul (n k : Nat) (hn : 1 ≤ n) (hk : 2 ≤ k) :
    n + padCount n k = mergeCount n k * (k - 1) + 1 := by
  have h1 := padCount_mod n k hn hk
  have h2 := Nat.div_add_mod (n + padCount n k - 1) (k - 1)
  unfold mergeCount
  rw [Nat.mul_comm]
  omega

theorem arena_bound (k : Nat) (hk : 2 ≤ k) (hk' : k ≤ 255) : (253 + k) / (k - 1) * k ≤ 510 := by
  have h : ∀ j < 254, (253 + (j + 2)) / ((j + 2) - 1) * (j + 2) ≤ 510 := by decide +kernel
  have := h (k - 2) (by omega)
  rwa [show k - 2 + 2 = k by omega] at this

/-- R111: L + I ≤ 511 for every n in 2..256 and K in 2..255. -/
theorem nodes_le (n k : Nat) (hn : 1 ≤ n) (hn' : n ≤ 256) (hk : 2 ≤ k) (hk' : k ≤ 255) :
    n + padCount n k + mergeCount n k ≤ 511 := by
  have h1 := mergeCount_mul n k hn hk
  have h2 := padCount_le n k hk
  have h3 : mergeCount n k ≤ (253 + k) / (k - 1) := by
    unfold mergeCount
    exact Nat.div_le_div_right (by omega)
  have h4 := arena_bound k hk hk'
  have h5 : mergeCount n k * k ≤ 510 := Nat.le_trans (Nat.mul_le_mul_right k h3) h4
  have h6 : mergeCount n k * k = mergeCount n k * (k - 1) + mergeCount n k := by
    obtain ⟨j, rfl⟩ : ∃ j, k = j + 1 := ⟨k - 1, by omega⟩
    rw [Nat.add_sub_cancel, Nat.mul_add, Nat.mul_one]
  omega

/-- R110, R288: at most 255 merges. -/
theorem mergeCount_le (n k : Nat) (hn' : n ≤ 256) (hk : 2 ≤ k) : mergeCount n k ≤ 255 := by
  have h2 := padCount_le n k hk
  rcases Nat.eq_zero_or_pos n with h0 | hn
  · subst h0
    unfold mergeCount
    exact Nat.le_trans (Nat.div_le_div_right (show 0 + padCount 0 k - 1 ≤ k - 1 by omega))
      (by rw [Nat.div_self (by omega)]; omega)
  · have h1 := mergeCount_mul n k hn hk
    by_contra hc
    rcases Nat.lt_or_ge k 3 with h | h
    · have : k = 2 := by omega
      subst this; omega
    · have : 256 * (k - 1) ≤ mergeCount n k * (k - 1) := Nat.mul_le_mul_right _ (by omega)
      omega

/-! ### The leaves (R103, R107) -/

/-- The leaves of a table and radix. -/
def startArena (k : BitVec 8) (freq : Vector Word32 256) (present : Vector Bool 256) : List Node :=
  realLeaves freq present ++ padLeaves (padCount (ndist present) k.toNat)

@[simp] theorem length_realLeaves (freq : Vector Word32 256) (present : Vector Bool 256) :
    (realLeaves freq present).length = ndist present := by simp [realLeaves, ndist]

@[simp] theorem length_padLeaves (p : Nat) : (padLeaves p).length = p := by simp [padLeaves]

@[simp] theorem length_startArena (k : BitVec 8) (freq : Vector Word32 256) (present : Vector Bool 256) :
    (startArena k freq present).length = ndist present + padCount (ndist present) k.toNat := by simp [startArena]

theorem mem_startArena {k : BitVec 8} {freq : Vector Word32 256} {present : Vector Bool 256} {n : Node}
    (h : n ∈ startArena k freq present) :
    (∃ x, symGet present x = true ∧ n = leafNode x (symGet freq x)) ∨
      ∃ j, j < padCount (ndist present) k.toNat ∧ n = padNode j := by
  rcases List.mem_append.mp h with h | h
  · obtain ⟨x, hx, rfl⟩ := List.mem_map.mp h
    exact .inl ⟨x, by simpa using hx, rfl⟩
  · obtain ⟨j, hj, rfl⟩ := List.mem_map.mp h
    exact .inr ⟨j, by simpa using hj, rfl⟩

@[simp] theorem leafNode_key (x : Sym) (f : Word32) : (leafNode x f).key.toNat = x.toNat := by
  have := x.isLt
  simp [leafNode]
  omega

@[simp] theorem leafNode_freq (x : Sym) (f : Word32) : (leafNode x f).freq.toNat = f.toNat := by
  have := f.isLt
  simp [leafNode]
  omega

theorem padNode_key (j : Nat) (h : j < 254) : (padNode j).key.toNat = 256 + j := by
  simp [padNode]; omega

@[simp] theorem padNode_freq (j : Nat) : (padNode j).freq.toNat = 0 := by simp [padNode]

theorem map_nodeAt_indices {β : Type} (f : Node → β) (a : List Node) (h : a.length ≤ 512) :
    (indices a.length).map (fun x => f (nodeAt a x)) = a.map f := by
  apply List.ext_getElem
  · simp
  · intro i h1 h2
    have hi : i < a.length := by simpa using h1
    have : i < 512 := by omega
    simp [indices, nodeAt, Nat.mod_eq_of_lt this, hi]

/-- The leaves, all live, are a forest to begin with. -/
theorem startForest {k : BitVec 8} {freq : Vector Word32 256} {present : Vector Bool 256} (hk : 2 ≤ k.toNat)
    (hn : 1 ≤ ndist present) :
    Forest k (ndist present + padCount (ndist present) k.toNat) (startArena k freq present)
      (indices (ndist present + padCount (ndist present) k.toNat)) := by
  have hp := padCount_le (ndist present) k.toNat hk
  have hn' := ndist_le present
  have hk' := k.isLt
  have hsize : (startArena k freq present).length ≤ 511 := by
    have := nodes_le (ndist present) k.toNat hn hn' hk (by omega)
    simp; omega
  have hlen := length_startArena k freq present
  have hch : ∀ n ∈ startArena k freq present, n.ch = [] ∧ n.kind ≠ .int := by
    intro n h
    rcases mem_startArena h with ⟨x, _, rfl⟩ | ⟨j, _, rfl⟩ <;> simp [leafNode, padNode]
  have hflat : (startArena k freq present).flatMap Node.ch = [] := by
    rw [List.flatMap_eq_nil_iff]
    exact fun n h => (hch n h).1
  constructor
  · rw [hflat, hlen]; simp
  · exact hsize
  · rw [hlen]
  · intro i n h _
    exact hch n (List.mem_of_getElem? h)
  · intro i n h hi
    have := (List.getElem?_eq_some_iff.mp h).1
    omega
  · rw [← hlen, map_nodeAt_indices (fun n => n.key.toNat) _ (by omega), startArena, List.map_append,
      List.nodup_append]
    refine ⟨?_, ?_, ?_⟩
    · rw [realLeaves, List.map_map, List.nodup_iff_pairwise_ne, List.pairwise_map]
      exact (presentSyms_pairwise_lt present).imp (fun h => by simp; omega)
    · rw [padLeaves, List.map_map, List.nodup_iff_pairwise_ne, List.pairwise_map]
      refine List.Pairwise.imp_of_mem ?_ (List.pairwise_lt_range (n := padCount (ndist present) k.toNat))
      intro a b ha hb h
      simp only [List.mem_range] at ha hb
      simp only [Function.comp_apply]
      rw [padNode_key a (by omega), padNode_key b (by omega)]
      omega
    · intro a ha b hb e
      simp only [List.mem_map, realLeaves, padLeaves, List.mem_range] at ha hb
      obtain ⟨_, ⟨x, _, rfl⟩, rfl⟩ := ha
      obtain ⟨_, ⟨j, hj, rfl⟩, rfl⟩ := hb
      rw [padNode_key j (by omega)] at e
      have := x.isLt
      simp at e
      omega
  · rw [← hlen, map_nodeAt_indices (fun n => n.freq.toNat) _ (by omega), startArena, List.map_append,
      List.sum_append]
    have h1 : ((padLeaves (padCount (ndist present) k.toNat)).map (fun n => n.freq.toNat)).sum = 0 := by
      rw [List.sum_eq_zero]
      intro a ha
      simp only [List.mem_map, padLeaves] at ha
      obtain ⟨_, ⟨j, _, rfl⟩, rfl⟩ := ha
      simp
    have h2 : ((realLeaves freq present).map (fun n => n.freq.toNat)).sum
        ≤ ((realLeaves freq present).map (fun n => n.freq.toNat)).length • (2 ^ 32 - 1) := by
      apply List.sum_le_card_nsmul
      intro a ha
      simp only [List.mem_map, realLeaves] at ha
      obtain ⟨_, ⟨x, _, rfl⟩, rfl⟩ := ha
      have := (symGet freq x).isLt
      simp; omega
    simp at h2
    omega

/-! ### The tree (R100) -/

/-- What BUILD makes of a table of n ≥ 2 entries (R103, R107, R109, R110, R111). -/
structure BuiltTree (k : BitVec 8) (freq : Vector Word32 256) (present : Vector Bool 256) (t : Tree) : Prop where
  start : startArena k freq present <+: t.node
  forest : Forest k (ndist present + padCount (ndist present) k.toNat) t.node [t.root]
  length : t.node.length =
    ndist present + padCount (ndist present) k.toNat + mergeCount (ndist present) k.toNat
  root : t.root.toNat + 1 = t.node.length
  nnodes : t.nnodes.toNat = t.node.length
  nleaf : t.nleaf.toNat = ndist present + padCount (ndist present) k.toNat
  npad : t.npad.toNat = padCount (ndist present) k.toNat

/-- R100 never meets an assert: with two entries or more it makes a tree. -/
theorem buildTree_many {k : BitVec 8} (freq : Vector Word32 256) {present : Vector Bool 256} (hk : 2 ≤ k.toNat)
    (hn : 2 ≤ ndist present) : ∃ t, buildTree k freq present = .ok t ∧ BuiltTree k freq present t := by
  have hk' := k.isLt
  have hn' := ndist_le present
  have hnodes := nodes_le (ndist present) k.toNat (by omega) hn' hk (by omega)
  have hmul := mergeCount_mul (ndist present) k.toNat (by omega) hk
  have hpad := padCount_le (ndist present) k.toNat hk
  have hlen := length_startArena k freq present
  have hle : mergeCount (ndist present) k.toNat * 1 ≤ mergeCount (ndist present) k.toNat * (k.toNat - 1) :=
    Nat.mul_le_mul_left _ (by omega)
  have hpos : 1 ≤ mergeCount (ndist present) k.toNat := by
    rcases Nat.eq_zero_or_pos (mergeCount (ndist present) k.toNat) with h | h
    · rw [h] at hmul; omega
    · exact h
  obtain ⟨arena, x, h1, h2, h3, h4, h5, -⟩ :=
    mergeLoop_spec hk (mergeCount (ndist present) k.toNat)
      (indices (ndist present + padCount (ndist present) k.toNat)).length _ _
      (startForest (freq := freq) (present := present) hk (by omega)) (by simpa using hmul)
      (by rw [length_indices]; omega) (by rw [hlen]; exact hnodes)
  have hroot := h5 hpos
  refine ⟨⟨arena, BitVec.ofNat 10 arena.length,
    BitVec.ofNat 10 (ndist present + padCount (ndist present) k.toNat),
    BitVec.ofNat 8 (padCount (ndist present) k.toNat), x⟩, ?_, ⟨h3, h2, by rw [h4, hlen], hroot, ?_, ?_, ?_⟩⟩
  · unfold buildTree
    rw [if_neg (by omega), if_neg (by omega)]
    have : realLeaves freq present ++ padLeaves (padCount (ndist present) k.toNat) = startArena k freq present := rfl
    simp only [this]
    have h6 : (List.range (startArena k freq present).length).map (BitVec.ofNat 9) =
        indices (ndist present + padCount (ndist present) k.toNat) := by rw [hlen]; rfl
    rw [h6, h1]
  · simp; omega
  · simp; omega
  · simp; omega

/-- R105: an empty table gives no tree. -/
theorem buildTree_none (k : BitVec 8) (freq : Vector Word32 256) {present : Vector Bool 256} (h : ndist present = 0) :
    buildTree k freq present = .ok ⟨[], 0#10, 0#10, 0#8, Config.nil⟩ := by
  simp [buildTree, h]

/-- R106: a single entry is the root. -/
theorem buildTree_one (k : BitVec 8) (freq : Vector Word32 256) {present : Vector Bool 256} (h : ndist present = 1) :
    buildTree k freq present = .ok ⟨realLeaves freq present, 1#10, 1#10, 0#8, 0#9⟩ := by
  simp [buildTree, h]

/-- BUILD's tree exists for every table and every legal radix: no assert of R100 fails. -/
theorem buildTree_total {k : BitVec 8} (freq : Vector Word32 256) (present : Vector Bool 256) (hk : 2 ≤ k.toNat) :
    ∃ t, buildTree k freq present = .ok t := by
  rcases Nat.lt_or_ge (ndist present) 2 with h | h
  · rcases (by omega : ndist present = 0 ∨ ndist present = 1) with h | h
    · exact ⟨_, buildTree_none k freq h⟩
    · exact ⟨_, buildTree_one k freq h⟩
  · obtain ⟨t, ht, _⟩ := buildTree_many freq hk h
    exact ⟨t, ht⟩

/-! ### The tree of a table with an entry or more -/

/-- R106 as R103 has it: what BUILD makes of a table of n ≥ 1 entries. -/
theorem builtTree_of_ok {k : BitVec 8} {freq : Vector Word32 256} {present : Vector Bool 256} {t : Tree}
    (hk : 2 ≤ k.toNat) (hn : 1 ≤ ndist present) (h : buildTree k freq present = .ok t) : BuiltTree k freq present t := by
  rcases Nat.lt_or_ge (ndist present) 2 with h2 | h2
  · have h1 : ndist present = 1 := by omega
    rw [buildTree_one k freq h1] at h
    injection h with h
    have hp : padCount (ndist present) k.toNat = 0 := by rw [h1]; simp [padCount]
    have F := startForest (freq := freq) hk hn
    have hs : startArena k freq present = realLeaves freq present := by simp [startArena, hp, padLeaves]
    have hi : indices (1 + 0) = [0#9] := by decide
    have hm := mergeCount_mul (ndist present) k.toNat hn hk
    rw [hp, h1] at hm
    have hm0 : mergeCount 1 k.toNat = 0 := by
      rcases mul_eq_zero.mp (show mergeCount 1 k.toNat * (k.toNat - 1) = 0 by omega) with h | h
      · exact h
      · omega
    clear hm
    subst h
    constructor
    · rw [hs]
    · rw [hp, h1, hs, hi] at F; rw [hp, h1]; exact F
    · simp [h1] at *; rw [hp, hm0]
    · simp [h1]
    · simp [h1]
    · simp [h1] at *; rw [hp]
    · simp [h1] at *; rw [hp]
  · obtain ⟨t', ht', B⟩ := buildTree_many freq hk h2
    rw [h] at ht'
    injection ht' with ht'
    subst ht'
    exact B

theorem startArena_kind {k : BitVec 8} {freq : Vector Word32 256} {present : Vector Bool 256} {n : Node}
    (h : n ∈ startArena k freq present) : n.kind = .leaf ∨ n.kind = .pad := by
  rcases mem_startArena h with ⟨x, _, rfl⟩ | ⟨j, _, rfl⟩
  · exact .inl rfl
  · exact .inr rfl

/-- The leaves keep their places (R103, R107). -/
theorem BuiltTree.at {k : BitVec 8} {freq : Vector Word32 256} {present : Vector Bool 256} {t : Tree}
    (B : BuiltTree k freq present t) {i : Nat} (hi : i < (startArena k freq present).length) :
    nodeAt t.node (BitVec.ofNat 9 i) = (startArena k freq present)[i] := by
  have := B.forest.size
  have hle := B.start.length_le
  obtain ⟨b, hb⟩ := B.start
  apply nodeAt_of_getElem?
  rw [← hb]
  have : (BitVec.ofNat 9 i).toNat = i := by simp; omega
  rw [this, List.getElem?_append_left hi]
  simp

/-- A node of BUILD's arena is a real leaf, a padding leaf, an internal node, or not in use. -/
theorem BuiltTree.cases {k : BitVec 8} {freq : Vector Word32 256} {present : Vector Bool 256} {t : Tree}
    (B : BuiltTree k freq present t) (x : NodeIdx) :
    (∃ y, symGet present y = true ∧ nodeAt t.node x = leafNode y (symGet freq y)) ∨
      (∃ j, j < padCount (ndist present) k.toNat ∧ nodeAt t.node x = padNode j) ∨
      ((nodeAt t.node x).kind = .int ∧ InternalOk k t.node x.toNat (nodeAt t.node x)) ∨
      (nodeAt t.node x = Node.free ∧ t.node.length ≤ x.toNat) := by
  rcases Nat.lt_or_ge x.toNat t.node.length with hlt | hge
  · rcases Nat.lt_or_ge x.toNat (ndist present + padCount (ndist present) k.toNat) with hL | hL
    · have hl : x.toNat < (startArena k freq present).length := by simpa using hL
      have he : nodeAt t.node x = (startArena k freq present)[x.toNat] := by
        have := B.at hl
        simpa using this
      rcases mem_startArena (k := k) (freq := freq) (present := present) (List.getElem_mem hl) with h | h
      · rw [he]; exact .inl h
      · rw [he]; exact .inr (.inl h)
    · have hok : InternalOk k t.node x.toNat (nodeAt t.node x) :=
        B.forest.ints x.toNat _ (by simp [nodeAt, hlt]) hL
      exact .inr (.inr (.inl ⟨hok.kind, hok⟩))
  · exact .inr (.inr (.inr ⟨nodeAt_of_le _ _ hge, hge⟩))

/-! ### The canonical form of the arena -/

@[simp] theorem Arena.wf_nil : Arena.wf [] = true := rfl

/-- BUILD's arena is in canonical form, and NNODES counts it (R33). -/
theorem buildTree_wf {k : BitVec 8} {freq : Vector Word32 256} {present : Vector Bool 256} {t : Tree}
    (hk : 2 ≤ k.toNat) (h : buildTree k freq present = .ok t) :
    t.nnodes.toNat = t.node.length ∧ Arena.wf t.node = true := by
  rcases Nat.eq_zero_or_pos (ndist present) with h0 | hn
  · rw [buildTree_none k freq h0] at h
    injection h with h
    subst h
    exact ⟨rfl, rfl⟩
  · have B := builtTree_of_ok hk hn h
    refine ⟨B.nnodes, ?_⟩
    have hs := B.forest.size
    simp only [Arena.wf, Bool.and_eq_true, decide_eq_true_eq, List.all_eq_true]
    refine ⟨hs, fun n hn => ?_⟩
    obtain ⟨i, hi, rfl⟩ := List.getElem_of_mem hn
    have hi9 : (BitVec.ofNat 9 i).toNat = i := by simp; omega
    have hn : nodeAt t.node (BitVec.ofNat 9 i) = t.node[i] := nodeAt_of_getElem? (by rw [hi9]; simp)
    rw [← hn]
    rcases B.cases (BitVec.ofNat 9 i) with ⟨y, _, h⟩ | ⟨j, _, h⟩ | ⟨h, _⟩ | ⟨_, h⟩
    · rw [h]; simp [leafNode]
    · rw [h]; simp [padNode]
    · rw [h]; decide
    · omega

end Sys2Proof.Machine
end

