-- ==== Sys2Proof/Laws/Code.lean ====
section
/-! SUPPORT. Laws of walks in the tree and of the code generator (spec/42_code_table.md R120, R121, R122;
spec/41_tree_builder.md R113, R114). -/

namespace Sys2Proof.Machine

/-! ### Paths -/

/-- Where a path leads is determined (R82: a code ends when the walk reaches a leaf). -/
theorem leadsTo_unique {arena : List Node} {k : Nat} {x y z : NodeIdx} {p : List Byte}
    (h1 : leadsTo arena k x p y) (h2 : leadsTo arena k x p z) : y = z := by
  induction p generalizing x with
  | nil => exact h1.symm.trans h2
  | cons d p ih => exact ih h1.2.2 h2.2.2

theorem leadsTo_append {arena : List Node} {k : Nat} {x z : NodeIdx} {p q : List Byte} :
    leadsTo arena k x (p ++ q) z ↔ ∃ y, leadsTo arena k x p y ∧ leadsTo arena k y q z := by
  induction p generalizing x with
  | nil => simp [leadsTo]
  | cons d p ih =>
    simp only [List.cons_append, leadsTo, ih]
    constructor
    · rintro ⟨h1, h2, y, h3, h4⟩; exact ⟨y, ⟨h1, h2, h3⟩, h4⟩
    · rintro ⟨y, ⟨h1, h2, h3⟩, h4⟩; exact ⟨h1, h2, y, h3, h4⟩

/-- From a node that is not internal no digit leads on (R124: "leaves have no children"). -/
theorem leadsTo_leaf {arena : List Node} {k : Nat} {x y : NodeIdx} {p : List Byte}
    (hx : (nodeAt arena x).kind ≠ NodeKind.int) (h : leadsTo arena k x p y) : p = [] ∧ x = y := by
  cases p with
  | nil => exact ⟨rfl, h⟩
  | cons d p => exact absurd h.1 hx

/-! ### In a forest -/

theorem Forest.internal {k L arena q} (F : Forest k L arena q) {x : NodeIdx}
    (h : (nodeAt arena x).kind = NodeKind.int) :
    L ≤ x.toNat ∧ x.toNat < arena.length ∧ InternalOk k arena x.toNat (nodeAt arena x) := by
  rcases Nat.lt_or_ge x.toNat arena.length with hx | hx
  · have hg : arena[x.toNat]? = some (nodeAt arena x) := by simp [nodeAt, hx]
    rcases Nat.lt_or_ge x.toNat L with hL | hL
    · exact absurd h (F.leaves _ _ hg hL).2
    · exact ⟨hL, hx, F.ints _ _ hg hL⟩
  · rw [nodeAt_of_le _ _ hx] at h; simp [Node.free] at h

theorem Forest.child {k L arena q} (F : Forest k L arena q) {x : NodeIdx}
    (h : (nodeAt arena x).kind = NodeKind.int) {i : Nat} (hi : i < k.toNat) :
    (nodeAt arena x).child i ∈ (nodeAt arena x).ch ∧ ((nodeAt arena x).child i).toNat < x.toNat := by
  obtain ⟨_, _, hok⟩ := F.internal h
  have hlen : i < (nodeAt arena x).ch.length := by rw [hok.count]; exact hi
  have hm : (nodeAt arena x).child i ∈ (nodeAt arena x).ch := by simp [Node.child, hlen]
  exact ⟨hm, hok.older _ hm⟩

/-- R114: along a path the indices fall, so a path is at most as long as there are internal nodes. -/
theorem Forest.path_length {k L arena q} (F : Forest k L arena q) {x y : NodeIdx} {p : List Byte}
    (h : leadsTo arena k.toNat x p y) : p.length ≤ x.toNat + 1 - L ∧ y.toNat ≤ x.toNat := by
  induction p generalizing x with
  | nil => exact ⟨Nat.zero_le _, by rw [h]⟩
  | cons d p ih =>
    obtain ⟨h1, h2, h3⟩ := h
    obtain ⟨hL, _, _⟩ := F.internal h1
    have hc := (F.child h1 h2).2
    have := ih h3
    refine ⟨?_, by omega⟩
    rw [List.length_cons]; omega

/-- Every node is reached from the root (R113: one root, nothing left over). -/
theorem Forest.reach {k L arena root} (F : Forest k L arena [root]) {y : NodeIdx} (hy : y.toNat < arena.length) :
    ∃ p, leadsTo arena k.toNat root p y := by
  obtain ⟨m, hm⟩ : ∃ m, arena.length - y.toNat ≤ m := ⟨_, Nat.le_refl _⟩
  induction m generalizing y with
  | zero => omega
  | succ m ih =>
    have hs := F.size
    have hmem : y ∈ [root] ++ arena.flatMap Node.ch := F.perm.symm.subset ((mem_indices (by omega) y).mpr hy)
    rcases List.mem_append.mp hmem with h | h
    · rw [List.mem_singleton] at h; subst h; exact ⟨[], rfl⟩
    · obtain ⟨n, hn, hc⟩ := List.mem_flatMap.mp h
      obtain ⟨i, hi, hin⟩ := List.getElem_of_mem hn
      have hg : arena[i]? = some n := by rw [← hin]; exact List.getElem?_eq_getElem hi
      have hL : L ≤ i := by
        by_contra hlt
        have := (F.leaves i n hg (by omega)).1
        rw [this] at hc; simp at hc
      have hok := F.ints i n hg hL
      have hyi := hok.older y hc
      have hxi : (BitVec.ofNat 9 i).toNat = i := by simp; omega
      have hnode : nodeAt arena (BitVec.ofNat 9 i) = n := nodeAt_of_getElem? (by rw [hxi]; exact hg)
      obtain ⟨p, hp⟩ := ih (y := BitVec.ofNat 9 i) (by rw [hxi]; exact hi) (by rw [hxi]; omega)
      obtain ⟨j, hj, hjy⟩ := List.getElem_of_mem hc
      have hk := k.isLt
      have hjk : j < k.toNat := by rw [← hok.count]; exact hj
      refine ⟨p ++ [BitVec.ofNat 8 j], leadsTo_append.mpr ⟨_, hp, ?_⟩⟩
      have hj8 : (BitVec.ofNat 8 j).toNat = j := by simp; omega
      simp only [leadsTo, hnode, hj8]
      exact ⟨hok.kind, hjk, by simp [Node.child, hj, hjy]⟩

/-! ### Walk (R120) -/

/-- What a walk from node x at `path` does to the ROM: an entry is left alone or gets a path from x to its leaf. -/
def RomStep (arena : List Node) (good : List Byte → NodeIdx → Prop) (r r' : CodeRom) : Prop :=
  ∀ s : Sym,
    (symGet r'.cvalid s = symGet r.cvalid s ∧ symGet r'.clen s = symGet r.clen s ∧ symGet r'.cdig s = symGet r.cdig s) ∨
    ∃ p y, good p y ∧ (nodeAt arena y).kind = NodeKind.leaf ∧ (nodeAt arena y).sym = s ∧
      symGet r'.cvalid s = true ∧ symGet r'.cdig s = p ∧ symGet r'.clen s = BitVec.ofNat 8 p.length

theorem RomStep.refl (arena : List Node) (good) (r : CodeRom) : RomStep arena good r r :=
  fun _ => .inl ⟨rfl, rfl, rfl⟩

theorem RomStep.trans {arena : List Node} {good} {r r' r'' : CodeRom}
    (h1 : RomStep arena good r r') (h2 : RomStep arena good r' r'') : RomStep arena good r r'' := by
  intro s
  rcases h2 s with ⟨a, b, c⟩ | h
  · rcases h1 s with ⟨a', b', c'⟩ | ⟨p, y, hp, h3, h4, h5, h6, h7⟩
    · exact .inl ⟨a.trans a', b.trans b', c.trans c'⟩
    · exact .inr ⟨p, y, hp, h3, h4, a.trans h5, c.trans h6, b.trans h7⟩
  · exact .inr h

theorem RomStep.mono {arena : List Node} {good good' : List Byte → NodeIdx → Prop} {r r' : CodeRom}
    (h : RomStep arena good r r') (hg : ∀ p y, good p y → good' p y) : RomStep arena good' r r' := by
  intro s
  rcases h s with h | ⟨p, y, hp, h⟩
  · exact .inl h
  · exact .inr ⟨p, y, hg p y hp, h⟩

theorem RomStep.valid {arena : List Node} {good} {r r' : CodeRom} (h : RomStep arena good r r') {s : Sym}
    (hs : symGet r.cvalid s = true) : symGet r'.cvalid s = true := by
  rcases h s with ⟨a, _⟩ | ⟨p, y, _, _, _, h5, _⟩
  · rw [a]; exact hs
  · exact h5

/-- The fold over the children of one internal node. -/
theorem foldWalk {arena : List Node} {good} (f : CodeRom → Nat → Except Fault CodeRom)
    (leafOf : Nat → Sym → Prop) (is : List Nat)
    (hf : ∀ i ∈ is, ∀ r, ∃ r', f r i = .ok r' ∧ RomStep arena good r r' ∧
      ∀ s, leafOf i s → symGet r'.cvalid s = true) :
    ∀ r, ∃ r', is.foldlM f r = .ok r' ∧ RomStep arena good r r' ∧
      ∀ i ∈ is, ∀ s, leafOf i s → symGet r'.cvalid s = true := by
  induction is with
  | nil => exact fun r => ⟨r, rfl, RomStep.refl _ _ _, by simp⟩
  | cons i is ih =>
    intro r
    obtain ⟨r1, h1, h2, h3⟩ := hf i (by simp) r
    obtain ⟨r2, h4, h5, h6⟩ := ih (fun j hj => hf j (List.mem_cons_of_mem _ hj)) r1
    refine ⟨r2, ?_, h2.trans h5, ?_⟩
    · rw [List.foldlM_cons, h1]; exact h4
    · intro j hj s hs
      rcases List.mem_cons.mp hj with rfl | hj
      · exact h5.valid (h3 s hs)
      · exact h6 j hj s hs

/-- Walk in a forest ends (R114), writes only root-to-leaf paths (R121), and reaches every leaf below (R122). -/
theorem walk_spec {k : BitVec 8} {L : Nat} {arena : List Node} {q : List NodeIdx} (F : Forest k L arena q) :
    ∀ (room : Nat) (x : NodeIdx) (path : List Byte) (r : CodeRom), x.toNat + 1 - L < room →
      ∃ r', walk arena k.toNat room x path r = .ok r' ∧
        RomStep arena (fun p y => ∃ p', p = path ++ p' ∧ leadsTo arena k.toNat x p' y) r r' ∧
        ∀ p y, leadsTo arena k.toNat x p y → (nodeAt arena y).kind = NodeKind.leaf →
          symGet r'.cvalid (nodeAt arena y).sym = true := by
  intro room
  induction room with
  | zero => intro x path r h; omega
  | succ room ih =>
    intro x path r hroom
    rw [walk]
    cases hkind : (nodeAt arena x).kind with
    | leaf =>
      refine ⟨_, rfl, ?_, ?_⟩
      · intro s
        by_cases hs : s = (nodeAt arena x).sym
        · subst hs
          exact .inr ⟨path, x, ⟨[], by simp, rfl⟩, hkind, rfl, by simp [CodeRom.put], by simp [CodeRom.put],
            by simp [CodeRom.put]⟩
        · exact .inl ⟨by simp [CodeRom.put, symGet_symSet, hs], by simp [CodeRom.put, symGet_symSet, hs],
            by simp [CodeRom.put, symGet_symSet, hs]⟩
      · intro p y hp _
        obtain ⟨_, rfl⟩ := leadsTo_leaf (by rw [hkind]; simp) hp
        simp [CodeRom.put]
    | pad =>
      refine ⟨r, rfl, RomStep.refl _ _ _, ?_⟩
      intro p y hp hy
      obtain ⟨_, rfl⟩ := leadsTo_leaf (by rw [hkind]; simp) hp
      rw [hkind] at hy; simp at hy
    | free =>
      refine ⟨r, rfl, RomStep.refl _ _ _, ?_⟩
      intro p y hp hy
      obtain ⟨_, rfl⟩ := leadsTo_leaf (by rw [hkind]; simp) hp
      rw [hkind] at hy; simp at hy
    | int =>
      have hL := (F.internal hkind).1
      obtain ⟨r', h1, h2, h3⟩ := foldWalk (arena := arena)
        (good := fun p y => ∃ p', p = path ++ p' ∧ leadsTo arena k.toNat x p' y)
        (fun r i => walk arena k.toNat room ((nodeAt arena x).child i) (path ++ [BitVec.ofNat 8 i]) r)
        (fun i s => ∃ p y, leadsTo arena k.toNat ((nodeAt arena x).child i) p y ∧
          (nodeAt arena y).kind = NodeKind.leaf ∧ (nodeAt arena y).sym = s)
        (List.range k.toNat)
        (by
          intro i hi r
          rw [List.mem_range] at hi
          have hk := k.isLt
          have hc := (F.child hkind hi).2
          have hi8 : (BitVec.ofNat 8 i).toNat = i := by simp; omega
          obtain ⟨r', h1, h2, h3⟩ := ih ((nodeAt arena x).child i) (path ++ [BitVec.ofNat 8 i]) r (by omega)
          refine ⟨r', h1, h2.mono ?_, ?_⟩
          · rintro p y ⟨p', rfl, hp'⟩
            exact ⟨BitVec.ofNat 8 i :: p', by simp, hkind, by rw [hi8]; exact hi, by rw [hi8]; exact hp'⟩
          · rintro s ⟨p, y, hp, hy, rfl⟩
            exact h3 p y hp hy)
        r
      refine ⟨r', h1, h2, ?_⟩
      intro p y hp hy
      cases p with
      | nil => rw [← show x = y from hp, hkind] at hy; simp at hy
      | cons d p => exact h3 d.toNat (by rw [List.mem_range]; exact hp.2.1) _ ⟨p, y, hp.2.2, hy, rfl⟩

/-! ### BUILD's tree and GEN's codes together -/

/-- What every non-empty tree of BUILD offers its readers. -/
structure TreeFacts (k : BitVec 8) (freq : Vector Word32 256) (present : Vector Bool 256) (t : Tree) : Prop where
  forest : ∃ L, Forest k L t.node [t.root] ∧ t.root.toNat + 1 - L ≤ 255
  root : t.root.toNat + 1 = t.node.length
  bound : t.node.length ≤ 511
  onlyPresent : ∀ y : NodeIdx, (nodeAt t.node y).kind = NodeKind.leaf →
    ∃ x, symGet present x = true ∧ nodeAt t.node y = leafNode x (symGet freq x)
  allPresent : ∀ x, symGet present x = true →
    ∃ y : NodeIdx, y.toNat < t.node.length ∧ nodeAt t.node y = leafNode x (symGet freq x)

theorem startArena_present {k : BitVec 8} {freq : Vector Word32 256} {present : Vector Bool 256} {a : List Node}
    (h : startArena k freq present <+: a) (ha : a.length ≤ 511) {x : Sym} (hx : symGet present x = true) :
    ∃ y : NodeIdx, y.toNat < a.length ∧ nodeAt a y = leafNode x (symGet freq x) := by
  have hm : leafNode x (symGet freq x) ∈ startArena k freq present :=
    List.mem_append_left _ (List.mem_map.mpr ⟨x, by simpa using hx, rfl⟩)
  obtain ⟨i, hi, hin⟩ := List.getElem_of_mem hm
  have hle := h.length_le
  have hi9 : (BitVec.ofNat 9 i).toNat = i := by simp; omega
  refine ⟨BitVec.ofNat 9 i, by omega, nodeAt_of_getElem? ?_⟩
  obtain ⟨b, rfl⟩ := h
  rw [hi9, List.getElem?_append_left hi, List.getElem?_eq_getElem hi, hin]

theorem ndist_pos {present : Vector Bool 256} {x : Sym} (h : symGet present x = true) : 1 ≤ ndist present := by
  have hm : x ∈ presentSyms present := by simpa using h
  exact List.length_pos_of_mem hm

theorem buildTree_facts {k : BitVec 8} {freq : Vector Word32 256} {present : Vector Bool 256} {t : Tree}
    (hk : 2 ≤ k.toNat) (hn : 1 ≤ ndist present) (h : buildTree k freq present = .ok t) :
    TreeFacts k freq present t := by
  have key : ∀ L, Forest k L t.node [t.root] → L = ndist present + padCount (ndist present) k.toNat →
      startArena k freq present <+: t.node → t.root.toNat + 1 = t.node.length →
      t.node.length - L ≤ 255 → TreeFacts k freq present t := by
    intro L F hL hs hr hI
    refine ⟨⟨L, F, by omega⟩, hr, F.size, ?_, fun x hx => startArena_present hs F.size hx⟩
    intro y hy
    rcases Nat.lt_or_ge y.toNat t.node.length with hlt | hge
    · rcases Nat.lt_or_ge y.toNat L with hyL | hyL
      · have hys : y.toNat < (startArena k freq present).length := by simp; omega
        obtain ⟨b, hb⟩ := hs
        have hnode : nodeAt t.node y = nodeAt (startArena k freq present) y := by
          rw [← hb]; exact nodeAt_append_left _ _ _ hys
        rcases mem_startArena (nodeAt_mem hys) with ⟨x, hx, he⟩ | ⟨j, _, he⟩
        · exact ⟨x, hx, hnode.trans he⟩
        · rw [hnode, he] at hy; simp [padNode] at hy
      · have := (F.ints y.toNat _ (by simp [nodeAt, hlt]) hyL : InternalOk k t.node y.toNat (nodeAt t.node y)).kind
        rw [this] at hy; simp at hy
    · rw [nodeAt_of_le _ _ hge] at hy; simp [Node.free] at hy
  rcases Nat.lt_or_ge (ndist present) 2 with h2 | h2
  · have h1 : ndist present = 1 := by omega
    rw [buildTree_one k freq h1] at h
    injection h with h
    have hp : padCount (ndist present) k.toNat = 0 := by rw [h1]; simp [padCount]
    have F := startForest (freq := freq) hk hn
    have hs : startArena k freq present = realLeaves freq present := by simp [startArena, hp, padLeaves]
    rw [hp, h1, hs] at F
    subst h
    have hi : indices (1 + 0) = [0#9] := by decide
    rw [hi] at F
    refine key (1 + 0) F (by rw [hp, h1]) (by rw [hs]) (by simp [h1]) (by simp [h1])
  · obtain ⟨t', ht', B⟩ := buildTree_many freq hk h2
    rw [h] at ht'
    injection ht' with ht'
    subst ht'
    have := mergeCount_le (ndist present) k.toNat (ndist_le present) hk
    refine key _ B.forest rfl B.start B.root ?_
    rw [B.length]; omega

/-- What GEN leaves in the ROM for a tree of BUILD (R121, R122, R123, R125). -/
structure CodesOk (k : BitVec 8) (present : Vector Bool 256) (t : Tree) (r : CodeRom) : Prop where
  valid : ∀ x, symGet r.cvalid x = symGet present x
  path : ∀ x, symGet r.cvalid x = true → ∃ y, leadsTo t.node k.toNat t.root (symGet r.cdig x) y ∧
    (nodeAt t.node y).kind = NodeKind.leaf ∧ (nodeAt t.node y).sym = x ∧
    (symGet r.cdig x).length ≤ 255 ∧ symGet r.clen x = BitVec.ofNat 8 (symGet r.cdig x).length
  none : ∀ x, symGet r.cvalid x = false → symGet r.clen x = 0#8 ∧ symGet r.cdig x = []

/-- GEN after BUILD ends for every table and legal radix (R114) and writes the codes of the tree. -/
theorem genCodes_spec {k : BitVec 8} {freq : Vector Word32 256} {present : Vector Bool 256} {t : Tree}
    (hk : 2 ≤ k.toNat) (h : buildTree k freq present = .ok t) :
    ∃ r, genCodes k t.node t.root = .ok r ∧ CodesOk k present t r := by
  rcases Nat.eq_zero_or_pos (ndist present) with h0 | hn
  · rw [buildTree_none k freq h0] at h
    injection h with h
    subst h
    refine ⟨CodeRom.clear, by simp [genCodes], ?_, ?_, ?_⟩
    · intro x
      have : symGet present x ≠ true := fun hx => by have := ndist_pos hx; omega
      simp [CodeRom.clear, this]
    · intro x hx; simp [CodeRom.clear] at hx
    · intro x _; simp [CodeRom.clear]
  · have T := buildTree_facts hk hn h
    obtain ⟨L, F, hd⟩ := T.forest
    have hnil : t.root ≠ Config.nil := by
      intro e
      have h1 := T.root
      have h2 := T.bound
      rw [e] at h1; simp [Config.nil] at h1; omega
    obtain ⟨r, h1, h2, h3⟩ := walk_spec F (Config.maxLen + 1) t.root [] CodeRom.clear
      (by simp [Config.maxLen]; omega)
    refine ⟨r, by simp [genCodes, hnil, h1], ?_, ?_, ?_⟩
    · intro x
      cases hx : symGet present x with
      | true =>
        obtain ⟨y, hy, hnode⟩ := T.allPresent x hx
        obtain ⟨p, hp⟩ := F.reach hy
        have := h3 p y hp (by rw [hnode]; rfl)
        rwa [hnode] at this
      | false =>
        rcases h2 x with ⟨a, _, _⟩ | ⟨p, y, _, hy, hs, _⟩
        · rw [a]; simp [CodeRom.clear]
        · obtain ⟨x', hx', hnode⟩ := T.onlyPresent y hy
          rw [hnode] at hs
          rw [show x' = x from hs] at hx'
          rw [hx] at hx'; simp at hx'
    · intro x hx
      rcases h2 x with ⟨a, _, _⟩ | ⟨p, y, ⟨p', hp', hlead⟩, hy, hs, _, hdig, hlen⟩
      · rw [a] at hx; simp [CodeRom.clear] at hx
      · have e : p = p' := by simpa using hp'
        subst e
        refine ⟨y, by rw [hdig]; exact hlead, hy, hs, ?_, by rw [hlen, hdig]⟩
        have := (F.path_length hlead).1
        rw [hdig]; omega
    · intro x hx
      rcases h2 x with ⟨_, b, c⟩ | ⟨p, y, _, _, _, hv, _⟩
      · rw [b, c]; simp [CodeRom.clear]
      · rw [hx] at hv; simp at hv

/-! ### What the invariant says of the tree and the codes -/

theorem codeOf_eq {s : State} {x : Sym} (h : (symGet s.cdig x).length = (symGet s.clen x).toNat) :
    codeOf s x = symGet s.cdig x := by
  unfold codeOf
  rw [← h]
  apply List.ext_getElem
  · simp
  · intro i h1 h2
    simp only [List.getElem_map, List.getElem_range, digitAt]
    rw [List.getElem?_eq_getElem h2]
    rfl

/-- R27: a valid tree is BUILD's, for a legal radix. -/
theorem Inv.tree_ok {s : State} (I : Inv s) (hv : s.treeValid = true) :
    2 ≤ s.k.toNat ∧ buildTree s.k s.freq s.present = .ok ⟨s.node, s.nnodes, s.nleaf, s.npad, s.root⟩ := by
  obtain ⟨hk, ht⟩ := I.tree hv
  exact ⟨by simp [BitVec.le_def] at hk; exact hk, ht⟩

/-- R27: valid codes are GEN's, for a valid tree. -/
theorem Inv.codes_ok {s : State} (I : Inv s) (hc : s.codeValid = true) :
    2 ≤ s.k.toNat ∧ s.treeValid = true ∧
      buildTree s.k s.freq s.present = .ok ⟨s.node, s.nnodes, s.nleaf, s.npad, s.root⟩ ∧
      CodesOk s.k s.present ⟨s.node, s.nnodes, s.nleaf, s.npad, s.root⟩ ⟨s.cvalid, s.clen, s.cdig⟩ := by
  obtain ⟨hv, hg⟩ := I.codes hc
  obtain ⟨hk, ht⟩ := I.tree_ok hv
  obtain ⟨r, hr, C⟩ := genCodes_spec hk ht
  have e : r = ⟨s.cvalid, s.clen, s.cdig⟩ := by
    have hr : genCodes s.k s.node s.root = .ok r := hr
    rw [hg] at hr
    injection hr with hr
    exact hr.symm
  subst e
  exact ⟨hk, hv, ht, C⟩

/-- A code in the ROM leads from the root to its symbol's leaf (R121). -/
theorem Inv.code_path {s : State} (I : Inv s) (hc : s.codeValid = true) {x : Sym} (hx : symGet s.cvalid x = true) :
    isCodeFor s (codeOf s) x := by
  obtain ⟨_, _, _, C⟩ := I.codes_ok hc
  obtain ⟨y, h1, h2, h3, _⟩ := C.path x hx
  exact ⟨y, by rw [codeOf_eq (I.rom x).1]; exact h1, h2, h3⟩

end Sys2Proof.Machine
end

