-- ==== Sys2Proof/Laws/Decode.lean ====
section
/-! SUPPORT. Laws of the command word's fields and of the opcode map (spec/30_encoding.md R70, R72, R73). -/

namespace Sys2Proof

/-! ### The fields of an assembled word -/

/-- The bits of an assembled word, field by field (R70). -/
theorem getLsbD_word (a32 : BitVec 32) (r : BitVec 16) (a8 o : BitVec 8) (i : Nat) :
    BitVec.getLsbD (w := 64) (a32 ++ r ++ a8 ++ o) i =
      if i < 8 then o.getLsbD i else if i < 16 then a8.getLsbD (i - 8)
      else if i < 32 then r.getLsbD (i - 16) else a32.getLsbD (i - 32) := by
  have h : BitVec.getLsbD (w := 32 + 16 + 8 + 8) (a32 ++ r ++ a8 ++ o) i = _ := BitVec.getLsbD_append
  refine h.trans ?_
  rw [BitVec.getLsbD_append, BitVec.getLsbD_append]
  by_cases h1 : i < 8
  · simp [h1]
  · by_cases h2 : i < 16
    · simp [h1, h2, show i - 8 < 8 by omega]
    · by_cases h3 : i < 32
      · simp [h1, h2, h3, show ¬ i - 8 < 8 by omega, show i - 16 < 16 by omega, show i - 8 - 8 = i - 16 by omega]
      · simp [h1, h2, h3, show ¬ i - 8 < 8 by omega, show ¬ i - 8 - 8 < 16 by omega,
          show i - 8 - 8 - 16 = i - 32 by omega]

theorem Cmd.opc_word (a32 : BitVec 32) (r : BitVec 16) (a8 o : BitVec 8) : Cmd.opc (a32 ++ r ++ a8 ++ o) = o := by
  apply BitVec.eq_of_getLsbD_eq
  intro i hi
  rw [Cmd.opc, BitVec.getLsbD_extractLsb', getLsbD_word]
  simp [hi]

theorem Cmd.a8_word (a32 : BitVec 32) (r : BitVec 16) (a8 o : BitVec 8) : Cmd.a8 (a32 ++ r ++ a8 ++ o) = a8 := by
  apply BitVec.eq_of_getLsbD_eq
  intro i hi
  rw [Cmd.a8, BitVec.getLsbD_extractLsb', getLsbD_word]
  simp [hi, show ¬ 8 + i < 8 by omega, show 8 + i < 16 by omega]

theorem Cmd.rsvd_word (a32 : BitVec 32) (r : BitVec 16) (a8 o : BitVec 8) : Cmd.rsvd (a32 ++ r ++ a8 ++ o) = r := by
  apply BitVec.eq_of_getLsbD_eq
  intro i hi
  rw [Cmd.rsvd, BitVec.getLsbD_extractLsb', getLsbD_word]
  simp [hi, show ¬ 16 + i < 8 by omega, show ¬ 16 + i < 16 by omega, show 16 + i < 32 by omega]

theorem Cmd.a32_word (a32 : BitVec 32) (r : BitVec 16) (a8 o : BitVec 8) : Cmd.a32 (a32 ++ r ++ a8 ++ o) = a32 := by
  apply BitVec.eq_of_getLsbD_eq
  intro i hi
  rw [Cmd.a32, BitVec.getLsbD_extractLsb', getLsbD_word]
  simp [hi, show ¬ 32 + i < 8 by omega, show ¬ 32 + i < 16 by omega, show ¬ 32 + i < 32 by omega]

/-- A word is its four fields. -/
theorem Cmd.word_eq (c : CmdWord) : c = Cmd.a32 c ++ Cmd.rsvd c ++ Cmd.a8 c ++ Cmd.opc c := by
  apply BitVec.eq_of_getLsbD_eq
  intro i hi
  refine Eq.trans ?_ (getLsbD_word _ _ _ _ i).symm
  simp only [Cmd.a32, Cmd.rsvd, Cmd.a8, Cmd.opc, BitVec.getLsbD_extractLsb']
  by_cases h1 : i < 8
  · simp [h1]
  · by_cases h2 : i < 16
    · simp [h1, h2, show i - 8 < 8 by omega, show 8 + (i - 8) = i by omega]
    · by_cases h3 : i < 32
      · simp [h1, h2, h3, show i - 16 < 16 by omega, show 16 + (i - 16) = i by omega]
      · simp [h1, h2, h3, show i - 32 < 32 by omega, show 32 + (i - 32) = i by omega]

/-! ### The opcode map -/

@[simp] theorem Opcode.ofCode_code (o : Opcode) : Opcode.ofCode o.code = some o := by cases o <;> decide

theorem Opcode.code_of_ofCode {b : BitVec 8} {o : Opcode} (h : Opcode.ofCode b = some o) : o.code = b := by
  simpa using List.find?_some h

/-- No two opcodes share a number (R73). -/
theorem Opcode.code_injective {o o' : Opcode} (h : o.code = o'.code) : o = o' := by
  have := Opcode.ofCode_code o
  rw [h, Opcode.ofCode_code] at this
  exact (Option.some.inj this).symm

/-- An opcode with no number in the table is none of the 14 (R73). -/
theorem Opcode.ofCode_none (b : BitVec 8) : Opcode.ofCode b = none ↔ ∀ o : Opcode, o.code ≠ b := by
  constructor
  · intro h o e; rw [← e, Opcode.ofCode_code] at h; simp at h
  · intro h
    cases hb : Opcode.ofCode b with
    | none => rfl
    | some o => exact absurd (Opcode.code_of_ofCode hb) (h o)

@[simp] theorem Opcode.opcode_toInstr (o : Opcode) (a8 : BitVec 8) (a32 : BitVec 32) :
    (o.toInstr a8 a32).opcode = o := by cases o <;> rfl

/-- What the decoder can answer (R84). -/
theorem decode_cases (c : CmdWord) :
    (Opcode.ofCode (Cmd.opc c) = none ∧ decode c = .error .illegalOpcode) ∨
      ∃ o, Opcode.ofCode (Cmd.opc c) = some o ∧
        ((fieldsBad o c = true ∧ decode c = .error .badField) ∨
          (fieldsBad o c = false ∧ decode c = .ok (o.toInstr (Cmd.a8 c) (Cmd.a32 c)))) := by
  unfold decode
  cases h : Opcode.ofCode (Cmd.opc c) with
  | none => simp
  | some o => cases hb : fieldsBad o c <;> simp [hb]

end Sys2Proof
end

