-- ==== Sys2Proof/Laws/State.lean ====
section
/-! SUPPORT. What each shared update of the state does to each field, once and by rfl, so that no later proof unfolds a
record update; and the closed forms of the operations that repeat an update. -/

namespace Sys2Proof.Machine

/-! ### raise (R240) -/

@[simp] theorem raise_k (e : Err) (op : BitVec 8) (n : Nat) (s : State) : (raise e op n s).k = s.k := rfl
@[simp] theorem raise_ncount (e : Err) (op : BitVec 8) (n : Nat) (s : State) : (raise e op n s).ncount = s.ncount := rfl
@[simp] theorem raise_freq (e : Err) (op : BitVec 8) (n : Nat) (s : State) : (raise e op n s).freq = s.freq := rfl
@[simp] theorem raise_present (e : Err) (op : BitVec 8) (n : Nat) (s : State) : (raise e op n s).present = s.present := rfl
@[simp] theorem raise_treeValid (e : Err) (op : BitVec 8) (n : Nat) (s : State) : (raise e op n s).treeValid = s.treeValid := rfl
@[simp] theorem raise_codeValid (e : Err) (op : BitVec 8) (n : Nat) (s : State) : (raise e op n s).codeValid = s.codeValid := rfl
@[simp] theorem raise_decDone (e : Err) (op : BitVec 8) (n : Nat) (s : State) : (raise e op n s).decDone = s.decDone := rfl
@[simp] theorem raise_node (e : Err) (op : BitVec 8) (n : Nat) (s : State) : (raise e op n s).node = s.node := rfl
@[simp] theorem raise_nnodes (e : Err) (op : BitVec 8) (n : Nat) (s : State) : (raise e op n s).nnodes = s.nnodes := rfl
@[simp] theorem raise_nleaf (e : Err) (op : BitVec 8) (n : Nat) (s : State) : (raise e op n s).nleaf = s.nleaf := rfl
@[simp] theorem raise_npad (e : Err) (op : BitVec 8) (n : Nat) (s : State) : (raise e op n s).npad = s.npad := rfl
@[simp] theorem raise_root (e : Err) (op : BitVec 8) (n : Nat) (s : State) : (raise e op n s).root = s.root := rfl
@[simp] theorem raise_cvalid (e : Err) (op : BitVec 8) (n : Nat) (s : State) : (raise e op n s).cvalid = s.cvalid := rfl
@[simp] theorem raise_clen (e : Err) (op : BitVec 8) (n : Nat) (s : State) : (raise e op n s).clen = s.clen := rfl
@[simp] theorem raise_cdig (e : Err) (op : BitVec 8) (n : Nat) (s : State) : (raise e op n s).cdig = s.cdig := rfl
@[simp] theorem raise_acc (e : Err) (op : BitVec 8) (n : Nat) (s : State) : (raise e op n s).acc = s.acc := rfl
@[simp] theorem raise_boff (e : Err) (op : BitVec 8) (n : Nat) (s : State) : (raise e op n s).boff = s.boff := rfl
@[simp] theorem raise_out (e : Err) (op : BitVec 8) (n : Nat) (s : State) : (raise e op n s).out = s.out := rfl
@[simp] theorem raise_outcnt (e : Err) (op : BitVec 8) (n : Nat) (s : State) : (raise e op n s).outcnt = s.outcnt := rfl
@[simp] theorem raise_inpos (e : Err) (op : BitVec 8) (n : Nat) (s : State) : (raise e op n s).inpos = s.inpos := rfl
@[simp] theorem raise_rdbit (e : Err) (op : BitVec 8) (n : Nat) (s : State) : (raise e op n s).rdbit = s.rdbit := rfl
@[simp] theorem raise_decCount (e : Err) (op : BitVec 8) (n : Nat) (s : State) : (raise e op n s).decCount = s.decCount := rfl
@[simp] theorem raise_cursor (e : Err) (op : BitVec 8) (n : Nat) (s : State) : (raise e op n s).cursor = s.cursor := rfl
@[simp] theorem raise_errKind (e : Err) (op : BitVec 8) (n : Nat) (s : State) : (raise e op n s).errKind = e.kind := rfl
@[simp] theorem raise_errSub (e : Err) (op : BitVec 8) (n : Nat) (s : State) : (raise e op n s).errSub = e.sub := rfl
@[simp] theorem raise_errOp (e : Err) (op : BitVec 8) (n : Nat) (s : State) : (raise e op n s).errOp = op := rfl
@[simp] theorem raise_errInfo (e : Err) (op : BitVec 8) (n : Nat) (s : State) : (raise e op n s).errInfo = BitVec.ofNat 32 n := rfl
@[simp] theorem raise_inp (e : Err) (op : BitVec 8) (n : Nat) (s : State) : (raise e op n s).inp = s.inp := rfl
@[simp] theorem raise_host (e : Err) (op : BitVec 8) (n : Nat) (s : State) : (raise e op n s).host = s.host := rfl
@[simp] theorem raise_inFixed (e : Err) (op : BitVec 8) (n : Nat) (s : State) : (raise e op n s).inFixed = s.inFixed := rfl
@[simp] theorem raise_reads (e : Err) (op : BitVec 8) (n : Nat) (s : State) : (raise e op n s).reads = s.reads := rfl
@[simp] theorem raise_freeCount (e : Err) (op : BitVec 8) (n : Nat) (s : State) : (raise e op n s).freeCount = s.freeCount := rfl

/-! ### invalidate (R28) -/

@[simp] theorem invalidate_k (s : State) : (invalidate s).k = s.k := rfl
@[simp] theorem invalidate_ncount (s : State) : (invalidate s).ncount = s.ncount := rfl
@[simp] theorem invalidate_freq (s : State) : (invalidate s).freq = s.freq := rfl
@[simp] theorem invalidate_present (s : State) : (invalidate s).present = s.present := rfl
@[simp] theorem invalidate_treeValid (s : State) : (invalidate s).treeValid = false := rfl
@[simp] theorem invalidate_codeValid (s : State) : (invalidate s).codeValid = false := rfl
@[simp] theorem invalidate_decDone (s : State) : (invalidate s).decDone = false := rfl
@[simp] theorem invalidate_node (s : State) : (invalidate s).node = s.node := rfl
@[simp] theorem invalidate_nnodes (s : State) : (invalidate s).nnodes = s.nnodes := rfl
@[simp] theorem invalidate_nleaf (s : State) : (invalidate s).nleaf = s.nleaf := rfl
@[simp] theorem invalidate_npad (s : State) : (invalidate s).npad = s.npad := rfl
@[simp] theorem invalidate_root (s : State) : (invalidate s).root = s.root := rfl
@[simp] theorem invalidate_cvalid (s : State) : (invalidate s).cvalid = s.cvalid := rfl
@[simp] theorem invalidate_clen (s : State) : (invalidate s).clen = s.clen := rfl
@[simp] theorem invalidate_cdig (s : State) : (invalidate s).cdig = s.cdig := rfl
@[simp] theorem invalidate_acc (s : State) : (invalidate s).acc = s.acc := rfl
@[simp] theorem invalidate_boff (s : State) : (invalidate s).boff = s.boff := rfl
@[simp] theorem invalidate_out (s : State) : (invalidate s).out = s.out := rfl
@[simp] theorem invalidate_outcnt (s : State) : (invalidate s).outcnt = s.outcnt := rfl
@[simp] theorem invalidate_inpos (s : State) : (invalidate s).inpos = s.inpos := rfl
@[simp] theorem invalidate_rdbit (s : State) : (invalidate s).rdbit = s.rdbit := rfl
@[simp] theorem invalidate_decCount (s : State) : (invalidate s).decCount = s.decCount := rfl
@[simp] theorem invalidate_cursor (s : State) : (invalidate s).cursor = s.cursor := rfl
@[simp] theorem invalidate_errKind (s : State) : (invalidate s).errKind = s.errKind := rfl
@[simp] theorem invalidate_errSub (s : State) : (invalidate s).errSub = s.errSub := rfl
@[simp] theorem invalidate_errOp (s : State) : (invalidate s).errOp = s.errOp := rfl
@[simp] theorem invalidate_errInfo (s : State) : (invalidate s).errInfo = s.errInfo := rfl
@[simp] theorem invalidate_inp (s : State) : (invalidate s).inp = s.inp := rfl
@[simp] theorem invalidate_host (s : State) : (invalidate s).host = s.host := rfl
@[simp] theorem invalidate_inFixed (s : State) : (invalidate s).inFixed = s.inFixed := rfl
@[simp] theorem invalidate_reads (s : State) : (invalidate s).reads = s.reads := rfl
@[simp] theorem invalidate_freeCount (s : State) : (invalidate s).freeCount = s.freeCount := rfl

/-! ### resetCore (R41, R273) -/

@[simp] theorem resetCore_k (s : State) : (resetCore s).k = State.reset.k := rfl
@[simp] theorem resetCore_ncount (s : State) : (resetCore s).ncount = State.reset.ncount := rfl
@[simp] theorem resetCore_freq (s : State) : (resetCore s).freq = State.reset.freq := rfl
@[simp] theorem resetCore_present (s : State) : (resetCore s).present = State.reset.present := rfl
@[simp] theorem resetCore_treeValid (s : State) : (resetCore s).treeValid = State.reset.treeValid := rfl
@[simp] theorem resetCore_codeValid (s : State) : (resetCore s).codeValid = State.reset.codeValid := rfl
@[simp] theorem resetCore_decDone (s : State) : (resetCore s).decDone = State.reset.decDone := rfl
@[simp] theorem resetCore_node (s : State) : (resetCore s).node = State.reset.node := rfl
@[simp] theorem resetCore_nnodes (s : State) : (resetCore s).nnodes = State.reset.nnodes := rfl
@[simp] theorem resetCore_nleaf (s : State) : (resetCore s).nleaf = State.reset.nleaf := rfl
@[simp] theorem resetCore_npad (s : State) : (resetCore s).npad = State.reset.npad := rfl
@[simp] theorem resetCore_root (s : State) : (resetCore s).root = State.reset.root := rfl
@[simp] theorem resetCore_cvalid (s : State) : (resetCore s).cvalid = State.reset.cvalid := rfl
@[simp] theorem resetCore_clen (s : State) : (resetCore s).clen = State.reset.clen := rfl
@[simp] theorem resetCore_cdig (s : State) : (resetCore s).cdig = State.reset.cdig := rfl
@[simp] theorem resetCore_acc (s : State) : (resetCore s).acc = State.reset.acc := rfl
@[simp] theorem resetCore_boff (s : State) : (resetCore s).boff = State.reset.boff := rfl
@[simp] theorem resetCore_out (s : State) : (resetCore s).out = State.reset.out := rfl
@[simp] theorem resetCore_outcnt (s : State) : (resetCore s).outcnt = State.reset.outcnt := rfl
@[simp] theorem resetCore_inpos (s : State) : (resetCore s).inpos = State.reset.inpos := rfl
@[simp] theorem resetCore_rdbit (s : State) : (resetCore s).rdbit = State.reset.rdbit := rfl
@[simp] theorem resetCore_decCount (s : State) : (resetCore s).decCount = State.reset.decCount := rfl
@[simp] theorem resetCore_cursor (s : State) : (resetCore s).cursor = State.reset.cursor := rfl
@[simp] theorem resetCore_errKind (s : State) : (resetCore s).errKind = State.reset.errKind := rfl
@[simp] theorem resetCore_errSub (s : State) : (resetCore s).errSub = State.reset.errSub := rfl
@[simp] theorem resetCore_errOp (s : State) : (resetCore s).errOp = State.reset.errOp := rfl
@[simp] theorem resetCore_errInfo (s : State) : (resetCore s).errInfo = State.reset.errInfo := rfl
@[simp] theorem resetCore_inp (s : State) : (resetCore s).inp = s.inp := rfl
@[simp] theorem resetCore_host (s : State) : (resetCore s).host = s.host := rfl
@[simp] theorem resetCore_inFixed (s : State) : (resetCore s).inFixed = State.reset.inFixed := rfl
@[simp] theorem resetCore_reads (s : State) : (resetCore s).reads = s.reads := rfl
@[simp] theorem resetCore_freeCount (s : State) : (resetCore s).freeCount = s.freeCount := rfl

/-! ### outByte (R53) -/

@[simp] theorem outByte_k (b : Byte) (s : State) : (outByte b s).k = s.k := rfl
@[simp] theorem outByte_ncount (b : Byte) (s : State) : (outByte b s).ncount = s.ncount := rfl
@[simp] theorem outByte_freq (b : Byte) (s : State) : (outByte b s).freq = s.freq := rfl
@[simp] theorem outByte_present (b : Byte) (s : State) : (outByte b s).present = s.present := rfl
@[simp] theorem outByte_treeValid (b : Byte) (s : State) : (outByte b s).treeValid = s.treeValid := rfl
@[simp] theorem outByte_codeValid (b : Byte) (s : State) : (outByte b s).codeValid = s.codeValid := rfl
@[simp] theorem outByte_decDone (b : Byte) (s : State) : (outByte b s).decDone = s.decDone := rfl
@[simp] theorem outByte_node (b : Byte) (s : State) : (outByte b s).node = s.node := rfl
@[simp] theorem outByte_nnodes (b : Byte) (s : State) : (outByte b s).nnodes = s.nnodes := rfl
@[simp] theorem outByte_nleaf (b : Byte) (s : State) : (outByte b s).nleaf = s.nleaf := rfl
@[simp] theorem outByte_npad (b : Byte) (s : State) : (outByte b s).npad = s.npad := rfl
@[simp] theorem outByte_root (b : Byte) (s : State) : (outByte b s).root = s.root := rfl
@[simp] theorem outByte_cvalid (b : Byte) (s : State) : (outByte b s).cvalid = s.cvalid := rfl
@[simp] theorem outByte_clen (b : Byte) (s : State) : (outByte b s).clen = s.clen := rfl
@[simp] theorem outByte_cdig (b : Byte) (s : State) : (outByte b s).cdig = s.cdig := rfl
@[simp] theorem outByte_acc (b : Byte) (s : State) : (outByte b s).acc = s.acc := rfl
@[simp] theorem outByte_boff (b : Byte) (s : State) : (outByte b s).boff = s.boff := rfl
@[simp] theorem outByte_out (b : Byte) (s : State) : (outByte b s).out = s.out ++ [b] := rfl
@[simp] theorem outByte_outcnt (b : Byte) (s : State) : (outByte b s).outcnt = s.outcnt + 1 := rfl
@[simp] theorem outByte_inpos (b : Byte) (s : State) : (outByte b s).inpos = s.inpos := rfl
@[simp] theorem outByte_rdbit (b : Byte) (s : State) : (outByte b s).rdbit = s.rdbit := rfl
@[simp] theorem outByte_decCount (b : Byte) (s : State) : (outByte b s).decCount = s.decCount := rfl
@[simp] theorem outByte_cursor (b : Byte) (s : State) : (outByte b s).cursor = s.cursor := rfl
@[simp] theorem outByte_errKind (b : Byte) (s : State) : (outByte b s).errKind = s.errKind := rfl
@[simp] theorem outByte_errSub (b : Byte) (s : State) : (outByte b s).errSub = s.errSub := rfl
@[simp] theorem outByte_errOp (b : Byte) (s : State) : (outByte b s).errOp = s.errOp := rfl
@[simp] theorem outByte_errInfo (b : Byte) (s : State) : (outByte b s).errInfo = s.errInfo := rfl
@[simp] theorem outByte_inp (b : Byte) (s : State) : (outByte b s).inp = s.inp := rfl
@[simp] theorem outByte_host (b : Byte) (s : State) : (outByte b s).host = s.host := rfl
@[simp] theorem outByte_inFixed (b : Byte) (s : State) : (outByte b s).inFixed = s.inFixed := rfl
@[simp] theorem outByte_reads (b : Byte) (s : State) : (outByte b s).reads = s.reads := rfl
@[simp] theorem outByte_freeCount (b : Byte) (s : State) : (outByte b s).freeCount = s.freeCount := rfl

/-! ### alignIn (R172, R176) -/

@[simp] theorem alignIn_k (s : State) : (alignIn s).k = s.k := by unfold alignIn; split <;> rfl
@[simp] theorem alignIn_ncount (s : State) : (alignIn s).ncount = s.ncount := by unfold alignIn; split <;> rfl
@[simp] theorem alignIn_freq (s : State) : (alignIn s).freq = s.freq := by unfold alignIn; split <;> rfl
@[simp] theorem alignIn_present (s : State) : (alignIn s).present = s.present := by unfold alignIn; split <;> rfl
@[simp] theorem alignIn_treeValid (s : State) : (alignIn s).treeValid = s.treeValid := by unfold alignIn; split <;> rfl
@[simp] theorem alignIn_codeValid (s : State) : (alignIn s).codeValid = s.codeValid := by unfold alignIn; split <;> rfl
@[simp] theorem alignIn_decDone (s : State) : (alignIn s).decDone = s.decDone := by unfold alignIn; split <;> rfl
@[simp] theorem alignIn_node (s : State) : (alignIn s).node = s.node := by unfold alignIn; split <;> rfl
@[simp] theorem alignIn_nnodes (s : State) : (alignIn s).nnodes = s.nnodes := by unfold alignIn; split <;> rfl
@[simp] theorem alignIn_nleaf (s : State) : (alignIn s).nleaf = s.nleaf := by unfold alignIn; split <;> rfl
@[simp] theorem alignIn_npad (s : State) : (alignIn s).npad = s.npad := by unfold alignIn; split <;> rfl
@[simp] theorem alignIn_root (s : State) : (alignIn s).root = s.root := by unfold alignIn; split <;> rfl
@[simp] theorem alignIn_cvalid (s : State) : (alignIn s).cvalid = s.cvalid := by unfold alignIn; split <;> rfl
@[simp] theorem alignIn_clen (s : State) : (alignIn s).clen = s.clen := by unfold alignIn; split <;> rfl
@[simp] theorem alignIn_cdig (s : State) : (alignIn s).cdig = s.cdig := by unfold alignIn; split <;> rfl
@[simp] theorem alignIn_acc (s : State) : (alignIn s).acc = s.acc := by unfold alignIn; split <;> rfl
@[simp] theorem alignIn_boff (s : State) : (alignIn s).boff = s.boff := by unfold alignIn; split <;> rfl
@[simp] theorem alignIn_out (s : State) : (alignIn s).out = s.out := by unfold alignIn; split <;> rfl
@[simp] theorem alignIn_outcnt (s : State) : (alignIn s).outcnt = s.outcnt := by unfold alignIn; split <;> rfl
@[simp] theorem alignIn_inpos (s : State) : (alignIn s).inpos = if s.rdbit = 0#3 then s.inpos else s.inpos + 1 := by unfold alignIn; split <;> rfl
@[simp] theorem alignIn_rdbit (s : State) : (alignIn s).rdbit = 0#3 := by unfold alignIn; split <;> simp_all
@[simp] theorem alignIn_decCount (s : State) : (alignIn s).decCount = s.decCount := by unfold alignIn; split <;> rfl
@[simp] theorem alignIn_cursor (s : State) : (alignIn s).cursor = s.cursor := by unfold alignIn; split <;> rfl
@[simp] theorem alignIn_errKind (s : State) : (alignIn s).errKind = s.errKind := by unfold alignIn; split <;> rfl
@[simp] theorem alignIn_errSub (s : State) : (alignIn s).errSub = s.errSub := by unfold alignIn; split <;> rfl
@[simp] theorem alignIn_errOp (s : State) : (alignIn s).errOp = s.errOp := by unfold alignIn; split <;> rfl
@[simp] theorem alignIn_errInfo (s : State) : (alignIn s).errInfo = s.errInfo := by unfold alignIn; split <;> rfl
@[simp] theorem alignIn_inp (s : State) : (alignIn s).inp = s.inp := by unfold alignIn; split <;> rfl
@[simp] theorem alignIn_host (s : State) : (alignIn s).host = s.host := by unfold alignIn; split <;> rfl
@[simp] theorem alignIn_inFixed (s : State) : (alignIn s).inFixed = s.inFixed := by unfold alignIn; split <;> rfl
@[simp] theorem alignIn_reads (s : State) : (alignIn s).reads = s.reads := by unfold alignIn; split <;> rfl
@[simp] theorem alignIn_freeCount (s : State) : (alignIn s).freeCount = s.freeCount := by unfold alignIn; split <;> rfl

/-! ### Operations that repeat an update -/

/-- R53: bytes in turn are appended in order and counted, and nothing else changes. -/
theorem outBytes_eq (bs : List Byte) (s : State) :
    outBytes bs s = { s with out := s.out ++ bs, outcnt := s.outcnt + bs.length } := by
  induction bs generalizing s with
  | nil => simp [outBytes]
  | cons b bs ih =>
    have h : outBytes (b :: bs) s = outBytes bs (outByte b s) := rfl
    rw [h, ih]
    simp [outByte, Nat.add_assoc, Nat.add_comm 1]

theorem outBytes_append (as bs : List Byte) (s : State) : outBytes (as ++ bs) s = outBytes bs (outBytes as s) := by
  simp [outBytes]

@[simp] theorem outBytes_nil (s : State) : outBytes [] s = s := rfl

/-- R240: what raise leaves unchanged, as one equation. -/
theorem raise_eq (e : Err) (op : BitVec 8) (n : Nat) (s : State) :
    raise e op n s =
      { s with errKind := e.kind, errSub := e.sub, errOp := op, errInfo := BitVec.ofNat 32 n } := rfl

/-- Every error leaves an error pending (R236: the code 0 is no error's). -/
theorem Err.kind_ne_none (e : Err) : e.kind ≠ ErrKind.none := by cases e <;> decide

@[simp] theorem errPending_raise (e : Err) (op : BitVec 8) (n : Nat) (s : State) : errPending (raise e op n s) = true := by
  simp [errPending, Err.kind_ne_none]

/-- R12, R240: a command whose body may raise has a next state either way. -/
theorem settle_next (r : Except State State) : ∃ t, settle r = .next t := by
  cases r <;> exact ⟨_, rfl⟩

end Sys2Proof.Machine
end

