-- ==== Sys2Proof/Laws/Packer.lean ====
section
/-! SUPPORT. Laws of the packer: PutBit as appending to a bit stream (spec/43_packer.md R151, spec/30_encoding.md R79). -/

namespace Sys2Proof.Machine

/-! ### Bytes of bits -/

theorem getLsbD_byteOfBools (b0 b1 b2 b3 b4 b5 b6 b7 : Bool) (i : Fin 8) :
    (BitVec.ofNat 8 (2 * (2 * (2 * (2 * (2 * (2 * (2 * (2 * 0 + b0.toNat) + b1.toNat) + b2.toNat) + b3.toNat) + b4.toNat)
      + b5.toNat) + b6.toNat) + b7.toNat)).getLsbD i = [b7, b6, b5, b4, b3, b2, b1, b0][i] := by
  revert b0 b1 b2 b3 b4 b5 b6 b7 i
  decide +kernel

/-- Bit 7 of a byte is the first of its bits (R58). -/
theorem getLsbD_byteOfBits (bs : List Bool) (i : Nat) (h : i < 8) :
    (byteOfBits bs).getLsbD i = bs[7 - i]?.getD false := by
  have hr : List.range 8 = [0, 1, 2, 3, 4, 5, 6, 7] := by decide
  have := getLsbD_byteOfBools (bs[0]?.getD false) (bs[1]?.getD false) (bs[2]?.getD false) (bs[3]?.getD false)
    (bs[4]?.getD false) (bs[5]?.getD false) (bs[6]?.getD false) (bs[7]?.getD false) ⟨i, h⟩
  simp only [byteOfBits, hr, List.foldl_cons, List.foldl_nil]
  refine this.trans ?_
  interval_cases i <;> rfl

@[simp] theorem byteOfBits_nil : byteOfBits [] = 0#8 := by decide

/-- Only the first eight bits count. -/
theorem byteOfBits_append (as bs : List Bool) (h : as.length = 8) : byteOfBits (as ++ bs) = byteOfBits as := by
  apply BitVec.eq_of_getLsbD_eq
  intro i hi
  rw [getLsbD_byteOfBits _ _ hi, getLsbD_byteOfBits _ _ hi, List.getElem?_append_left (by omega)]

theorem byteOfBits_digitBits (b : Byte) : byteOfBits (digitBits 8 b) = b := by
  apply BitVec.eq_of_getLsbD_eq
  intro i hi
  rw [getLsbD_byteOfBits _ _ hi]
  have hr : (List.range 8).reverse = [7, 6, 5, 4, 3, 2, 1, 0] := by decide
  simp only [digitBits, hr]
  interval_cases i <;> rfl

@[simp] theorem length_digitBits (w : Nat) (d : Byte) : (digitBits w d).length = w := by simp [digitBits]

@[simp] theorem bytesOfBits_zero (bs : List Bool) : bytesOfBits 0 bs = [] := rfl

@[simp] theorem length_bytesOfBits (n : Nat) (bs : List Bool) : (bytesOfBits n bs).length = n := by simp [bytesOfBits]

theorem bytesOfBits_succ (n : Nat) (as bs : List Bool) (h : as.length = 8) :
    bytesOfBits (n + 1) (as ++ bs) = byteOfBits as :: bytesOfBits n bs := by
  simp only [bytesOfBits, List.range_succ_eq_map, List.map_cons, List.map_map, Nat.mul_zero, List.drop_zero]
  rw [byteOfBits_append as bs h]
  congr 1
  apply List.map_congr_left
  intro j _
  simp only [Function.comp_apply]
  congr 1
  rw [show 8 * (j + 1) = as.length + 8 * j by omega, List.drop_append]
  simp

/-! ### PutBit (R151) -/

/-- The accumulator's bit i becomes b and the others stay. -/
theorem getLsbD_setAccBit (acc : BitVec 8) (i j : Nat) (b : Bool) (hj : j < 8) :
    (setAccBit acc i b).getLsbD j = if j = i then b else acc.getLsbD j := by
  have h1 : (1#8 <<< i).getLsbD j = decide (j = i) := by
    rw [BitVec.getLsbD_shiftLeft]
    rcases Nat.lt_trichotomy j i with h | h | h
    · simp [h, hj, Nat.ne_of_lt h]
    · subst h; simp [hj]
    · have : ¬ j < i := by omega
      have h2 : j - i ≠ 0 := by omega
      simp [this, h2, hj, BitVec.getLsbD_one, Nat.ne_of_gt h]
  unfold setAccBit
  cases b
  · simp only [Bool.false_eq_true, if_false, BitVec.getLsbD_and, BitVec.getLsbD_not, h1, hj]
    by_cases h : j = i <;> simp [h]
  · simp only [if_true, BitVec.getLsbD_or, h1]
    by_cases h : j = i <;> simp [h]

theorem setAccBit_byteOfBits (pend : List Bool) (b : Bool) (h : pend.length < 8) :
    setAccBit (byteOfBits pend) (7 - pend.length) b = byteOfBits (pend ++ [b]) := by
  apply BitVec.eq_of_getLsbD_eq
  intro i hi
  rw [getLsbD_setAccBit _ _ _ _ hi, getLsbD_byteOfBits _ _ hi, getLsbD_byteOfBits _ _ hi]
  split
  · next e => rw [List.getElem?_append_right (by omega), show 7 - i - pend.length = 0 by omega]; rfl
  · rcases Nat.lt_or_ge (7 - i) pend.length with h' | h'
    · rw [List.getElem?_append_left h']
    · rw [List.getElem?_eq_none h', List.getElem?_eq_none (by simp; omega)]

/-- Bits put one after another: with the bits pending in ACC first, whole bytes go out in order and the rest stays in
ACC (R151, R58). Nothing else changes. -/
theorem putBits_eq (bs pend : List Bool) (s : State) (hl : pend.length = s.boff.toNat)
    (ha : s.acc = byteOfBits pend) :
    putBits bs s =
      { s with
        acc := byteOfBits ((pend ++ bs).drop (8 * ((pend ++ bs).length / 8)))
        boff := BitVec.ofNat 3 ((pend ++ bs).length % 8)
        out := s.out ++ bytesOfBits ((pend ++ bs).length / 8) (pend ++ bs)
        outcnt := s.outcnt + (pend ++ bs).length / 8 } := by
  have h8 : pend.length < 8 := by have := s.boff.isLt; omega
  induction bs generalizing pend s with
  | nil =>
    have hd : pend.length / 8 = 0 := by omega
    have hm : pend.length % 8 = s.boff.toNat := by omega
    simp [putBits, hd, hm, ← ha]
  | cons b bs ih =>
    have hstep : putBits (b :: bs) s = putBits bs (putBit s b) := rfl
    rw [hstep]
    have hacc : setAccBit s.acc (7 - s.boff.toNat) b = byteOfBits (pend ++ [b]) := by
      rw [ha, ← hl]; exact setAccBit_byteOfBits pend b h8
    by_cases h7 : s.boff = 7#3
    · have hp : pend.length = 7 := by rw [hl, h7]; rfl
      have hput : putBit s b = { outByte (byteOfBits (pend ++ [b])) s with acc := 0#8, boff := 0#3 } := by
        unfold putBit; rw [hacc]; simp [h7]
      rw [hput, ih [] _ (by simp) (by simp) (by simp)]
      have hsplit : pend ++ b :: bs = (pend ++ [b]) ++ bs := by simp
      have hlen : (pend ++ [b]).length = 8 := by simp [hp]
      have hdiv : (pend ++ b :: bs).length / 8 = bs.length / 8 + 1 := by simp [hp]; omega
      have hmod : (pend ++ b :: bs).length % 8 = bs.length % 8 := by simp [hp]; omega
      have hdrop : (pend ++ b :: bs).drop (8 * (bs.length / 8 + 1)) = bs.drop (8 * (bs.length / 8)) := by
        rw [hsplit, show 8 * (bs.length / 8 + 1) = (pend ++ [b]).length + 8 * (bs.length / 8) by omega, List.drop_append]
        simp
      rw [hdiv, hmod, hdrop, hsplit, bytesOfBits_succ _ _ _ hlen]
      simp [Nat.add_assoc, Nat.add_comm 1]
    · have hb : s.boff.toNat < 7 := by
        have := s.boff.isLt
        have : s.boff.toNat ≠ 7 := fun e => h7 (BitVec.eq_of_toNat_eq e)
        omega
      have hput : putBit s b = { s with acc := byteOfBits (pend ++ [b]), boff := s.boff + 1#3 } := by
        unfold putBit; rw [hacc]; simp [h7]
      rw [hput, ih (pend ++ [b]) _ (by simp [BitVec.toNat_add]; omega) rfl (by simp; omega)]
      simp

/-- The pending bits of a clean accumulator are its top BOFF bits (R35). -/
theorem accClean_pending {s : State} (h : accClean s) :
    ((digitBits 8 s.acc).take s.boff.toNat).length = s.boff.toNat ∧
      s.acc = byteOfBits ((digitBits 8 s.acc).take s.boff.toNat) := by
  have hb := s.boff.isLt
  refine ⟨by simp; omega, ?_⟩
  apply BitVec.eq_of_getLsbD_eq
  intro i hi
  rw [getLsbD_byteOfBits _ _ hi, List.getElem?_take]
  have hd : (digitBits 8 s.acc)[7 - i]? = some (s.acc.getLsbD i) := by
    have hr : (List.range 8).reverse = [7, 6, 5, 4, 3, 2, 1, 0] := by decide
    simp only [digitBits, hr]
    interval_cases i <;> rfl
  split
  · rw [hd]; rfl
  · rw [h i (by omega)]; rfl

/-! ### Whole commands -/

theorem putBits_append (as bs : List Bool) (s : State) : putBits (as ++ bs) s = putBits bs (putBits as s) := by
  simp [putBits]

/-- Placing bits changes ACC, BOFF and OUT only, and OUT by appending. -/
theorem putBits_frame (bs : List Bool) (s : State) :
    ∃ a b o n, putBits bs s = { s with acc := a, boff := b, out := s.out ++ o, outcnt := n } := by
  induction bs generalizing s with
  | nil => exact ⟨s.acc, s.boff, [], s.outcnt, by simp [putBits]⟩
  | cons b bs ih =>
    obtain ⟨a', b', o', n', h⟩ := ih (putBit s b)
    have : putBits (b :: bs) s = putBits bs (putBit s b) := rfl
    rw [this, h]
    unfold putBit
    simp only
    split
    · exact ⟨_, _, [setAccBit s.acc (7 - s.boff.toNat) b] ++ o', _, by simp [outByte]; exact ⟨rfl, rfl, rfl⟩⟩
    · exact ⟨_, _, o', _, rfl⟩

/-- ENC's bits are R79's. -/
theorem codeBits_eq (s : State) (x : Sym) : codeBits s x = codeStream s [x] := by
  have : digitBits (digitWidth s.k) =
      fun d : Byte => (List.range (digitWidth s.k)).map (fun j => d.getLsbD (digitWidth s.k - 1 - j)) := by
    funext d
    apply List.ext_getElem
    · simp
    · intro i h1 h2; simp [digitBits]
  simp only [codeBits, codeStream, bitsOfDigits, this, List.flatMap_cons, List.flatMap_nil, List.append_nil]
  rfl

end Sys2Proof.Machine
end

