-- ==== Sys2Proof/Laws/Unpacker.lean ====
section
/-! SUPPORT. Laws of the unpacker's reads: InBit and ReadDigit over the bit stream of IN (spec/20_memory.md R54,
spec/44_unpacker.md R174), InByte and the little-endian integers over its bytes (R52, R56). -/

namespace Sys2Proof.Machine

/-! ### The read position as a bit position -/

/-- The bit of IN that InBit reads next. -/
def bitPos (s : State) : Nat := 8 * s.inpos + s.rdbit.toNat

/-- The state with the read position at a bit of IN. -/
def atBit (s : State) (p : Nat) : State := { s with inpos := p / 8, rdbit := BitVec.ofNat 3 (p % 8) }

@[simp] theorem bitPos_atBit (s : State) (p : Nat) : bitPos (atBit s p) = p := by
  simp [bitPos, atBit]; omega

@[simp] theorem atBit_atBit (s : State) (p q : Nat) : atBit (atBit s p) q = atBit s q := rfl

theorem atBit_bitPos (s : State) : atBit s (bitPos s) = s := by
  have h := s.rdbit.isLt
  have h1 : bitPos s / 8 = s.inpos := by unfold bitPos; omega
  have h2 : bitPos s % 8 = s.rdbit.toNat := by unfold bitPos; omega
  simp [atBit, h1, h2]

@[simp] theorem atBit_inp (s : State) (p : Nat) : (atBit s p).inp = s.inp := rfl
@[simp] theorem atBit_k (s : State) (p : Nat) : (atBit s p).k = s.k := rfl
@[simp] theorem atBit_node (s : State) (p : Nat) : (atBit s p).node = s.node := rfl
@[simp] theorem atBit_root (s : State) (p : Nat) : (atBit s p).root = s.root := rfl
@[simp] theorem atBit_cursor (s : State) (p : Nat) : (atBit s p).cursor = s.cursor := rfl
@[simp] theorem atBit_ncount (s : State) (p : Nat) : (atBit s p).ncount = s.ncount := rfl
@[simp] theorem atBit_decCount (s : State) (p : Nat) : (atBit s p).decCount = s.decCount := rfl
@[simp] theorem atBit_out (s : State) (p : Nat) : (atBit s p).out = s.out := rfl
@[simp] theorem atBit_outcnt (s : State) (p : Nat) : (atBit s p).outcnt = s.outcnt := rfl

/-- The byte-boundary step of PARSEH and DECODE (R172, R176). -/
theorem alignIn_eq (s : State) : alignIn s = atBit s (8 * ((bitPos s + 7) / 8)) := by
  have h := s.rdbit.isLt
  unfold alignIn atBit
  split
  · next e =>
    have h1 : 8 * ((bitPos s + 7) / 8) / 8 = s.inpos := by unfold bitPos; rw [e]; simp; omega
    have h2 : 8 * ((bitPos s + 7) / 8) % 8 = 0 := by omega
    rw [h1, h2]; cases s; simp_all
  · next e =>
    have h0 : s.rdbit.toNat ≠ 0 := fun e' => e (BitVec.eq_of_toNat_eq e')
    have h1 : 8 * ((bitPos s + 7) / 8) / 8 = s.inpos + 1 := by unfold bitPos; omega
    have h2 : 8 * ((bitPos s + 7) / 8) % 8 = 0 := by omega
    rw [h1, h2]

/-! ### Bits of bytes -/

@[simp] theorem length_bitsOfBytes (bs : List Byte) : (bitsOfBytes bs).length = 8 * bs.length := by
  simp [bitsOfBytes, List.length_flatMap, Nat.mul_comm]

theorem bitsOfBytes_cons (b : Byte) (bs : List Byte) : bitsOfBytes (b :: bs) = digitBits 8 b ++ bitsOfBytes bs := rfl

theorem bitsOfBytes_append (as bs : List Byte) : bitsOfBytes (as ++ bs) = bitsOfBytes as ++ bitsOfBytes bs := by
  simp [bitsOfBytes]

theorem getElem?_digitBits (b : Byte) (j : Nat) (h : j < 8) : (digitBits 8 b)[j]? = some (b.getLsbD (7 - j)) := by
  have hr : (List.range 8).reverse = [7, 6, 5, 4, 3, 2, 1, 0] := by decide
  simp only [digitBits, hr]
  interval_cases j <;> rfl

theorem getElem?_bitsOfBytes (bs : List Byte) (i j : Nat) (h : j < 8) :
    (bitsOfBytes bs)[8 * i + j]? = (bs[i]?).map (fun b => b.getLsbD (7 - j)) := by
  induction bs generalizing i with
  | nil => simp [bitsOfBytes]
  | cons b bs ih =>
    rw [bitsOfBytes_cons]
    cases i with
    | zero =>
      rw [List.getElem?_append_left (by simp; omega)]
      simpa using getElem?_digitBits b j h
    | succ i =>
      rw [List.getElem?_append_right (by simp; omega), length_digitBits,
        show 8 * (i + 1) + j - 8 = 8 * i + j by omega, ih]
      simp

/-- Whole bytes dropped are whole groups of bits dropped. -/
theorem drop_bitsOfBytes (bs : List Byte) (i : Nat) : (bitsOfBytes bs).drop (8 * i) = bitsOfBytes (bs.drop i) := by
  induction bs generalizing i with
  | nil => simp [bitsOfBytes]
  | cons b bs ih =>
    cases i with
    | zero => rfl
    | succ i =>
      rw [bitsOfBytes_cons, show 8 * (i + 1) = (digitBits 8 b).length + 8 * i by simp; omega, List.drop_append]
      simp [ih]

/-! ### InBit (R54) -/

/-- R54 in one line: the bit at the position comes back and the position moves on by one, or the raise. -/
theorem inBit_eq (exc : State → State) (s : State) :
    inBit exc s =
      match (bitsOfBytes s.inp)[bitPos s]? with
      | none => .error (exc s)
      | some b => .ok (b, atBit s (bitPos s + 1)) := by
  have h := s.rdbit.isLt
  rw [bitPos, getElem?_bitsOfBytes _ _ _ h]
  unfold inBit
  cases hb : s.inp[s.inpos]? with
  | none => rfl
  | some b =>
    simp only [Option.map_some]
    split
    · next e =>
      have h7 : s.rdbit.toNat = 7 := by rw [e]; rfl
      have h1 : (8 * s.inpos + s.rdbit.toNat + 1) / 8 = s.inpos + 1 := by omega
      have h2 : (8 * s.inpos + s.rdbit.toNat + 1) % 8 = 0 := by omega
      simp [atBit, h1, h2]
    · next e =>
      have h7 : s.rdbit.toNat ≠ 7 := fun e' => e (BitVec.eq_of_toNat_eq e')
      have h1 : (8 * s.inpos + s.rdbit.toNat + 1) / 8 = s.inpos := by omega
      have h2 : (8 * s.inpos + s.rdbit.toNat + 1) % 8 = s.rdbit.toNat + 1 := by omega
      have h3 : s.rdbit + 1#3 = BitVec.ofNat 3 (s.rdbit.toNat + 1) := by
        apply BitVec.eq_of_toNat_eq; simp [BitVec.toNat_add]
      simp [atBit, h1, h2, h3]

/-! ### ReadDigit (R174) -/

/-- Bits as an unsigned integer after the bits already read, the first the most significant (R58, R174). -/
def bitsValue (v : Nat) (bs : List Bool) : Nat := bs.foldl (fun v b => 2 * v + b.toNat) v

/-- The bits are there: their value comes back and the position moves on past them. -/
theorem readBits_ok (bs rest : List Bool) (v : Nat) (s : State)
    (h : (bitsOfBytes s.inp).drop (bitPos s) = bs ++ rest) :
    readBits bs.length v s = .ok (bitsValue v bs, atBit s (bitPos s + bs.length)) := by
  induction bs generalizing v s with
  | nil => simp [readBits, bitsValue, atBit_bitPos]
  | cons b bs ih =>
    have hb : (bitsOfBytes s.inp)[bitPos s]? = some b := by
      have := congrArg (fun l => l[0]?) h
      simpa [List.getElem?_drop] using this
    have htail : (bitsOfBytes s.inp).drop (bitPos s + 1) = bs ++ rest := by
      have := congrArg List.tail h
      simpa [List.tail_drop] using this
    simp only [List.length_cons, readBits, inBit_eq, hb, bind, Except.bind]
    rw [ih _ (atBit s (bitPos s + 1)) (by simpa using htail)]
    simp [bitsValue, Nat.add_assoc, Nat.add_comm 1]

/-- The bits are not all there: UNDERRUN, with the position at the end of IN (R174). -/
theorem readBits_short (w v : Nat) (s : State) (hp : bitPos s ≤ 8 * s.inp.length)
    (h : 8 * s.inp.length < bitPos s + w) :
    readBits w v s = .error (underrun (atBit s (8 * s.inp.length))) := by
  induction w generalizing v s with
  | zero => omega
  | succ w ih =>
    simp only [readBits, inBit_eq, bind, Except.bind]
    rcases Nat.lt_or_ge (bitPos s) (8 * s.inp.length) with hlt | hge
    · have : bitPos s < (bitsOfBytes s.inp).length := by simpa using hlt
      rw [List.getElem?_eq_getElem this]
      simp only
      rw [ih _ (atBit s (bitPos s + 1)) (by simp; omega) (by simp; omega)]
      rfl
    · have e : bitPos s = 8 * s.inp.length := by omega
      rw [List.getElem?_eq_none (by simpa using hge)]
      simp only [← e, atBit_bitPos]

/-- What a read of w bits can answer. -/
theorem readBits_cases (w v : Nat) (s : State) :
    (∃ v', readBits w v s = .ok (v', atBit s (bitPos s + w)) ∧ (bitPos s + w ≤ 8 * s.inp.length ∨ w = 0)) ∨
      ∃ p, readBits w v s = .error (underrun (atBit s p)) ∧ bitPos s ≤ p ∧
        (bitPos s ≤ 8 * s.inp.length → p = 8 * s.inp.length) := by
  induction w generalizing v s with
  | zero => exact .inl ⟨v, by simp [readBits, atBit_bitPos], .inr rfl⟩
  | succ w ih =>
    simp only [readBits, inBit_eq, bind, Except.bind]
    rcases Nat.lt_or_ge (bitPos s) (8 * s.inp.length) with hlt | hge
    · have : bitPos s < (bitsOfBytes s.inp).length := by simpa using hlt
      rw [List.getElem?_eq_getElem this]
      simp only
      rcases ih (2 * v + ((bitsOfBytes s.inp)[bitPos s]).toNat) (atBit s (bitPos s + 1)) with ⟨v', h1, h2⟩ | ⟨p, h1, h2, h3⟩
      · refine .inl ⟨v', ?_, ?_⟩
        · rw [h1]; simp [Nat.add_assoc, Nat.add_comm 1]
        · simp at h2; omega
      · refine .inr ⟨p, ?_, ?_, ?_⟩
        · rw [h1]; rfl
        · simp at h2; omega
        · simp at h3; omega
    · rw [List.getElem?_eq_none (by simpa using hge)]
      exact .inr ⟨bitPos s, by simp [atBit_bitPos], Nat.le_refl _, by omega⟩

theorem digitBits_succ (w : Nat) (d : Byte) : digitBits (w + 1) d = d.getLsbD w :: digitBits w d := by
  simp [digitBits, List.range_succ]

theorem bitsValue_digitBits (w v : Nat) (d : Byte) :
    bitsValue v (digitBits w d) = v * 2 ^ w + d.toNat % 2 ^ w := by
  induction w generalizing v with
  | zero => simp [digitBits, bitsValue, Nat.mod_one]
  | succ w ih =>
    have h : bitsValue v (digitBits (w + 1) d) = bitsValue (2 * v + (d.getLsbD w).toNat) (digitBits w d) := by
      rw [digitBits_succ]; rfl
    rw [h, ih, Nat.mod_pow_succ, BitVec.getLsbD, Nat.toNat_testBit]
    ring

/-! ### InByte and the header's integers (R52, R56) -/

/-- R52: the byte at the position, and the position one on. -/
theorem inByte_ok (exc : State → State) (s : State) (b : Byte) (rest : List Byte)
    (h : s.inp.drop s.inpos = b :: rest) : inByte exc s = .ok (b, { s with inpos := s.inpos + 1 }) := by
  have hb : s.inp[s.inpos]? = some b := by
    have := congrArg (fun l => l[0]?) h
    simpa [List.getElem?_drop] using this
  simp [inByte, hb]

/-- R52: IN is exhausted. -/
theorem inByte_end (exc : State → State) (s : State) (h : s.inp.length ≤ s.inpos) : inByte exc s = .error (exc s) := by
  simp [inByte, List.getElem?_eq_none h]

/-- Bytes as a little-endian integer (R56). -/
def leValue : List Byte → Nat
  | [] => 0
  | b :: bs => b.toNat + 256 * leValue bs

/-- R56: the bytes are there, and their little-endian value comes back. -/
theorem inLE_ok (exc : State → State) (bs rest : List Byte) (s : State) (h : s.inp.drop s.inpos = bs ++ rest) :
    inLE exc bs.length s = .ok (leValue bs, { s with inpos := s.inpos + bs.length }) := by
  induction bs generalizing s with
  | nil => simp [inLE, leValue]
  | cons b bs ih =>
    have htail : s.inp.drop (s.inpos + 1) = bs ++ rest := by
      have := congrArg List.tail h
      simpa [List.tail_drop] using this
    simp only [List.length_cons, inLE, inByte_ok exc s b (bs ++ rest) h, bind, Except.bind]
    rw [ih _ htail]
    simp [leValue, Nat.add_assoc, Nat.add_comm 1]

/-- R52: the bytes are not all there, and the raise happens at the end of IN. -/
theorem inLE_short (exc : State → State) (n : Nat) (s : State) (hp : s.inpos ≤ s.inp.length)
    (h : s.inp.length < s.inpos + n) : inLE exc n s = .error (exc { s with inpos := s.inp.length }) := by
  induction n generalizing s with
  | zero => omega
  | succ n ih =>
    simp only [inLE, bind, Except.bind]
    rcases Nat.lt_or_ge s.inpos s.inp.length with hlt | hge
    · rw [inByte_ok exc s s.inp[s.inpos] (s.inp.drop (s.inpos + 1)) (List.drop_eq_getElem_cons hlt)]
      simp only
      rw [ih { s with inpos := s.inpos + 1 } hlt (by simp; omega)]
    · have e : s.inp.length = s.inpos := by omega
      rw [inByte_end exc s hge, e]

/-- R56: the bytes of a header field read back as its value. -/
theorem leValue_leBytes (v : Word32) : leValue (leBytes v) = v.toNat := by
  have hr : List.range 4 = [0, 1, 2, 3] := by decide
  simp only [leBytes, hr, List.map_cons, List.map_nil, leValue, BitVec.extractLsb'_toNat, Nat.shiftRight_eq_div_pow]
  have := v.isLt
  omega

@[simp] theorem length_leBytes (v : Word32) : (leBytes v).length = 4 := by simp [leBytes]

end Sys2Proof.Machine
end

