-- ==== Sys2Proof/Laws/Decoder.lean ====
section
/-! SUPPORT. Laws of DECODE's loop (spec/44_unpacker.md R176, R177): a digit at the read position is read, a walk along
a path, the codes of symbols in order, and the end of the loop for every arena and every IN (R288). -/

namespace Sys2Proof.Machine

/-- The bits of one digit, as the statements and as the packer write them (R58). -/
theorem digitBits_eq_bitsOfDigits (w : Nat) (d : Byte) : digitBits w d = bitsOfDigits w [d] := by
  simp only [bitsOfDigits, List.flatMap_cons, List.flatMap_nil, List.append_nil]
  apply List.ext_getElem
  · simp
  · intro i h1 h2; simp [digitBits]

theorem bitsOfDigits_cons (w : Nat) (d : Byte) (ds : List Byte) :
    bitsOfDigits w (d :: ds) = bitsOfDigits w [d] ++ bitsOfDigits w ds := by simp [bitsOfDigits]

theorem bitsOfDigits_append (w : Nat) (as bs : List Byte) :
    bitsOfDigits w (as ++ bs) = bitsOfDigits w as ++ bitsOfDigits w bs := by simp [bitsOfDigits]

@[simp] theorem length_bitsOfDigits (w : Nat) (ds : List Byte) : (bitsOfDigits w ds).length = w * ds.length := by
  induction ds with
  | nil => simp [bitsOfDigits]
  | cons d ds ih => rw [bitsOfDigits_cons, List.length_append, ih]; simp [bitsOfDigits]; ring

/-- R80: `W(K)` is at least 1 for a legal radix, and a digit below K fits in it. -/
theorem digitWidth_bounds (k : BitVec 8) (hk : 2 ≤ k.toNat) : 1 ≤ digitWidth k ∧ k.toNat ≤ 2 ^ digitWidth k := by
  revert hk
  revert k
  decide +kernel

/-- R174: a digit that stands at the read position is read. -/
theorem readDigit_ok {s : State} {d : Byte} {rest : List Bool}
    (h : (bitsOfBytes s.inp).drop (bitPos s) = bitsOfDigits (digitWidth s.k) [d] ++ rest)
    (hd : d.toNat < 2 ^ digitWidth s.k) :
    readDigit s = .ok (d.toNat, atBit s (bitPos s + digitWidth s.k)) := by
  rw [← digitBits_eq_bitsOfDigits] at h
  have := readBits_ok _ rest 0 s h
  rw [length_digitBits, bitsValue_digitBits, Nat.mod_eq_of_lt hd, Nat.zero_mul, Nat.zero_add] at this
  exact this

/-! ### The state inside the loop -/

/-- The state inside DECODE's loop: the read position at a bit, the cursor at a node, the symbols so far out. -/
def decodeAt (s : State) (p : Nat) (x : NodeIdx) (done : List Sym) : State :=
  { atBit s p with
    cursor := x, out := s.out ++ done, outcnt := s.outcnt + done.length
    decCount := BitVec.ofNat 32 done.length, decDone := false }

@[simp] theorem decodeAt_k (s : State) (p : Nat) (x : NodeIdx) (done : List Sym) : (decodeAt s p x done).k = s.k := rfl
@[simp] theorem decodeAt_inp (s : State) (p : Nat) (x : NodeIdx) (done : List Sym) : (decodeAt s p x done).inp = s.inp := rfl
@[simp] theorem decodeAt_node (s : State) (p : Nat) (x : NodeIdx) (done : List Sym) : (decodeAt s p x done).node = s.node := rfl
@[simp] theorem decodeAt_root (s : State) (p : Nat) (x : NodeIdx) (done : List Sym) : (decodeAt s p x done).root = s.root := rfl
@[simp] theorem decodeAt_ncount (s : State) (p : Nat) (x : NodeIdx) (done : List Sym) : (decodeAt s p x done).ncount = s.ncount := rfl
@[simp] theorem decodeAt_cursor (s : State) (p : Nat) (x : NodeIdx) (done : List Sym) : (decodeAt s p x done).cursor = x := rfl
@[simp] theorem bitPos_decodeAt (s : State) (p : Nat) (x : NodeIdx) (done : List Sym) : bitPos (decodeAt s p x done) = p :=
  bitPos_atBit s p
@[simp] theorem atBit_decodeAt (s : State) (p q : Nat) (x : NodeIdx) (done : List Sym) :
    atBit (decodeAt s p x done) q = decodeAt s q x done := rfl

theorem decCount_lt {s : State} {p : Nat} {x : NodeIdx} {done : List Sym} (h : done.length < s.ncount.toNat) :
    (decodeAt s p x done).decCount < (decodeAt s p x done).ncount := by
  have := s.ncount.isLt
  simp only [decodeAt, BitVec.lt_def, BitVec.toNat_ofNat, atBit_ncount]
  omega

/-- DECODE's start is the state inside the loop at the root, at the next byte boundary. -/
theorem decodeStart_eq (s : State) : decodeStart s = decodeAt s (8 * startByte s) s.root [] := by
  have h1 : 8 * startByte s / 8 = startByte s := by omega
  have h2 : 8 * startByte s % 8 = 0 := by omega
  simp only [decodeStart, decodeAt, atBit, h1, h2, List.append_nil, List.length_nil, Nat.add_zero]
  unfold alignIn startByte
  split
  · next h => simp at h; cases s; simp at h; simp [h]
  · next h => simp at h; simp

/-! ### One turn -/

/-- A turn after its digit v is read (R176, R177). -/
theorem decodeTurn_of_read {s : State} {v p : Nat} (h : readDigit s = .ok (v, atBit s p)) :
    decodeTurn s =
      if s.k.toNat ≤ v then .error (raise .badDigit Opcode.decode.code v (atBit s p))
      else
        match (nodeAt s.node ((nodeAt s.node s.cursor).child v)).kind with
        | .pad => .error (raise .padLeaf Opcode.decode.code ((nodeAt s.node s.cursor).child v).toNat
            { atBit s p with cursor := (nodeAt s.node s.cursor).child v })
        | .leaf => .ok { atBit s p with
            out := s.out ++ [(nodeAt s.node ((nodeAt s.node s.cursor).child v)).sym], outcnt := s.outcnt + 1
            decCount := s.decCount + 1#32, cursor := s.root }
        | .int => .ok { atBit s p with cursor := (nodeAt s.node s.cursor).child v }
        | .free => .ok { atBit s p with cursor := (nodeAt s.node s.cursor).child v } := by
  unfold decodeTurn
  rw [h]
  rfl

/-- R177: a digit below K that leads to an internal node moves the cursor there. -/
theorem decodeTurn_int {s : State} {p : Nat} {x : NodeIdx} {done : List Sym} {d : Byte} {rest : List Bool}
    (h : (bitsOfBytes s.inp).drop p = bitsOfDigits (digitWidth s.k) [d] ++ rest) (hk : 2 ≤ s.k.toNat)
    (hd : d.toNat < s.k.toNat) (hi : (nodeAt s.node ((nodeAt s.node x).child d.toNat)).kind = .int) :
    decodeTurn (decodeAt s p x done) =
      .ok (decodeAt s (p + digitWidth s.k) ((nodeAt s.node x).child d.toNat) done) := by
  have hb := (digitWidth_bounds s.k hk).2
  have hr := readDigit_ok (s := decodeAt s p x done) (d := d) (rest := rest) (by simpa using h) (by simp; omega)
  unfold decodeTurn
  rw [hr]
  simp only [bind, Except.bind, bitPos_decodeAt, atBit_decodeAt, decodeAt_k, decodeAt_node, decodeAt_cursor]
  rw [if_neg (by omega), hi]
  rfl

/-- R177: a digit below K that leads to a real leaf emits its symbol, counts it, and returns to the root. -/
theorem decodeTurn_leaf {s : State} {p : Nat} {x : NodeIdx} {done : List Sym} {d : Byte} {rest : List Bool}
    (h : (bitsOfBytes s.inp).drop p = bitsOfDigits (digitWidth s.k) [d] ++ rest) (hk : 2 ≤ s.k.toNat)
    (hd : d.toNat < s.k.toNat) (hl : (nodeAt s.node ((nodeAt s.node x).child d.toNat)).kind = .leaf) :
    decodeTurn (decodeAt s p x done) =
      .ok (decodeAt s (p + digitWidth s.k) s.root
        (done ++ [(nodeAt s.node ((nodeAt s.node x).child d.toNat)).sym])) := by
  have hb := (digitWidth_bounds s.k hk).2
  have hr := readDigit_ok (s := decodeAt s p x done) (d := d) (rest := rest) (by simpa using h) (by simp; omega)
  have hc : BitVec.ofNat 32 done.length + 1#32 = BitVec.ofNat 32 (done.length + 1) := by
    apply BitVec.eq_of_toNat_eq; simp [BitVec.toNat_add]
  unfold decodeTurn
  rw [hr]
  simp only [bind, Except.bind, bitPos_decodeAt, atBit_decodeAt, decodeAt_k, decodeAt_node, decodeAt_cursor]
  rw [if_neg (by omega), hl]
  simp [decodeAt, outByte, hc, Nat.add_assoc]

/-! ### Paths and codes -/

/-- A path from the cursor to an internal node takes as many turns as it has digits. -/
theorem decodeLoop_walk {s : State} (hk : 2 ≤ s.k.toNat) (q : List Byte) :
    ∀ (m p : Nat) (x y : NodeIdx) (done : List Sym) (rest : List Bool),
      leadsTo s.node s.k.toNat x q y → (nodeAt s.node y).kind = .int → done.length < s.ncount.toNat →
      (bitsOfBytes s.inp).drop p = bitsOfDigits (digitWidth s.k) q ++ rest →
      decodeLoop (q.length + m) (decodeAt s p x done) =
        decodeLoop m (decodeAt s (p + digitWidth s.k * q.length) y done) := by
  induction q with
  | nil => intro m p x y done rest h _ _ _; rw [show x = y from h]; simp
  | cons d q ih =>
    intro m p x y done rest h hy hn hin
    obtain ⟨_, hd, h2⟩ := h
    rw [bitsOfDigits_cons, List.append_assoc] at hin
    have hint : (nodeAt s.node ((nodeAt s.node x).child d.toNat)).kind = .int := by
      cases q with
      | nil => rw [show (nodeAt s.node x).child d.toNat = y from h2]; exact hy
      | cons _ _ => exact h2.1
    have hnext : (bitsOfBytes s.inp).drop (p + digitWidth s.k) = bitsOfDigits (digitWidth s.k) q ++ rest := by
      have := congrArg (List.drop (digitWidth s.k)) hin
      rw [List.drop_drop] at this
      rw [this, List.drop_append_of_le_length (by simp), List.drop_eq_nil_of_le (by simp)]; simp
    rw [show (d :: q).length + m = (q.length + m) + 1 by simp; omega, decodeLoop, if_pos (decCount_lt hn),
      decodeTurn_int hin hk hd hint]
    simp only
    rw [ih m _ _ y done rest h2 hy hn hnext]
    congr 2
    rw [List.length_cons]; ring

/-- A path from the cursor to a real leaf emits the leaf's symbol. -/
theorem decodeLoop_code {s : State} (hk : 2 ≤ s.k.toNat) (q : List Byte) :
    ∀ (m p : Nat) (x y : NodeIdx) (done : List Sym) (rest : List Bool),
      leadsTo s.node s.k.toNat x q y → (nodeAt s.node y).kind = .leaf → q ≠ [] → done.length < s.ncount.toNat →
      (bitsOfBytes s.inp).drop p = bitsOfDigits (digitWidth s.k) q ++ rest →
      decodeLoop (q.length + m) (decodeAt s p x done) =
        decodeLoop m (decodeAt s (p + digitWidth s.k * q.length) s.root (done ++ [(nodeAt s.node y).sym])) := by
  induction q with
  | nil => intro m p x y done rest _ _ h; exact absurd rfl h
  | cons d q ih =>
    intro m p x y done rest h hy _ hn hin
    obtain ⟨_, hd, h2⟩ := h
    rw [bitsOfDigits_cons, List.append_assoc] at hin
    have hnext : (bitsOfBytes s.inp).drop (p + digitWidth s.k) = bitsOfDigits (digitWidth s.k) q ++ rest := by
      have := congrArg (List.drop (digitWidth s.k)) hin
      rw [List.drop_drop] at this
      rw [this, List.drop_append_of_le_length (by simp), List.drop_eq_nil_of_le (by simp)]; simp
    rw [show (d :: q).length + m = (q.length + m) + 1 by simp; omega, decodeLoop, if_pos (decCount_lt hn)]
    cases q with
    | nil =>
      have e : (nodeAt s.node x).child d.toNat = y := h2
      rw [decodeTurn_leaf hin hk hd (by rw [e]; exact hy), e]
      simp
    | cons e q =>
      rw [decodeTurn_int hin hk hd h2.1]
      simp only
      rw [ih m _ _ y done rest h2 hy (by simp) hn hnext]
      congr 2
      rw [List.length_cons (as := e :: q)]; ring

/-- The digits of the codes of symbols in order. -/
def codeLength (code : Sym → List Byte) (xs : List Sym) : Nat := (xs.map (fun x => (code x).length)).sum

@[simp] theorem length_payloadBits (k : BitVec 8) (code : Sym → List Byte) (xs : List Sym) :
    (payloadBits k code xs).length = digitWidth k * codeLength code xs := by
  induction xs with
  | nil => simp [payloadBits, codeLength]
  | cons x xs ih =>
    have h1 : payloadBits k code (x :: xs) = bitsOfDigits (digitWidth k) (code x) ++ payloadBits k code xs := by
      simp [payloadBits]
    have h2 : codeLength code (x :: xs) = (code x).length + codeLength code xs := by simp [codeLength]
    rw [h1, List.length_append, ih, h2, length_bitsOfDigits]; ring

/-- R82: the codes of symbols in order are decoded in order. -/
theorem decodeLoop_codes {s : State} (hk : 2 ≤ s.k.toNat) (code : Sym → List Byte) (xs : List Sym)
    (hroot : (nodeAt s.node s.root).kind = .int) :
    ∀ (m p : Nat) (done : List Sym) (rest : List Bool), (∀ x ∈ xs, isCodeFor s code x) →
      done.length + xs.length ≤ s.ncount.toNat →
      (bitsOfBytes s.inp).drop p = payloadBits s.k code xs ++ rest →
      decodeLoop (codeLength code xs + m) (decodeAt s p s.root done) =
        decodeLoop m (decodeAt s (p + digitWidth s.k * codeLength code xs) s.root (done ++ xs)) := by
  induction xs with
  | nil => intro m p done rest _ _ _; simp [codeLength]
  | cons x xs ih =>
    intro m p done rest hc hn hin
    obtain ⟨y, h1, h2, h3⟩ := hc x (by simp)
    have hne : code x ≠ [] := by
      intro e
      rw [e] at h1
      rw [show s.root = y from h1, h2] at hroot
      cases hroot
    have hsplit : payloadBits s.k code (x :: xs) = bitsOfDigits (digitWidth s.k) (code x) ++ payloadBits s.k code xs := by
      simp [payloadBits]
    have hlen : codeLength code (x :: xs) = (code x).length + codeLength code xs := by simp [codeLength]
    rw [hsplit, List.append_assoc] at hin
    have hnext : (bitsOfBytes s.inp).drop (p + digitWidth s.k * (code x).length) = payloadBits s.k code xs ++ rest := by
      have := congrArg (List.drop (digitWidth s.k * (code x).length)) hin
      rw [List.drop_drop] at this
      rw [this, List.drop_append_of_le_length (by simp), List.drop_eq_nil_of_le (by simp)]; simp
    simp only [List.length_cons] at hn
    rw [hlen, Nat.add_assoc,
      decodeLoop_code hk (code x) (codeLength code xs + m) p s.root y done _ h1 h2 hne (by omega) hin, h3,
      ih m _ (done ++ [x]) rest (fun z hz => hc z (by simp [hz])) (by simp; omega) hnext]
    congr 2
    · ring
    · simp

/-- R175: the loop ends when NCOUNT symbols are out. -/
theorem decodeLoop_done {s : State} (m p : Nat) {done : List Sym} (h : done.length = s.ncount.toNat) :
    decodeLoop m (decodeAt s p s.root done) = .next { decodeAt s p s.root done with decDone := true } := by
  have : ¬ (decodeAt s p s.root done).decCount < (decodeAt s p s.root done).ncount := by
    have := s.ncount.isLt
    simp only [decodeAt, BitVec.lt_def, BitVec.toNat_ofNat, atBit_ncount]
    omega
  cases m with
  | zero => rw [decodeLoop, if_neg this]
  | succ m => rw [decodeLoop, if_neg this]

/-! ### Every arena, every IN -/

/-- What DECODE may change: its own state, OUT by appending, and the error registers (R51, R53). -/
structure DecodeFrame (s t : State) : Prop where
  only : t = { s with
    out := t.out, outcnt := t.outcnt, inpos := t.inpos, rdbit := t.rdbit, decCount := t.decCount, cursor := t.cursor
    decDone := t.decDone, errKind := t.errKind, errSub := t.errSub, errOp := t.errOp, errInfo := t.errInfo }
  appends : s.out <+: t.out
  counted : t.outcnt + s.out.length = s.outcnt + t.out.length

theorem DecodeFrame.refl (s : State) : DecodeFrame s s := ⟨rfl, List.prefix_rfl, rfl⟩

theorem DecodeFrame.trans {s t u : State} (h : DecodeFrame s t) (h' : DecodeFrame t u) : DecodeFrame s u := by
  refine ⟨h'.only.trans ?_, h.appends.trans h'.appends, ?_⟩
  · rw [h.only]
  · have := h.counted
    have := h'.counted
    omega

/-- How a turn can raise (R178, R174). -/
def decodeErrors : List Err := [.underrun, .badDigit, .padLeaf]

/-- Everything a turn can do (R177). Without a raise it reads one whole digit of IN, and either moves the cursor or
emits a symbol and returns to the root. -/
theorem decodeTurn_cases (s : State) :
    (∃ t e, decodeTurn s = .error t ∧ DecodeFrame s t ∧ e ∈ decodeErrors ∧ t.errKind = e.kind ∧ t.errSub = e.sub ∧
        t.errOp = 0x31#8 ∧ t.decDone = s.decDone ∧ (bitPos s ≤ 8 * s.inp.length → bitPos t ≤ 8 * s.inp.length)) ∨
      ∃ t, decodeTurn s = .ok t ∧ DecodeFrame s t ∧ t.errKind = s.errKind ∧ t.errSub = s.errSub ∧ t.errOp = s.errOp ∧
        t.errInfo = s.errInfo ∧ t.decDone = s.decDone ∧
        (2 ≤ s.k.toNat → bitPos s < bitPos t ∧ bitPos t ≤ 8 * s.inp.length) ∧
        (t.decCount = s.decCount ∨ (t.decCount = s.decCount + 1#32 ∧ t.cursor = s.root)) := by
  rcases readBits_cases (digitWidth s.k) 0 s with ⟨v, h1, h2⟩ | ⟨p, h1, h2, h3⟩
  · have e := decodeTurn_of_read (s := s) h1
    have hle : bitPos s ≤ 8 * s.inp.length → bitPos s + digitWidth s.k ≤ 8 * s.inp.length := by omega
    have hlt : 2 ≤ s.k.toNat → bitPos s < bitPos s + digitWidth s.k ∧ bitPos s + digitWidth s.k ≤ 8 * s.inp.length := by
      intro hk
      have := (digitWidth_bounds s.k hk).1
      omega
    have hpos : ∀ t : State, t.inpos = (bitPos s + digitWidth s.k) / 8 →
        t.rdbit = BitVec.ofNat 3 ((bitPos s + digitWidth s.k) % 8) → bitPos t = bitPos s + digitWidth s.k := by
      intro t h1 h2
      simp only [bitPos, h1, h2, BitVec.toNat_ofNat]
      omega
    by_cases hv : s.k.toNat ≤ v
    · rw [if_pos hv] at e
      exact .inl ⟨_, .badDigit, e, ⟨rfl, List.prefix_rfl, rfl⟩, by simp [decodeErrors], rfl, rfl, rfl, rfl,
        fun h => le_of_eq_of_le (hpos _ rfl rfl) (hle h)⟩
    · rw [if_neg hv] at e
      cases hkind : (nodeAt s.node ((nodeAt s.node s.cursor).child v)).kind <;> rw [hkind] at e
      · exact .inr ⟨_, e, ⟨rfl, List.prefix_rfl, rfl⟩, rfl, rfl, rfl, rfl, rfl,
          fun hk => ⟨lt_of_lt_of_eq (hlt hk).1 (hpos _ rfl rfl).symm, le_of_eq_of_le (hpos _ rfl rfl) (hlt hk).2⟩, .inl rfl⟩
      · exact .inr ⟨_, e, ⟨rfl, List.prefix_append _ _, by simp; omega⟩, rfl, rfl, rfl, rfl, rfl,
          fun hk => ⟨lt_of_lt_of_eq (hlt hk).1 (hpos _ rfl rfl).symm, le_of_eq_of_le (hpos _ rfl rfl) (hlt hk).2⟩, .inr ⟨rfl, rfl⟩⟩
      · exact .inl ⟨_, .padLeaf, e, ⟨rfl, List.prefix_rfl, rfl⟩, by simp [decodeErrors], rfl, rfl, rfl, rfl,
          fun h => le_of_eq_of_le (hpos _ rfl rfl) (hle h)⟩
      · exact .inr ⟨_, e, ⟨rfl, List.prefix_rfl, rfl⟩, rfl, rfl, rfl, rfl, rfl,
          fun hk => ⟨lt_of_lt_of_eq (hlt hk).1 (hpos _ rfl rfl).symm, le_of_eq_of_le (hpos _ rfl rfl) (hlt hk).2⟩, .inl rfl⟩
  · have e : decodeTurn s = .error (underrun (atBit s p)) := by
      unfold decodeTurn readDigit; rw [h1]; rfl
    refine .inl ⟨_, .underrun, e, ⟨rfl, List.prefix_rfl, rfl⟩, by simp [decodeErrors], rfl, rfl, rfl, rfl, ?_⟩
    intro h
    have : bitPos (underrun (atBit s p)) = p := bitPos_atBit s p
    rw [this, h3 h]

/-- Whatever the state, a loop that ends in a next state stays inside DECODE's frame and raises only DECODE's errors. -/
theorem decodeLoop_frame (fuel : Nat) : ∀ s t : State, decodeLoop fuel s = .next t → DecodeFrame s t ∧
    (t.errKind = s.errKind ∨ ∃ e ∈ decodeErrors, t.errKind = e.kind ∧ t.errSub = e.sub ∧ t.errOp = 0x31#8) := by
  induction fuel with
  | zero =>
    intro s t h
    rw [decodeLoop] at h
    split at h
    · cases h
    · injection h with h
      subst h
      exact ⟨⟨rfl, List.prefix_rfl, rfl⟩, .inl rfl⟩
  | succ fuel ih =>
    intro s t h
    rw [decodeLoop] at h
    split at h
    · rcases decodeTurn_cases s with ⟨u, e, h1, h2, h3, h4, h5, h6, _⟩ | ⟨u, h1, h2, h3, _⟩
      · rw [h1] at h
        injection h with h
        subst h
        exact ⟨h2, .inr ⟨e, h3, h4, h5, h6⟩⟩
      · rw [h1] at h
        obtain ⟨g1, g2⟩ := ih u t h
        rw [h3] at g2
        exact ⟨h2.trans g1, g2⟩
    · injection h with h
      subst h
      exact ⟨⟨rfl, List.prefix_rfl, rfl⟩, .inl rfl⟩

/-- R288: with a turn for every bit of IN left, and one, the loop ends. It ends at DEC_COUNT = NCOUNT with the cursor at
the root, or by a raise. -/
theorem decodeLoop_cases (fuel : Nat) : ∀ s : State, 2 ≤ s.k.toNat → s.decCount.toNat ≤ s.ncount.toNat →
    (s.decCount = s.ncount → s.cursor = s.root) → 1 ≤ fuel → 8 * s.inp.length < bitPos s + fuel →
    ∃ t, decodeLoop fuel s = .next t ∧ DecodeFrame s t ∧
      (bitPos s ≤ 8 * s.inp.length → bitPos t ≤ 8 * s.inp.length) ∧
      ((t.errKind = s.errKind ∧ t.errSub = s.errSub ∧ t.errOp = s.errOp ∧ t.errInfo = s.errInfo ∧ t.decDone = true ∧
          t.decCount = s.ncount ∧ t.cursor = s.root) ∨
        ∃ e ∈ decodeErrors, t.errKind = e.kind ∧ t.errSub = e.sub ∧ t.errOp = 0x31#8 ∧ t.decDone = s.decDone) := by
  induction fuel with
  | zero =>
    intro s _ _ _ h1
    omega
  | succ fuel ih =>
    intro s hk hle hc _ hf
    by_cases hlt : s.decCount < s.ncount
    · rw [decodeLoop, if_pos hlt]
      rcases decodeTurn_cases s with ⟨t, e, h1, h2, h3, h4, h5, h6, h7, h8⟩ | ⟨t, h1, h2, h3, h4, h5, h6, h7, hb, h10⟩
      · rw [h1]
        exact ⟨t, rfl, h2, h8, .inr ⟨e, h3, h4, h5, h6, h7⟩⟩
      · rw [h1]
        obtain ⟨h8, h9⟩ := hb hk
        have ho := h2.only
        have hk' : t.k = s.k := by rw [ho]
        have hn' : t.ncount = s.ncount := by rw [ho]
        have hi' : t.inp = s.inp := by rw [ho]
        have hr' : t.root = s.root := by rw [ho]
        rw [BitVec.lt_def] at hlt
        have hnlt := s.ncount.isLt
        obtain ⟨u, g1, g2, g3, g4⟩ := ih t (by rw [hk']; exact hk)
          (by
            rw [hn']
            rcases h10 with h | ⟨h, _⟩
            · rw [h]; exact hle
            · rw [h, BitVec.toNat_add, BitVec.toNat_ofNat]; omega)
          (by
            rw [hn', hr']
            rcases h10 with h | ⟨_, h⟩
            · rw [h]; intro e; rw [e] at hlt; omega
            · exact fun _ => h)
          (by omega) (by rw [hi']; omega)
        refine ⟨u, g1, h2.trans g2, fun _ => by have := g3 (by rw [hi']; exact h9); rwa [hi'] at this, ?_⟩
        rw [h3, h4, h5, h6, hn', hr', h7] at g4
        exact g4
    · have he : s.decCount = s.ncount := by
        rw [BitVec.lt_def] at hlt
        exact BitVec.eq_of_toNat_eq (by omega)
      exact ⟨{ s with decDone := true }, by rw [decodeLoop, if_neg hlt], ⟨rfl, List.prefix_rfl, rfl⟩, id,
        .inl ⟨rfl, rfl, rfl, rfl, rfl, he, hc he⟩⟩

end Sys2Proof.Machine
end

