-- ==== Sys2Proof/Laws/Header.lean ====
section
/-! SUPPORT. Laws of the header: the bytes EMITH writes (spec/43_packer.md R150, R75) and the parse of PARSEH
(spec/44_unpacker.md R171, R172). -/

namespace Sys2Proof.Machine

/-! ### The header's bytes -/

/-- The bytes of a header field, as the packer and as the statements write them (R56). -/
theorem leBytes_eq_le32 (v : Word32) : leBytes v = le32 v := rfl

theorem headerBytes_eq (s : State) :
    headerBytes s = s.k :: le32 s.ncount ++ le32 (BitVec.ofNat 32 (ndist s.present)) ++
      entryBytes ((allSyms.filter (symGet s.present)).map (fun x => (x, symGet s.freq x))) := by
  simp only [headerBytes, leBytes_eq_le32, entryBytes, presentSyms, List.flatMap_map]
  simp

@[simp] theorem length_entryBytes (es : List (Sym × Word32)) : (entryBytes es).length = 5 * es.length := by
  induction es with
  | nil => rfl
  | cons e es ih => simp [entryBytes, le32] at ih ⊢; omega

/-- R75: a header is 9 + 5D bytes long. -/
theorem length_headerBytes (s : State) : (headerBytes s).length = 9 + 5 * ndist s.present := by
  have h : (allSyms.filter (symGet s.present)).length = ndist s.present := rfl
  rw [headerBytes_eq]
  simp [le32, h]
  omega

/-- Distinct symbols are at most 256 (R25). -/
theorem entries_le {es : List (Sym × Word32)} (h : (es.map Prod.fst).Nodup) : es.length ≤ 256 := by
  have := (List.Nodup.subperm h (fun x _ => mem_allSyms x)).length_le
  simpa using this

/-! ### A table built entry by entry -/

/-- `FREQ` after entries are put in, in turn. -/
def putFreq (es : List (Sym × Word32)) (f : Vector Word32 256) : Vector Word32 256 :=
  es.foldl (fun f e => symSet f e.1 e.2) f

/-- `PRESENT` after entries are put in, in turn. -/
def putPresent (es : List (Sym × Word32)) (p : Vector Bool 256) : Vector Bool 256 :=
  es.foldl (fun p e => symSet p e.1 true) p

theorem symGet_putPresent (es : List (Sym × Word32)) (p : Vector Bool 256) (x : Sym) :
    symGet (putPresent es p) x = true ↔ symGet p x = true ∨ x ∈ es.map Prod.fst := by
  induction es generalizing p with
  | nil => simp [putPresent]
  | cons e es ih =>
    have : putPresent (e :: es) p = putPresent es (symSet p e.1 true) := rfl
    rw [this, ih, symGet_symSet]
    by_cases h : x = e.1 <;> simp [h]

theorem symGet_putFreq_of_notMem (es : List (Sym × Word32)) (f : Vector Word32 256) (x : Sym)
    (h : x ∉ es.map Prod.fst) : symGet (putFreq es f) x = symGet f x := by
  induction es generalizing f with
  | nil => rfl
  | cons e es ih =>
    simp only [List.map_cons, List.mem_cons, not_or] at h
    have : putFreq (e :: es) f = putFreq es (symSet f e.1 e.2) := rfl
    rw [this, ih _ h.2, symGet_symSet_other _ _ h.1]

theorem symGet_putFreq_of_mem (es : List (Sym × Word32)) (f : Vector Word32 256) (hn : (es.map Prod.fst).Nodup) :
    ∀ e ∈ es, symGet (putFreq es f) e.1 = e.2 := by
  induction es generalizing f with
  | nil => simp
  | cons e es ih =>
    simp only [List.map_cons, List.nodup_cons] at hn
    have : putFreq (e :: es) f = putFreq es (symSet f e.1 e.2) := rfl
    intro e' he'
    rw [this]
    rcases List.mem_cons.mp he' with rfl | he'
    · rw [symGet_putFreq_of_notMem _ _ _ hn.1]; simp
    · exact ih _ hn.2 e' he'

/-! ### Reading the header -/

/-- R56: a field written in four bytes is read back. -/
theorem inLE_le32 (exc : State → State) (v : Word32) (rest : List Byte) (s : State)
    (h : s.inp.drop s.inpos = le32 v ++ rest) : inLE exc 4 s = .ok (v.toNat, { s with inpos := s.inpos + 4 }) := by
  have := inLE_ok exc (le32 v) rest s h
  rw [← leBytes_eq_le32, leValue_leBytes, length_leBytes] at this
  exact this

/-- The byte-boundary step in the statements' words (R172, R176). -/
theorem alignIn_eq_startByte (s : State) : alignIn s = { s with inpos := startByte s, rdbit := 0#3 } := by
  unfold alignIn startByte
  split
  · next h => cases s; simp at h; simp [h]
  · rfl

/-- The state after distinct new entries are parsed. -/
def entered (es : List (Sym × Word32)) (s : State) : State :=
  { s with freq := putFreq es s.freq, present := putPresent es s.present, inpos := s.inpos + 5 * es.length }

/-- R172: distinct new entries at the read position are parsed in turn. -/
theorem parseEntries_entered (es : List (Sym × Word32)) (m : Nat) :
    ∀ (s : State) (tail : List Byte), (es.map Prod.fst).Nodup → (∀ e ∈ es, symGet s.present e.1 = false) →
      s.inp.drop s.inpos = entryBytes es ++ tail →
      parseEntries (es.length + m) s = parseEntries m (entered es s) := by
  induction es with
  | nil => intro s tail _ _ _; simp [entered, putFreq, putPresent]
  | cons e es ih =>
    intro s tail hn hp hin
    simp only [List.map_cons, List.nodup_cons] at hn
    have h1 : s.inp.drop s.inpos = e.1 :: (le32 e.2 ++ (entryBytes es ++ tail)) := by rw [hin]; simp [entryBytes]
    have h2 : s.inp.drop (s.inpos + 1) = le32 e.2 ++ (entryBytes es ++ tail) := by
      have := congrArg List.tail h1; simpa [List.tail_drop] using this
    have h3 : s.inp.drop (s.inpos + 1 + 4) = entryBytes es ++ tail := by
      have := congrArg (List.drop 4) h2
      rw [List.drop_drop] at this
      simpa [le32] using this
    rw [show (e :: es).length + m = (es.length + m) + 1 by simp; omega, parseEntries]
    simp only [inByte_ok _ s _ _ h1, bind, Except.bind]
    rw [if_neg (by simp [hp e (by simp)]), inLE_le32 _ e.2 _ { s with inpos := s.inpos + 1 } h2]
    simp only [BitVec.ofNat_toNat, BitVec.setWidth_eq]
    rw [ih _ tail hn.2 _ (by exact h3)]
    · simp [entered, putFreq, putPresent]; congr 2; omega
    · intro e' he'
      have : e'.1 ≠ e.1 := fun h => hn.1 (h ▸ List.mem_map_of_mem he')
      simp only
      rw [symGet_symSet_other _ _ this]
      exact hp e' (by simp [he'])

/-! ### Every IN -/

/-- How a read of the header ends: it raises HDR_TRUNC, or it answers and moves on. -/
theorem inByte_cases (s : State) :
    (∃ b, inByte hdrTrunc s = .ok (b, { s with inpos := s.inpos + 1 }) ∧ s.inpos + 1 ≤ s.inp.length) ∨
      inByte hdrTrunc s = .error (hdrTrunc s) := by
  rcases Nat.lt_or_ge s.inpos s.inp.length with h | h
  · exact .inl ⟨_, inByte_ok _ s _ _ (List.drop_eq_getElem_cons h), h⟩
  · exact .inr (inByte_end _ s h)

theorem inLE_cases (n : Nat) (s : State) :
    (∃ v, inLE hdrTrunc n s = .ok (v, { s with inpos := s.inpos + n }) ∧ (s.inpos + n ≤ s.inp.length ∨ n = 0)) ∨
      ∃ p, inLE hdrTrunc n s = .error (hdrTrunc { s with inpos := p }) ∧ (s.inpos ≤ s.inp.length → p ≤ s.inp.length) := by
  induction n generalizing s with
  | zero => exact .inl ⟨0, rfl, .inr rfl⟩
  | succ n ih =>
    rw [inLE]
    rcases inByte_cases s with ⟨b, h1, h2⟩ | h1
    · rw [h1]
      simp only [bind, Except.bind]
      rcases ih { s with inpos := s.inpos + 1 } with ⟨v, h3, h4⟩ | ⟨p, h3, h4⟩
      · rw [h3]
        simp only at h4
        exact .inl ⟨b.toNat + 256 * v, by simp [Nat.add_assoc, Nat.add_comm 1], by omega⟩
      · rw [h3]
        exact .inr ⟨p, rfl, fun _ => h4 h2⟩
    · rw [h1]
      exact .inr ⟨s.inpos, rfl, id⟩

/-- The errors PARSEH can raise (R239). -/
def headerErrors : List Err := [.hdrTrunc, .badK, .badNdist, .emptyTable, .dupSymbol]

/-- How PARSEH ends as to the error registers: it raised, or they are as before. -/
def headerError (t : State) : Prop :=
  ∃ e ∈ headerErrors, t.errKind = e.kind ∧ t.errSub = e.sub ∧ t.errOp = 0x30#8

/-- Every parse of entries ends, and keeps an empty-beyond-its-keys table so (R25). -/
theorem parseEntries_cases (d : Nat) (s : State) :
    ∃ t f p i, (parseEntries d s = .ok t ∧ t = { s with freq := f, present := p, inpos := i } ∨
        parseEntries d s = .error t ∧ headerError t ∧
          t = { s with freq := f, present := p, inpos := i, errKind := t.errKind, errSub := t.errSub, errOp := t.errOp,
                       errInfo := t.errInfo }) ∧
      (s.inpos ≤ s.inp.length → i ≤ s.inp.length) ∧
      ((∀ x : Sym, symGet s.present x = false → symGet s.freq x = 0#32) →
        ∀ x : Sym, symGet p x = false → symGet f x = 0#32) := by
  induction d generalizing s with
  | zero => exact ⟨s, s.freq, s.present, s.inpos, .inl ⟨rfl, rfl⟩, id, id⟩
  | succ d ih =>
    rw [parseEntries]
    rcases inByte_cases s with ⟨x, h1, h2⟩ | h1
    · rw [h1]
      simp only [bind, Except.bind]
      by_cases hx : symGet s.present x = true
      · rw [if_pos hx]
        exact ⟨_, s.freq, s.present, s.inpos + 1, .inr ⟨rfl, ⟨.dupSymbol, by simp [headerErrors], rfl, rfl, rfl⟩, rfl⟩,
          fun _ => h2, id⟩
      · rw [if_neg hx]
        rcases inLE_cases 4 { s with inpos := s.inpos + 1 } with ⟨v, h3, h4⟩ | ⟨p, h3, h4⟩
        · rw [h3]
          simp only at h4 ⊢
          obtain ⟨t, f, p, i, h5, h6, h7⟩ := ih { s with
            freq := symSet s.freq x (BitVec.ofNat 32 v), present := symSet s.present x true, inpos := s.inpos + 1 + 4 }
          refine ⟨t, f, p, i, h5, fun _ => h6 (by simp only; omega), fun hc => h7 ?_⟩
          intro y hy
          simp only [symGet_symSet] at hy ⊢
          by_cases e : y = x
          · simp [e] at hy
          · simp only [e, if_false] at hy ⊢; exact hc y hy
        · rw [h3]
          exact ⟨_, s.freq, s.present, p, .inr ⟨rfl, ⟨.hdrTrunc, by simp [headerErrors], rfl, rfl, rfl⟩, rfl⟩,
            fun _ => h4 h2, id⟩
    · rw [h1]
      exact ⟨_, s.freq, s.present, s.inpos, .inr ⟨rfl, ⟨.hdrTrunc, by simp [headerErrors], rfl, rfl, rfl⟩, rfl⟩, id, id⟩

/-- Everything PARSEH can do (R171, R172, R241). It stops in the fixed fields with the table untouched, or it loads a
legal radix and a table, with the validity flags cleared. -/
theorem execParseh_cases (s : State) :
    ∃ t, execParseh s = .next t ∧ (startByte s ≤ s.inp.length → t.inpos ≤ s.inp.length) ∧ t.rdbit = 0#3 ∧
      (headerError t ∨ t.errKind = s.errKind ∧ t.errSub = s.errSub ∧ t.errOp = s.errOp ∧ t.errInfo = s.errInfo) ∧
      ((headerError t ∧ t = { s with
          inpos := t.inpos, rdbit := t.rdbit, errKind := t.errKind, errSub := t.errSub, errOp := t.errOp
          errInfo := t.errInfo }) ∨
        2 ≤ t.k.toNat ∧ (∀ x : Sym, symGet t.present x = false → symGet t.freq x = 0#32) ∧
        t = { s with k := t.k, ncount := t.ncount, freq := t.freq, present := t.present, treeValid := false,
                     codeValid := false, decDone := false, inpos := t.inpos, rdbit := t.rdbit, errKind := t.errKind,
                     errSub := t.errSub, errOp := t.errOp, errInfo := t.errInfo }) := by
  unfold execParseh parseHeader
  rw [alignIn_eq_startByte]
  have hT : ∀ p, headerError (hdrTrunc { s with inpos := p, rdbit := 0#3 }) :=
    fun p => ⟨.hdrTrunc, by simp [headerErrors], rfl, rfl, rfl⟩
  rcases inByte_cases { s with inpos := startByte s, rdbit := 0#3 } with ⟨k, h1, h2⟩ | h1
  · rw [h1]
    simp only [bind, Except.bind]
    by_cases hk : k < 2#8
    · rw [if_pos hk]
      have hE : headerError (raise .badK Opcode.parseh.code k.toNat { s with inpos := startByte s + 1, rdbit := 0#3 }) :=
        ⟨.badK, by simp [headerErrors], rfl, rfl, rfl⟩
      exact ⟨_, rfl, fun _ => h2, rfl, .inl hE, .inl ⟨hE, rfl⟩⟩
    · rw [if_neg hk]
      rcases inLE_cases 4 { s with inpos := startByte s + 1, rdbit := 0#3 } with ⟨n, h3, h4⟩ | ⟨p, h3, h4⟩
      · rw [h3]
        simp only at h4 ⊢
        rcases inLE_cases 4 { s with inpos := startByte s + 1 + 4, rdbit := 0#3 } with ⟨d, h5, h6⟩ | ⟨p, h5, h6⟩
        · rw [h5]
          simp only at h6 ⊢
          by_cases hd : 256 < d
          · rw [if_pos hd]
            have hE : headerError (raise .badNdist Opcode.parseh.code d
              { s with inpos := startByte s + 1 + 4 + 4, rdbit := 0#3 }) := ⟨.badNdist, by simp [headerErrors], rfl, rfl, rfl⟩
            exact ⟨_, rfl, fun _ => by simp; omega, rfl, .inl hE, .inl ⟨hE, rfl⟩⟩
          · rw [if_neg hd]
            by_cases he : d = 0 ∧ 0 < n
            · rw [if_pos he]
              have hE : headerError (raise .emptyTable Opcode.parseh.code n
                { s with inpos := startByte s + 1 + 4 + 4, rdbit := 0#3 }) :=
                ⟨.emptyTable, by simp [headerErrors], rfl, rfl, rfl⟩
              exact ⟨_, rfl, fun _ => by simp; omega, rfl, .inl hE, .inl ⟨hE, rfl⟩⟩
            · rw [if_neg he]
              have hk2 : 2 ≤ k.toNat := by simp only [BitVec.lt_def, BitVec.toNat_ofNat] at hk; omega
              obtain ⟨t, f, p, i, h7, h8, h9⟩ := parseEntries_cases d
                (startTable k n { s with inpos := startByte s + 1 + 4 + 4, rdbit := 0#3 })
              have h9' := h9 (fun x _ => symGet_replicate 0#32 x)
              have h8' : i ≤ s.inp.length := h8 (by show startByte s + 1 + 4 + 4 ≤ s.inp.length; omega)
              rcases h7 with ⟨h7, rfl⟩ | ⟨h7, hE, ht⟩
              · rw [h7]
                exact ⟨_, rfl, fun _ => h8', rfl, .inr ⟨rfl, rfl, rfl, rfl⟩, .inr ⟨hk2, h9', rfl⟩⟩
              · rw [h7]
                refine ⟨t, rfl, fun _ => by rw [ht]; exact h8', by rw [ht]; rfl, .inl hE, .inr ⟨?_, ?_, ?_⟩⟩
                · rw [ht]; exact hk2
                · intro x hx; rw [ht] at hx ⊢; exact h9' x hx
                · rw [ht]; rfl
        · rw [h5]
          exact ⟨_, rfl, fun _ => h6 (by simp only; omega), rfl, .inl (hT p), .inl ⟨hT p, rfl⟩⟩
      · rw [h3]
        exact ⟨_, rfl, fun _ => h4 h2, rfl, .inl (hT p), .inl ⟨hT p, rfl⟩⟩
  · rw [h1]
    exact ⟨_, rfl, id, rfl, .inl (hT _), .inl ⟨hT _, rfl⟩⟩

end Sys2Proof.Machine
end

