-- ==== Sys2Proof/Laws/Step.lean ====
section
/-! SUPPORT. Laws of the step and of a host that issues a program: what each move of the host does, and how a program's
run splits at its first command. -/

namespace Sys2Proof.Machine

theorem step_idle {s : State} (h : s.host = []) : step s = .next s := by simp [step, h]

theorem step_host {s : State} {m : HostMove} {rest : List HostMove} (h : s.host = m :: rest) :
    step s = hostMove m { s with host := rest } := by simp [step, h]

/-- R202: with an error pending a word is dropped, unless it is the exact SRST word. -/
theorem dispatch_pending {c : CmdWord} {s : State} (h : s.errKind ≠ ErrKind.none) :
    dispatch c s = if c = srstWord then .next (resetCore s) else .next s := by
  simp [dispatch, errPending, h, exec, execSrst]

/-- R200: with no error pending a word that decodes is executed. -/
theorem dispatch_ok {c : CmdWord} {s : State} {i : Instr} (h : s.errKind = ErrKind.none) (hd : decode c = .ok i) :
    dispatch c s = exec i { s with inFixed := s.inFixed || readsIn i } := by
  simp [dispatch, errPending, h, hd]

/-- R200, R84: with no error pending a word that does not decode raises. -/
theorem dispatch_error {c : CmdWord} {s : State} {e : DecodeError} (h : s.errKind = ErrKind.none)
    (hd : decode c = .error e) : dispatch c s = .next (raiseDecode e c s) := by
  simp [dispatch, errPending, h, hd]

/-- Everything a dispatch can be. -/
theorem dispatch_cases (c : CmdWord) (s : State) :
    (s.errKind ≠ ErrKind.none ∧ c = srstWord ∧ dispatch c s = .next (resetCore s)) ∨
      (s.errKind ≠ ErrKind.none ∧ c ≠ srstWord ∧ dispatch c s = .next s) ∨
      (s.errKind = ErrKind.none ∧ ∃ e, decode c = .error e ∧ dispatch c s = .next (raiseDecode e c s)) ∨
      (s.errKind = ErrKind.none ∧ ∃ i, decode c = .ok i ∧
        dispatch c s = exec i { s with inFixed := s.inFixed || readsIn i }) := by
  by_cases h : s.errKind = ErrKind.none
  · cases hd : decode c with
    | error e => exact .inr (.inr (.inl ⟨h, e, rfl, dispatch_error h hd⟩))
    | ok i => exact .inr (.inr (.inr ⟨h, i, rfl, dispatch_ok h hd⟩))
  · by_cases hc : c = srstWord
    · exact .inl ⟨h, hc, by rw [dispatch_pending h, if_pos hc]⟩
    · exact .inr (.inl ⟨h, hc, by rw [dispatch_pending h, if_neg hc]⟩)

/-! ### Runs -/

theorem run_succ {M : Host.Core} {s t : M.State} (n : Nat) (h : M.step s = .next t) : M.run (n + 1) s = M.run n t := by
  simp [Host.Core.run, h]

/-- A run splits where its first part ends. -/
theorem run_add {M : Host.Core} {s t : M.State} (a b : Nat) (h : M.run a s = .next t) : M.run (a + b) s = M.run b t := by
  induction a generalizing s with
  | zero =>
    simp only [Host.Core.run] at h
    injection h with h
    rw [h, Nat.zero_add]
  | succ a ih =>
    rw [show a + 1 + b = (a + b) + 1 by omega]
    simp only [Host.Core.run] at h ⊢
    cases hs : M.step s with
    | next u => rw [hs] at h; exact ih h
    | fault r => rw [hs] at h; cases h
    | refused r => rw [hs] at h; cases h

/-- A program's run, at its first command. -/
theorem run_cons {s t : State} {n : Nat} {c : CmdWord} {rest : List HostMove} {i : Instr}
    (h : s.host = .command c :: rest) (he : s.errKind = ErrKind.none) (hd : decode c = .ok i)
    (ht : exec i { s with host := rest, inFixed := s.inFixed || readsIn i } = .next t) :
    Host.Core.run Sys2Proof.core (n + 1) s = Host.Core.run Sys2Proof.core n t := by
  have hs : Sys2Proof.core.step s = .next t :=
    (step_host h).trans ((dispatch_ok (s := { s with host := rest }) he hd).trans ht)
  exact run_succ n hs

end Sys2Proof.Machine
end

