-- ==== Sys2Proof/Laws/Effects.lean ====
section
/-! SUPPORT. Everything a command can do, said once: the inversion of `exec` that the rules over all commands
(spec/10_state.md R28, R33, spec/60_exceptions.md R239 to R241) and the invariant are derived from. -/

namespace Sys2Proof.Machine

/-! ### Commands whose checks pass -/

theorem lt_two (k : BitVec 8) : k < 2#8 ↔ k.toNat < 2 := by simp [BitVec.lt_def]

theorem exec_build {s : State} (hk : 2 ≤ s.k.toNat) {t : Tree} (h : buildTree s.k s.freq s.present = .ok t) :
    exec .build s = .next { s with
      node := t.node, nnodes := t.nnodes, nleaf := t.nleaf, npad := t.npad, root := t.root
      treeValid := true, codeValid := false, decDone := false } := by
  simp only [exec, execBuild, lt_two, h]
  rw [if_neg (by omega)]

theorem exec_gen {s : State} (hv : s.treeValid = true) {r : CodeRom} (h : genCodes s.k s.node s.root = .ok r) :
    exec .gen s = .next { s with cvalid := r.cvalid, clen := r.clen, cdig := r.cdig, codeValid := true } := by
  simp [exec, execGen, hv, h]

theorem decodeStart_fields (s : State) : decodeStart s = { s with
    decCount := 0#32, decDone := false, inpos := startByte s, rdbit := 0#3, cursor := s.root } := by
  unfold decodeStart alignIn startByte
  simp only
  split
  · next h => cases s; simp at h; simp [h]
  · rfl

theorem exec_decode {s : State} (h : s.treeValid = true) (hb : s.boff = 0#3) :
    exec .decode s =
      if s.ncount = 0#32 then .next { decodeStart s with decDone := true }
      else if s.root = Config.nil then .next (raise .emptyTable Opcode.decode.code s.ncount.toNat (decodeStart s))
      else if (nodeAt s.node s.root).kind = NodeKind.leaf then .next (decodeSingle (decodeStart s))
      else decodeLoop (8 * s.inp.length + 1) (decodeStart s) := by
  simp only [exec, execDecode]
  rw [if_neg (by simp [h]), if_neg (by simp [hb]), decodeStart_fields]

/-! ### Every command, every state -/

/-- A raise of a command: one of R239's errors, and nothing but the error registers written. -/
def raises (i : Instr) (s t : State) : Prop := ∃ e ∈ raisable i, ∃ n, t = raise e i.opcode.code n s

/-- R28: K, NCOUNT and the table written, the three flags cleared. -/
def writesTable (s t : State) : Prop :=
  t = { s with k := t.k, ncount := t.ncount, freq := t.freq, present := t.present, treeValid := false,
               codeValid := false, decDone := false }

/-- OUT appended to, and the packer's registers. -/
def packs (s t : State) : Prop :=
  s.out <+: t.out ∧ t = { s with acc := t.acc, boff := t.boff, out := t.out, outcnt := t.outcnt }

/-- DECODE stays in its frame and raises only its errors, whatever the state. -/
theorem exec_decode_cases {s t : State} (h : exec .decode s = .next t) : DecodeFrame s t ∧
    (t.errKind = s.errKind ∨
      ∃ e ∈ raisable .decode, t.errKind = e.kind ∧ t.errSub = e.sub ∧ t.errOp = 0x31#8) := by
  by_cases hv : s.treeValid = false
  · simp only [exec, execDecode] at h
    rw [if_pos hv] at h
    injection h with h
    subst h
    exact ⟨⟨rfl, List.prefix_rfl, rfl⟩, .inr ⟨.noTree, by simp [raisable], rfl, rfl, rfl⟩⟩
  · have hv : s.treeValid = true := by simpa using hv
    by_cases hb : s.boff = 0#3
    · rw [exec_decode hv hb] at h
      have hF : DecodeFrame s (decodeStart s) := by rw [decodeStart_fields]; exact ⟨rfl, List.prefix_rfl, rfl⟩
      have hk : (decodeStart s).errKind = s.errKind := by rw [decodeStart_fields]
      split at h
      · injection h with h
        subst h
        exact ⟨hF.trans ⟨rfl, List.prefix_rfl, rfl⟩, .inl hk⟩
      · split at h
        · injection h with h
          subst h
          exact ⟨hF.trans ⟨rfl, List.prefix_rfl, rfl⟩, .inr ⟨.emptyTable, by simp [raisable], rfl, rfl, rfl⟩⟩
        · split at h
          · injection h with h
            subst h
            unfold decodeSingle
            rw [outBytes_eq]
            exact ⟨hF.trans ⟨rfl, List.prefix_append _ _, by simp; omega⟩, .inl hk⟩
          · obtain ⟨g1, g2⟩ := decodeLoop_frame _ _ _ h
            refine ⟨hF.trans g1, ?_⟩
            rcases g2 with g2 | ⟨e, he, g2⟩
            · exact .inl (g2.trans hk)
            · refine .inr ⟨e, ?_, g2⟩
              simp only [decodeErrors, List.mem_cons, List.not_mem_nil, or_false] at he
              rcases he with rfl | rfl | rfl <;> simp [raisable]
    · simp only [exec, execDecode] at h
      rw [if_neg (by simp [hv]), if_pos hb] at h
      injection h with h
      subst h
      exact ⟨⟨rfl, List.prefix_rfl, rfl⟩, .inr ⟨.misaligned, by simp [raisable], rfl, rfl, rfl⟩⟩

/-- The inversion of `exec`: if a command answers a next state, that state is one of these. -/
theorem exec_cases {i : Instr} {s t : State} (h : exec i s = .next t) :
    t = s ∨ raises i s t ∨
      ((i = .clrf ∨ (∃ k, i = .setk k) ∨ (∃ x, i = .cnt x) ∨ ∃ x f, i = .ldf x f) ∧ writesTable s t) ∨
      (∃ n, i = .setn n ∧ t = { s with ncount := n, decDone := false }) ∨
      (i = .build ∧ 2 ≤ s.k.toNat ∧ ∃ b, buildTree s.k s.freq s.present = .ok b ∧ t = { s with
        node := b.node, nnodes := b.nnodes, nleaf := b.nleaf, npad := b.npad, root := b.root
        treeValid := true, codeValid := false, decDone := false }) ∨
      (i = .gen ∧ s.treeValid = true ∧ ∃ r, genCodes s.k s.node s.root = .ok r ∧
        t = { s with cvalid := r.cvalid, clen := r.clen, cdig := r.cdig, codeValid := true }) ∨
      (i = .emith ∧ t = { s with out := s.out ++ headerBytes s, outcnt := s.outcnt + (headerBytes s).length }) ∨
      (((∃ x, i = .enc x) ∨ i = .flush) ∧ packs s t) ∨
      (i = .parseh ∧ execParseh s = .next t) ∨ (i = .decode ∧ exec .decode s = .next t) ∨
      (i = .srst ∧ t = resetCore s) := by
  cases i with
  | nop => injection h with h; exact .inl h.symm
  | setk k =>
    simp only [exec, execSetk] at h
    split at h <;> injection h with h
    · exact .inr (.inl ⟨.badK, by simp [raisable], _, h.symm⟩)
    · subst h; exact .inr (.inr (.inl ⟨.inr (.inl ⟨k, rfl⟩), rfl⟩))
  | clrf => injection h with h; subst h; exact .inr (.inr (.inl ⟨.inl rfl, rfl⟩))
  | cnt x =>
    simp only [exec, execCnt] at h
    split at h <;> injection h with h
    · exact .inr (.inl ⟨.countOverflow, by simp [raisable], _, h.symm⟩)
    · subst h; exact .inr (.inr (.inl ⟨.inr (.inr (.inl ⟨x, rfl⟩)), rfl⟩))
  | ldf x f =>
    simp only [exec, execLdf] at h
    split at h <;> injection h with h
    · exact .inr (.inl ⟨.dupSymbol, by simp [raisable], _, h.symm⟩)
    · subst h; exact .inr (.inr (.inl ⟨.inr (.inr (.inr ⟨x, f, rfl⟩)), rfl⟩))
  | setn n => injection h with h; exact .inr (.inr (.inr (.inl ⟨n, rfl, h.symm⟩)))
  | build =>
    simp only [exec, execBuild] at h
    split at h
    · injection h with h; exact .inr (.inl ⟨.badK, by simp [raisable], _, h.symm⟩)
    · next hk =>
      split at h
      · cases h
      · next b hb =>
        injection h with h
        exact .inr (.inr (.inr (.inr (.inl ⟨rfl, by rw [lt_two] at hk; omega, b, hb, h.symm⟩))))
  | gen =>
    simp only [exec, execGen] at h
    split at h
    · next hv =>
      split at h
      · cases h
      · next r hr =>
        injection h with h
        exact .inr (.inr (.inr (.inr (.inr (.inl ⟨rfl, hv, r, hr, h.symm⟩)))))
    · injection h with h; exact .inr (.inl ⟨.noTree, by simp [raisable], _, h.symm⟩)
  | emith =>
    simp only [exec, execEmith] at h
    split at h
    · injection h with h; exact .inr (.inl ⟨.misaligned, by simp [raisable], _, h.symm⟩)
    · split at h <;> injection h with h
      · exact .inr (.inl ⟨.badK, by simp [raisable], _, h.symm⟩)
      · rw [outBytes_eq] at h; exact .inr (.inr (.inr (.inr (.inr (.inr (.inl ⟨rfl, h.symm⟩))))))
  | enc x =>
    simp only [exec, execEnc] at h
    split at h
    · injection h with h; exact .inr (.inl ⟨.noCodes, by simp [raisable], _, h.symm⟩)
    · split at h <;> injection h with h
      · exact .inr (.inl ⟨.noCode, by simp [raisable], _, h.symm⟩)
      · obtain ⟨a, b, o, n, hp⟩ := putBits_frame (codeBits s x) s
        rw [hp] at h
        subst h
        exact .inr (.inr (.inr (.inr (.inr (.inr (.inr (.inl
          ⟨.inl ⟨x, rfl⟩, List.prefix_append _ _, rfl⟩)))))))
  | flush =>
    simp only [exec, execFlush] at h
    split at h <;> injection h with h
    · subst h
      exact .inr (.inr (.inr (.inr (.inr (.inr (.inr (.inl ⟨.inr rfl, List.prefix_append _ _, rfl⟩)))))))
    · exact .inl h.symm
  | parseh => exact .inr (.inr (.inr (.inr (.inr (.inr (.inr (.inr (.inl ⟨rfl, h⟩))))))))
  | decode => exact .inr (.inr (.inr (.inr (.inr (.inr (.inr (.inr (.inr (.inl ⟨rfl, h⟩)))))))))
  | srst => injection h with h; exact .inr (.inr (.inr (.inr (.inr (.inr (.inr (.inr (.inr (.inr ⟨rfl, h.symm⟩)))))))))

/-- Every command keeps the arena in its canonical form (R33, log 4). -/
theorem exec_arena_wf {i : Instr} {s t : State} (h : exec i s = .next t) (hw : Arena.wf s.node = true) :
    Arena.wf t.node = true := by
  rcases exec_cases h with rfl | ⟨e, _, n, rfl⟩ | ⟨_, ht⟩ | ⟨n, _, rfl⟩ | ⟨_, hk, b, hb, rfl⟩ | ⟨_, _, r, _, rfl⟩ |
    ⟨_, rfl⟩ | ⟨_, _, ht⟩ | ⟨_, h⟩ | ⟨_, h⟩ | ⟨_, rfl⟩
  · exact hw
  · exact hw
  · rw [ht]; exact hw
  · exact hw
  · exact (buildTree_wf hk hb).2
  · exact hw
  · exact hw
  · rw [ht]; exact hw
  · obtain ⟨u, h1, _, _, _, h5⟩ := execParseh_cases s
    rw [h1] at h
    injection h with h
    subst h
    rcases h5 with ⟨_, h5⟩ | ⟨_, _, h5⟩ <;> rw [h5] <;> exact hw
  · rw [(exec_decode_cases h).1.only]; exact hw
  · rfl

/-! ### The invariant under the updates no rule of it reads -/

theorem Inv.raised {s : State} (I : Inv s) (e : Err) (op : BitVec 8) (n : Nat) : Inv (raise e op n s) :=
  ⟨I.radix, I.table, I.tree, I.codes, I.done, I.arena, I.rom, I.acc, I.out, I.position, .inr ⟨e, rfl, rfl⟩⟩

theorem Inv.hosted {s : State} (I : Inv s) (h : List HostMove) : Inv { s with host := h } :=
  ⟨I.radix, I.table, I.tree, I.codes, I.done, I.arena, I.rom, I.acc, I.out, I.position, I.error⟩

theorem Inv.fixed {s : State} (I : Inv s) (b : Bool) : Inv { s with inFixed := s.inFixed || b } := by
  refine ⟨I.radix, I.table, I.tree, I.codes, I.done, I.arena, I.rom, I.acc, I.out,
    ⟨I.position.1, I.position.2.1, fun h => I.position.2.2 ?_⟩, I.error⟩
  have h : (s.inFixed || b) = false := h
  cases hh : s.inFixed <;> simp_all

/-- R28: a write of the table keeps the invariant. -/
theorem Inv.cleared {s t : State} (I : Inv s) (hr : radixLegal t) (ht : tableClean t) (h : writesTable s t) : Inv t := by
  rw [h] at hr ht ⊢
  exact ⟨hr, ht, fun h => (by cases h), fun h => (by cases h), fun h => (by cases h), I.arena, I.rom, I.acc, I.out, I.position,
    I.error⟩

end Sys2Proof.Machine
end

