-- ==== Sys2Proof/Laws/PerInstr.lean ====
section
/-! SUPPORT. A law of every command as syntax: its word has the layout of spec/30_encoding.md R70 and R72. -/

namespace Sys2Proof.Laws.Encoded

/-- R70, R72, R85: the word of a command has its opcode at 7:0, its operands at A8 and A32, and 0 in RSVD and in every
field its row of R72 leaves unused. -/
def Statement (i : Instr) : Prop :=
  Cmd.opc (encode i) = i.opcode.code ∧ Cmd.a8 (encode i) = i.a8 ∧ Cmd.a32 (encode i) = i.a32 ∧
    fieldsBad i.opcode (encode i) = false

/-- The layout, for a command that uses the fields its operands stand in. -/
theorem of_fields (i : Instr) (h8 : i.opcode.usesA8 = true ∨ i.a8 = 0#8) (h32 : i.opcode.usesA32 = true ∨ i.a32 = 0#32) :
    Statement i := by
  unfold Statement fieldsBad encode
  rw [Cmd.opc_word, Cmd.a8_word, Cmd.rsvd_word, Cmd.a32_word]
  rcases h8 with h8 | h8 <;> rcases h32 with h32 | h32 <;> simp [h8, h32]

theorem nop : Statement .nop := of_fields _ (.inr rfl) (.inr rfl)
theorem setk (k : BitVec 8) : Statement (.setk k) := of_fields _ (.inl rfl) (.inr rfl)
theorem clrf : Statement .clrf := of_fields _ (.inr rfl) (.inr rfl)
theorem cnt (s : Sym) : Statement (.cnt s) := of_fields _ (.inl rfl) (.inr rfl)
theorem ldf (s : Sym) (f : Word32) : Statement (.ldf s f) := of_fields _ (.inl rfl) (.inl rfl)
theorem setn (n : Word32) : Statement (.setn n) := of_fields _ (.inr rfl) (.inl rfl)
theorem build : Statement .build := of_fields _ (.inr rfl) (.inr rfl)
theorem gen : Statement .gen := of_fields _ (.inr rfl) (.inr rfl)
theorem emith : Statement .emith := of_fields _ (.inr rfl) (.inr rfl)
theorem enc (s : Sym) : Statement (.enc s) := of_fields _ (.inl rfl) (.inr rfl)
theorem flush : Statement .flush := of_fields _ (.inr rfl) (.inr rfl)
theorem parseh : Statement .parseh := of_fields _ (.inr rfl) (.inr rfl)
theorem decode : Statement .decode := of_fields _ (.inr rfl) (.inr rfl)
theorem srst : Statement .srst := of_fields _ (.inr rfl) (.inr rfl)

end Sys2Proof.Laws.Encoded
end

