-- ==== Sys2Proof/WellFormed.lean ====
section
/-! DEFINITION. Well-formed commands: those the assembler of spec/30_encoding.md R85 emits. The operand ranges of
R70 and R71 (k and s in 8 bits, f and n in 32) are the widths of `Instr`'s operand types, so one check is left: the
radix. The DECODER admits more: `SETK 0` and `SETK 1` are legal words, and CORE raises CONFIG BAD_K for them (R90).
No meaning and no statement shuts them out. -/

namespace Sys2Proof

/-- R85: "It also rejects k < 2." -/
def Instr.wf : Instr → Bool
  | .nop => true
  | .setk k => decide (2#8 ≤ k)
  | .clrf => true
  | .cnt _ => true
  | .ldf _ _ => true
  | .setn _ => true
  | .build => true
  | .gen => true
  | .emith => true
  | .enc _ => true
  | .flush => true
  | .parseh => true
  | .decode => true
  | .srst => true

end Sys2Proof
end

