-- ==== Sys2Proof/Tests/Slice0.lean ====
section
/-! SUPPORT. Tests and witnesses. Every expected value is written out from spec/95_test_vectors.md (its vector's name
stands in the docstring) or from the cited rule. -/

namespace Sys2Proof.Tests

set_option Elab.async false

open Sys2Proof Sys2Proof.Machine

/-- The next state of an answer. -/
def after (a : Answer) : Option State :=
  match a with
  | .next t => some t
  | _ => none

/-- ERR of a state: (ERRKIND, ERRSUB, ERROP, ERRINFO). -/
def err (t : State) : ErrKind × BitVec 8 × BitVec 8 × Word32 := (t.errKind, t.errSub, t.errOp, t.errInfo)

/-- A result is a given one. -/
def isOk {ε α : Type} [DecidableEq α] (r : Except ε α) (a : α) : Bool :=
  match r with
  | .ok b => decide (b = a)
  | .error _ => false

theorem of_isOk {ε α : Type} [DecidableEq α] {r : Except ε α} {a : α} (h : isOk r a = true) : r = .ok a := by
  cases r <;> simp_all [isOk]

/-- The host's next move issues this word. -/
def issuing (c : CmdWord) (s : State) : State := { s with host := [.command c] }

/-! ### Small states -/

/-- V-E1's end state: ILLEGAL_OPCODE pending. -/
def failed : State := { State.reset with errKind := .protocol, errSub := 1#8, errOp := 0x06#8, errInfo := 6#32 }

/-- Reset, with K, NCOUNT and the table of a list of entries. -/
def tabled (k : BitVec 8) (n : Word32) (es : List (Sym × Word32)) : State :=
  { State.reset with
    k := k, ncount := n
    freq := putFreq es (Vector.replicate 256 0#32), present := putPresent es (Vector.replicate 256 false) }

theorem tabled_clean (k : BitVec 8) (n : Word32) (es : List (Sym × Word32)) : tableClean (tabled k n es) := by
  intro x h
  have hx : x ∉ es.map Prod.fst := fun hm => by
    have := (symGet_putPresent es (Vector.replicate 256 false) x).mpr (.inr hm)
    rw [show symGet (putPresent es (Vector.replicate 256 false)) x = false from h] at this
    cases this
  exact (symGet_putFreq_of_notMem es _ x hx).trans (symGet_replicate _ _)

/-- The table of "mississippi": i:4 m:1 p:2 s:4 (V-T3). -/
def missEntries : List (Sym × Word32) := [(0x69#8, 4#32), (0x6D#8, 1#32), (0x70#8, 2#32), (0x73#8, 4#32)]

/-- "mississippi" counted, K = 3. -/
def miss : State := tabled 3#8 11#32 missEntries

/-- The arena of V-T3: 0=LEAF('i',4,105) 1=LEAF('m',1,109) 2=LEAF('p',2,112) 3=LEAF('s',4,115) 4=PAD(256)
5=INT(3,109,[4,1,2]) 6=INT(11,105,[5,0,3]). -/
def missArena : List Node :=
  [⟨.leaf, 0x69#8, 105#9, 4#40, 0#8, []⟩, ⟨.leaf, 0x6D#8, 109#9, 1#40, 0#8, []⟩,
   ⟨.leaf, 0x70#8, 112#9, 2#40, 0#8, []⟩, ⟨.leaf, 0x73#8, 115#9, 4#40, 0#8, []⟩,
   ⟨.pad, 0#8, 256#9, 0#40, 0#8, []⟩, ⟨.int, 0#8, 109#9, 3#40, 3#8, [4#9, 1#9, 2#9]⟩,
   ⟨.int, 0#8, 105#9, 11#40, 3#8, [5#9, 0#9, 3#9]⟩]

/-- "mississippi" after BUILD (V-T3). -/
def missBuilt : State :=
  { miss with node := missArena, nnodes := 7#10, nleaf := 5#10, npad := 1#8, root := 6#9, treeValid := true }

/-- The codes of V-G3: m = "01", p = "02", i = "1", s = "2". -/
def missRom : CodeRom :=
  (((CodeRom.clear.put 0x6D#8 [0#8, 1#8]).put 0x70#8 [0#8, 2#8]).put 0x69#8 [1#8]).put 0x73#8 [2#8]

/-- "mississippi" after GEN (V-G3). -/
def missCoded : State :=
  { missBuilt with cvalid := missRom.cvalid, clen := missRom.clen, cdig := missRom.cdig, codeValid := true }

theorem test_tree_V_T3 : buildTree miss.k miss.freq miss.present = .ok ⟨missArena, 7#10, 5#10, 1#8, 6#9⟩ :=
  of_isOk (by decide +kernel)

theorem test_codes_V_G3 : genCodes missBuilt.k missBuilt.node missBuilt.root = .ok missRom := by rfl


/-- A state as GEN leaves it meets the invariant, if BUILD and GEN made it of its table. -/
theorem inv_of_gen {s : State} {r : CodeRom} (hk : 2 ≤ s.k.toNat) (hc : tableClean s)
    (ht : buildTree s.k s.freq s.present = .ok ⟨s.node, s.nnodes, s.nleaf, s.npad, s.root⟩)
    (hr : genCodes s.k s.node s.root = .ok r) (hrom : s.cvalid = r.cvalid ∧ s.clen = r.clen ∧ s.cdig = r.cdig)
    (hd : s.decDone = false) (ho : s.outcnt = s.out.length) (ha : s.acc = 0#8) (hp : s.inpos = 0 ∧ s.rdbit = 0#3)
    (he : errorLegal s) (hv : s.treeValid = true) : Inv s := by
  obtain ⟨h1, h2, h3⟩ := hrom
  obtain ⟨r', hr', C⟩ := genCodes_spec hk ht
  have e : r' = r := by
    have hr' : genCodes s.k s.node s.root = .ok r' := hr'
    rw [hr] at hr'
    injection hr' with hr'
    exact hr'.symm
  subst e
  have hw := buildTree_wf hk ht
  refine ⟨.inr (by simpa [BitVec.le_def] using hk), hc, fun _ => ⟨by simpa [BitVec.le_def] using hk, ht⟩,
    fun _ => ⟨hv, by rw [h1, h2, h3]; exact hr⟩, fun h => (by rw [hd] at h; cases h), ⟨hw.2, hw.1⟩, fun x => ?_,
    fun i _ => by simp [ha], ho, ⟨by omega, fun h => absurd hp.2 h, fun _ => hp⟩, he⟩
  rw [h1, h2, h3]
  refine ⟨?_, fun hx => (C.none x hx).1⟩
  cases hx : symGet r'.cvalid x with
  | true =>
    obtain ⟨_, _, _, _, h4, h5⟩ := C.path x hx
    rw [h5]
    simp
    omega
  | false => rw [(C.none x hx).1, (C.none x hx).2]; rfl

/-- "mississippi" coded, with a payload in IN. -/
def missWith (bytes : List Byte) : State := { missCoded with inp := bytes }

theorem miss_inv (bytes : List Byte) : Inv (missWith bytes) :=
  inv_of_gen (show 2 ≤ (3#8).toNat by decide) (tabled_clean 3#8 11#32 missEntries) test_tree_V_T3 test_codes_V_G3 ⟨rfl, rfl, rfl⟩ rfl rfl rfl
    ⟨rfl, rfl⟩ (.inl ⟨rfl, rfl, rfl, rfl⟩) rfl

/-- "aaaa" after GEN, K = 2 (V-T2, V-G2). -/
def aCoded : State :=
  { tabled 2#8 4#32 [(0x61#8, 4#32)] with
    node := [⟨.leaf, 0x61#8, 97#9, 4#40, 0#8, []⟩], nnodes := 1#10, nleaf := 1#10, npad := 0#8, root := 0#9
    treeValid := true, codeValid := true
    cvalid := (CodeRom.clear.put 0x61#8 []).cvalid, clen := (CodeRom.clear.put 0x61#8 []).clen
    cdig := (CodeRom.clear.put 0x61#8 []).cdig }

theorem test_tree_V_T2 : buildTree aCoded.k aCoded.freq aCoded.present =
    .ok ⟨[⟨.leaf, 0x61#8, 97#9, 4#40, 0#8, []⟩], 1#10, 1#10, 0#8, 0#9⟩ := of_isOk (by decide +kernel)

theorem a_inv : Inv aCoded :=
  inv_of_gen (r := CodeRom.clear.put 0x61#8 []) (by decide) (tabled_clean 2#8 4#32 [(0x61#8, 4#32)]) test_tree_V_T2 rfl
    ⟨rfl, rfl, rfl⟩ rfl rfl rfl ⟨rfl, rfl⟩ (.inl ⟨rfl, rfl, rfl, rfl⟩) rfl

/-- The header of V-S5. -/
def missHeader : List Byte :=
  [0x03#8, 0x0B#8, 0#8, 0#8, 0#8, 0x04#8, 0#8, 0#8, 0#8, 0x69#8, 4#8, 0#8, 0#8, 0#8, 0x6D#8, 1#8, 0#8, 0#8, 0#8,
   0x70#8, 2#8, 0#8, 0#8, 0#8, 0x73#8, 4#8, 0#8, 0#8, 0#8]

/-- The payload of V-S5. -/
def missPayload : List Byte := [0x16#8, 0x9A#8, 0x48#8, 0x90#8]

/-- "mississippi". -/
def missText : List Sym :=
  [0x6D#8, 0x69#8, 0x73#8, 0x73#8, 0x69#8, 0x73#8, 0x73#8, 0x69#8, 0x70#8, 0x70#8, 0x69#8]

/-- Reset, with bytes in IN. -/
def reading (bytes : List Byte) : State := { State.reset with inp := bytes }

/-! ### Well-formedness: the assembler rejects k < 2 (R85) -/

theorem test_wf_refuses_setk_0 : (Instr.setk 0#8).wf = false := by decide
theorem test_wf_refuses_setk_1 : (Instr.setk 1#8).wf = false := by decide
theorem test_wf_takes_setk_2 : (Instr.setk 2#8).wf = true := by decide
theorem test_wf_takes_setk_255 : (Instr.setk 255#8).wf = true := by decide

/-! ### Decoding: words written out from R70 and R72 (A32, RSVD, A8, OPC) -/

theorem test_decode_nop : decode (0x00000000#32 ++ 0x0000#16 ++ 0x00#8 ++ 0x00#8) = .ok .nop := by decide
theorem test_decode_setk : decode (0x00000000#32 ++ 0x0000#16 ++ 0xFF#8 ++ 0x01#8) = .ok (.setk 255#8) := by decide
theorem test_decode_clrf : decode (0x00000000#32 ++ 0x0000#16 ++ 0x00#8 ++ 0x02#8) = .ok .clrf := by decide
theorem test_decode_cnt : decode (0x00000000#32 ++ 0x0000#16 ++ 0x80#8 ++ 0x03#8) = .ok (.cnt 128#8) := by decide
theorem test_decode_ldf : decode 0xFFFFFFFF00000004#64 = .ok (.ldf 0#8 0xFFFFFFFF#32) := by decide
theorem test_decode_ldf_operands : decode 0x123456780000A504#64 = .ok (.ldf 0xA5#8 0x12345678#32) := by decide
theorem test_decode_setn : decode (0x80000001#32 ++ 0x0000#16 ++ 0x00#8 ++ 0x05#8) = .ok (.setn 0x80000001#32) := by decide
theorem test_decode_build : decode (0x00000000#32 ++ 0x0000#16 ++ 0x00#8 ++ 0x10#8) = .ok .build := by decide
theorem test_decode_gen : decode (0x00000000#32 ++ 0x0000#16 ++ 0x00#8 ++ 0x11#8) = .ok .gen := by decide
theorem test_decode_emith : decode (0x00000000#32 ++ 0x0000#16 ++ 0x00#8 ++ 0x20#8) = .ok .emith := by decide
theorem test_decode_enc : decode (0x00000000#32 ++ 0x0000#16 ++ 0xFE#8 ++ 0x21#8) = .ok (.enc 254#8) := by decide
theorem test_decode_flush : decode (0x00000000#32 ++ 0x0000#16 ++ 0x00#8 ++ 0x22#8) = .ok .flush := by decide
theorem test_decode_parseh : decode (0x00000000#32 ++ 0x0000#16 ++ 0x00#8 ++ 0x30#8) = .ok .parseh := by decide
theorem test_decode_decode : decode (0x00000000#32 ++ 0x0000#16 ++ 0x00#8 ++ 0x31#8) = .ok .decode := by decide
theorem test_decode_srst : decode (0x00000000#32 ++ 0x0000#16 ++ 0x00#8 ++ 0xFF#8) = .ok .srst := by decide
/-- R84: the opcode check comes first. -/
theorem test_decode_illegal_first : decode 0xFFFFFFFFFFFFFF06#64 = .error .illegalOpcode := by decide
/-- R84: the top bit of RSVD alone. -/
theorem test_decode_reserved_bit : decode 0x0000000080000301#64 = .error .badField := by decide
/-- R84: SETN uses no A8. -/
theorem test_decode_setn_a8 : decode 0x0000000300000105#64 = .error .badField := by decide
theorem test_encode_ldf : encode (.ldf 0x61#8 2#32) = 0x0000000200006104#64 := by decide
theorem test_tableWord : decodeTableWord 64 0x301 = some (.setk 3#8) := by decide
theorem test_fetchWord : step (State.reset.withFetchWord 64 0x301) = .next { State.reset with k := 3#8 } := by rfl

/-! ### Commands -/

/-- V-F1. -/
theorem test_setk : exec (.setk 3#8) State.reset = .next { State.reset with k := 3#8 } := by rfl
/-- V-F2. -/
theorem test_setk_1 : (after (exec (.setk 1#8) State.reset)).map (fun t => (err t, t.k)) =
    some ((.config, 1#8, 1#8, 1#32), 0#8) := by decide
/-- V-F5. -/
theorem test_clrf : (after (exec .clrf missBuilt)).map (fun t =>
    (ndist t.present, symGet t.freq 0x69#8, t.ncount, t.k, t.treeValid)) = some (0, 0#32, 0#32, 3#8, false) := by
  decide +kernel
/-- V-F4, its second CNT 'a'. -/
theorem test_cnt : (after (exec (.cnt 0x61#8) (tabled 0#8 1#32 [(0x61#8, 1#32)]))).map (fun t =>
    (symGet t.freq 0x61#8, symGet t.present 0x61#8, t.ncount, ndist t.present)) = some (2#32, true, 2#32, 1) := by
  decide +kernel
/-- V-F7. -/
theorem test_cnt_overflow : (after (exec (.cnt 0x61#8) (tabled 2#8 0#32 [(0x61#8, 0xFFFFFFFF#32)]))).map (fun t =>
    (err t, t.ncount, symGet t.freq 0x61#8)) = some ((.format, 8#8, 3#8, 0x61#32), 0#32, 0xFFFFFFFF#32) := by
  decide +kernel
/-- V-F6, its first LDF. -/
theorem test_ldf : (after (exec (.ldf 0x61#8 5#32) State.reset)).map (fun t =>
    (symGet t.freq 0x61#8, symGet t.present 0x61#8, t.ncount, t.errKind)) = some (5#32, true, 0#32, .none) := by
  decide +kernel
/-- V-F6, its second LDF. -/
theorem test_ldf_dup : (after (exec (.ldf 0x61#8 6#32) (tabled 0#8 0#32 [(0x61#8, 5#32)]))).map (fun t =>
    (err t, symGet t.freq 0x61#8)) = some ((.format, 3#8, 4#8, 0x61#32), 5#32) := by decide +kernel
/-- R94: the tree stays valid. -/
theorem test_setn : (after (exec (.setn 11#32) { missBuilt with decDone := true })).map (fun t =>
    (t.ncount, t.treeValid, t.decDone)) = some (11#32, true, false) := by decide
/-- V-T6: zero frequencies, and the padding split across two merges (R117). -/
theorem test_build_V_T6 :
    buildTree 4#8 (putFreq [(65#8, 0#32), (66#8, 0#32), (67#8, 0#32), (68#8, 1#32), (69#8, 1#32)]
        (Vector.replicate 256 0#32))
      (putPresent [(65#8, 0#32), (66#8, 0#32), (67#8, 0#32), (68#8, 1#32), (69#8, 1#32)] (Vector.replicate 256 false)) =
    .ok ⟨[⟨.leaf, 65#8, 65#9, 0#40, 0#8, []⟩, ⟨.leaf, 66#8, 66#9, 0#40, 0#8, []⟩, ⟨.leaf, 67#8, 67#9, 0#40, 0#8, []⟩,
      ⟨.leaf, 68#8, 68#9, 1#40, 0#8, []⟩, ⟨.leaf, 69#8, 69#9, 1#40, 0#8, []⟩, ⟨.pad, 0#8, 256#9, 0#40, 0#8, []⟩,
      ⟨.pad, 0#8, 257#9, 0#40, 0#8, []⟩, ⟨.int, 0#8, 65#9, 0#40, 4#8, [0#9, 1#9, 2#9, 5#9]⟩,
      ⟨.int, 0#8, 65#9, 2#40, 4#8, [7#9, 6#9, 3#9, 4#9]⟩], 9#10, 7#10, 2#8, 8#9⟩ := of_isOk (by decide +kernel)
/-- V-T15. -/
theorem test_build_bad_k : (after (exec .build State.reset)).map err = some (.config, 1#8, 0x10#8, 0#32) := by decide
/-- V-G17. -/
theorem test_gen_no_tree : (after (exec .gen State.reset)).map err = some (.protocol, 3#8, 0x11#8, 0x11#32) := by decide
/-- V-S5's header. -/
theorem test_emith : (after (exec .emith miss)).map (fun t => (t.out, t.outcnt)) = some (missHeader, 29) := by
  decide +kernel
/-- V-P4's case: BOFF = 1. -/
theorem test_emith_misaligned : (after (exec .emith { miss with boff := 1#3 })).map (fun t => (err t, t.out)) =
    some ((.protocol, 6#8, 0x20#8, 1#32), []) := by decide +kernel
/-- V-S5's first symbol: m = "01" in groups of two bits, 00 01. -/
theorem test_enc : (after (exec (.enc 0x6D#8) missCoded)).map (fun t => (t.acc, t.boff, t.out)) =
    some (0x10#8, 4#3, []) := by decide +kernel
/-- V-P8. -/
theorem test_enc_no_codes : (after (exec (.enc 0x61#8) State.reset)).map err =
    some (.protocol, 4#8, 0x21#8, 0x21#32) := by decide
/-- The last row of V-S4's trace. -/
theorem test_flush : (after (exec .flush { State.reset with acc := 0x88#8, boff := 6#3 })).map (fun t =>
    (t.acc, t.boff, t.out, t.outcnt)) = some (0#8, 0#3, [0x88#8], 1) := by decide
/-- V-P2. -/
theorem test_flush_empty : exec .flush State.reset = .next State.reset := by rfl
/-- V-D1's PARSEH. -/
theorem test_parseh : (after (exec .parseh (reading (missHeader ++ missPayload)))).map (fun t =>
    (t.k, t.ncount, t.inpos, symGet t.freq 0x70#8, ndist t.present, t.errKind)) =
    some (3#8, 11#32, 29, 2#32, 4, .none) := by decide +kernel
/-- V-D15. -/
theorem test_parseh_dup : (after (exec .parseh (reading [0x02#8, 2#8, 0#8, 0#8, 0#8, 2#8, 0#8, 0#8, 0#8,
      0x61#8, 1#8, 0#8, 0#8, 0#8, 0x61#8, 1#8, 0#8, 0#8, 0#8]))).map (fun t =>
    (err t, t.inpos, t.k, t.ncount, ndist t.present)) = some ((.format, 3#8, 0x30#8, 0x61#32), 15, 2#8, 2#32, 1) := by
  decide +kernel
/-- V-D1's DECODE, on the payload alone. -/
theorem test_decode : (after (exec .decode (missWith missPayload))).map (fun t =>
    (t.out, t.inpos, t.rdbit, t.cursor)) = some (missText, 3, 4#3, 6#9) := by
  decide +kernel
/-- V-D3: the padding leaf. -/
theorem test_decode_pad : (after (exec .decode (missWith [0x00#8, 0x9A#8, 0x48#8, 0x90#8]))).map (fun t =>
    (err t, t.rdbit, t.cursor)) = some ((.format, 6#8, 0x31#8, 4#32), 4#3, 4#9) := by
  decide +kernel
/-- V-E8. -/
theorem test_srst : step (issuing 0xFF#64 failed) = .next State.reset := by rfl

/-! ### The assembler's text (R85, R86) -/

theorem test_assemble_ldf : Asm.assembleLine "LDF 'a', 0x10 ; load".toList = some [.ldf 0x61#8 16#32] := by decide +kernel
theorem test_assemble_rejects : Asm.assembleLine "SETK 256".toList = none ∧ Asm.assembleLine "SETK 1".toList = none := by
  decide +kernel

/-! ### Witnesses: states and operands that meet a statement's hypotheses, clause by clause, at its bounds -/

theorem witness_EncodeInvertsDecode : decode 0x0000000000000301#64 = .ok (.setk 3#8) := by decide

/-- No error pending: V-E1, V-E2, a reserved bit, an unused A32, a legal word. An error pending: V-E6, and the exact SRST
word (V-E8). -/
theorem witness_IllegalWordsRaise :
    State.reset.errKind = .none ∧ (∀ (c : CmdWord) (s : State), (issuing c s).host = .command c :: []) ∧
    Cmd.opc 0x06#64 ∉ [0x00#8, 0x01#8, 0x02#8, 0x03#8, 0x04#8, 0x05#8, 0x10#8, 0x11#8, 0x20#8, 0x21#8, 0x22#8, 0x30#8,
      0x31#8, 0xFF#8] ∧
    (Cmd.opc 0x502#64 = 0x02#8 ∧ Cmd.a8 0x502#64 ≠ 0#8) ∧ (Cmd.opc 0x10301#64 = 0x01#8 ∧ Cmd.rsvd 0x10301#64 ≠ 0#16) ∧
    (Cmd.opc 0x700000301#64 = 0x01#8 ∧ Cmd.a32 0x700000301#64 ≠ 0#32) ∧
    (Cmd.opc 0x301#64 = 0x01#8 ∧ Cmd.rsvd 0x301#64 = 0#16 ∧ Cmd.a32 0x301#64 = 0#32) ∧
    failed.errKind ≠ .none ∧ 0x301#64 ≠ 0xFF#64 ∧
    step (issuing 0xFF#64 failed) = exec .srst { issuing 0xFF#64 failed with host := [] } :=
  ⟨rfl, fun _ _ => rfl, by decide, by decide, by decide, by decide, by decide, by decide, by decide, rfl⟩

/-- The bounds of R80's rows; V-W1 to V-W8. -/
theorem witness_DigitWidthLeast :
    [2, 3, 4, 5, 8, 9, 16, 17, 32, 33, 64, 65, 128, 129, 255].map (fun k => digitWidth (BitVec.ofNat 8 k)) =
      [1, 2, 2, 3, 3, 4, 4, 5, 5, 6, 6, 7, 7, 8, 8] ∧ (∀ k ∈ [2, 255], 2 ≤ (BitVec.ofNat 8 k).toNat) ∧
    3 ≤ 2 ^ 2 := by decide

/-- R85's bounds: k = 2 and 255 are taken, 1 and 256 rejected; a symbol 256 and a count 2^32 are rejected. -/
theorem witness_AssemblerExpands :
    Asm.expand (.compress 2 [0x61#8]) = some [.setk 2#8, .clrf, .cnt 0x61#8, .build, .gen, .emith, .enc 0x61#8, .flush] ∧
    Asm.expand (.one .setk 255) = some [.setk 255#8] ∧ (1 < 2 ∧ 255 < 256) ∧
    Asm.expand (.one .setk 1) = none ∧ Asm.expand (.one .setk 256) = none ∧ Asm.expand (.one .cnt 256) = none ∧
    Asm.expand (.compress 1 []) = none ∧ Asm.expand (.compress 256 []) = none ∧ Asm.expand (.two .ldf 256 0) = none ∧
    Asm.expand (.ldft [(255, 1), (256, 1)]) = none ∧ Asm.expand (.ldft [(255, 2 ^ 32), (254, 1)]) = none ∧
    Asm.expand (.ldft [(255, 2 ^ 32 - 1)]) = some [.ldf 255#8 0xFFFFFFFF#32] ∧
    Asm.expand (.one .setn (2 ^ 32)) = none ∧ Asm.expand (.two .ldf 0 (2 ^ 32 - 1)) = some [.ldf 0#8 0xFFFFFFFF#32] := by
  decide

theorem witness_StepRunsDecoded : (issuing 0x301#64 State.reset).host = .command 0x301#64 :: [] ∧
    (issuing 0x301#64 State.reset).errKind = .none ∧ decode 0x301#64 = .ok (.setk 3#8) := by decide

theorem witness_PendingErrorDrops : (issuing 0x301#64 failed).host = .command 0x301#64 :: [] ∧
    (issuing 0x301#64 failed).errKind ≠ .none ∧ 0x301#64 ≠ 0x00000000000000FF#64 := by decide

/-- SRST with an error pending (V-E8), and V-E5's and V-E7's words without and with one. -/
theorem witness_SoftReset : (issuing 0xFF#64 failed).host = [.command 0x00000000000000FF#64] ∧
    (issuing 0x1000000FF#64 State.reset).host = [.command 0x1000000FF#64] ∧
    (0x1000000FF#64).extractLsb' 0 8 = 0xFF#8 ∧ 0x1000000FF#64 ≠ 0x00000000000000FF#64 ∧
    (0x1FF#64).extractLsb' 0 8 = 0xFF#8 ∧ 0x1FF#64 ≠ 0x00000000000000FF#64 ∧
    State.reset.errKind = .none ∧ failed.errKind ≠ .none := by decide

theorem witness_ResetLeavesResetValues : (issuing 0xFF#64 failed).host = [.command 0x00000000000000FF#64] ∧
    ({ State.reset with host := [.powerOn [0x61#8]] } : State).host = [.powerOn [0x61#8]] := by decide

theorem witness_HostMovesLeaveCore : State.reset.host = [] ∧
    ({ State.reset with host := [.read 4#20] } : State).host = [.read 4#20] ∧
    ({ State.reset with host := [.readOverlap 4#20] } : State).host = [.readOverlap 4#20] ∧
    ({ State.reset with host := [.attach [1#8]] } : State).inFixed = false ∧
    ({ State.reset with host := [.attach [1#8]], inFixed := true } : State).host = [.attach [1#8]] ∧
    ({ State.reset with host := [.attach [1#8]], inFixed := true } : State).inFixed = true ∧
    ({ State.reset with host := [.powerOn [1#8]] } : State).host = [.powerOn [1#8]] := by decide

/-- The first and the last address of each part of R38's map, and of each gap. V-T3, V-G3. -/
theorem witness_RegisterReadMap :
    [0x00100, 0x001FF, 0x00200, 0x002FF, 0x10000, 0x1FFFE, 0x1FFFF, 0x20000, 0x207FB, 0x207FC, 0x207FF, 0x40000,
      0x5FEFE, 0x5FEFF, 0x5FF00, 0x5FFFF].map (fun a => regRead State.reset (BitVec.ofNat 20 a)) =
      List.replicate 16 0#32 ∧
    [0x00012, 0x000FF, 0x00300, 0x0FFFF, 0x20800, 0x3FFFF, 0x60000, 0xFFFFF].map
      (fun a => regRead missCoded (BitVec.ofNat 20 a)) = List.replicate 8 0#32 ∧
    [0x20018, 0x20019, 0x2001A, 0x2001B, 0x40600, 0x40601, 0x40602, 0x40603].map
      (fun a => regRead missCoded (BitVec.ofNat 20 a)) = [0x00690003#32, 11#32, 0#32, 3#32, 5#32, 0#32, 3#32, 0#32] ∧
    [0x00169, 0x0026D, 0x16D00, 0x16D01, 0x16D02].map (fun a => regRead missCoded (BitVec.ofNat 20 a)) =
      [4#32, 0x00000203#32, 0#32, 1#32, 0#32] := by decide +kernel

theorem witness_NopDoesNothing : (0x100#64).extractLsb' 0 8 = 0x00#8 ∧ 0x100#64 ≠ 0#64 := by decide

theorem witness_SetkSetsRadix : (1#8).toNat < 2 ∧ 2 ≤ (2#8).toNat := by decide

/-- NCOUNT at its bound (V-F8), FREQ at its bound (V-F7), and one below both. -/
theorem witness_CntCountsSymbol :
    (tabled 2#8 0xFFFFFFFF#32 []).ncount.toNat = 2 ^ 32 - 1 ∧
    (symGet (tabled 2#8 0#32 [(0x61#8, 0xFFFFFFFF#32)]).freq 0x61#8).toNat = 2 ^ 32 - 1 ∧
    (tabled 2#8 0xFFFFFFFE#32 [(0x61#8, 0xFFFFFFFE#32)]).ncount.toNat ≠ 2 ^ 32 - 1 ∧
    (symGet (tabled 2#8 0xFFFFFFFE#32 [(0x61#8, 0xFFFFFFFE#32)]).freq 0x61#8).toNat ≠ 2 ^ 32 - 1 := by decide +kernel

theorem witness_LdfLoadsEntry : symGet miss.present 0x69#8 = true ∧ symGet miss.present 0x61#8 = false := by
  decide +kernel

theorem witness_FrequencyModelCounts : missText.length ≤ 2 ^ 32 - 1 ∧ State.reset.errKind = .none := by decide

theorem witness_LoadOrderIrrelevant : missEntries.Perm missEntries.reverse ∧ (missEntries.map Prod.fst).Nodup ∧
    State.reset.errKind = .none ∧ ∀ e ∈ missEntries, symGet State.reset.present e.1 = false := by
  refine ⟨(List.reverse_perm _).symm, by decide, rfl, fun e _ => symGet_replicate false e.1⟩

theorem witness_BuildCompletes : State.reset.k.toNat < 2 ∧ 2 ≤ miss.k.toNat ∧ 2 ≤ (tabled 255#8 0#32 []).k.toNat := by
  decide

/-- V-T1 and V-T2. -/
theorem witness_BuildOfNoneOrOne : 2 ≤ (tabled 2#8 0#32 []).k.toNat ∧
    (∀ y : Sym, symGet (tabled 2#8 0#32 []).present y = false) ∧ 2 ≤ aCoded.k.toNat ∧
    ∀ y : Sym, symGet aCoded.present y = true ↔ y = 0x61#8 := by
  refine ⟨by decide, fun y => symGet_replicate false y, by decide, fun y => ?_⟩
  have h := symGet_putPresent [(0x61#8, 4#32)] (Vector.replicate 256 false) y
  rw [symGet_replicate] at h
  exact h.trans (by simp)

/-- V-T3, with a padding leaf: its bounds are j = 0 and one symbol of each end. -/
theorem witness_BuildPlacesLeaves : 2 ≤ miss.k.toNat ∧ 1 ≤ ndist miss.present ∧ 1 ≤ ndist aCoded.present ∧ symGet miss.present 0x69#8 = true ∧
    leafIndex miss.present 0x69#8 = 0 ∧ leafIndex miss.present 0x73#8 = 3 ∧
    0 < paddingOf (ndist miss.present) miss.k.toNat := by decide +kernel

/-- The whole alphabet, K = 2 and K = 255 (V-T9, V-T10). -/
theorem witness_BuildCountsNodes : 2 ≤ ndist miss.present ∧ ndist (Vector.replicate 256 true) = 256 ∧
    ({ State.reset with k := 2#8, present := Vector.replicate 256 true } : State).k.toNat = 2 ∧
    ({ State.reset with k := 255#8, present := Vector.replicate 256 true } : State).k.toNat = 255 := by
  refine ⟨by decide +kernel, ?_, by decide, by decide⟩
  have : presentSyms (Vector.replicate 256 true) = allSyms := List.filter_eq_self.mpr (fun x _ => symGet_replicate true x)
  simp [ndist, this]

/-- Scenario 4 (five symbols, K = 3), scenario 5 (four symbols, K = 3: V-T3), and K = 2. -/
theorem witness_PaddingInvariant :
    ndist (tabled 3#8 11#32 [(0x61#8, 5#32), (0x62#8, 2#32), (0x63#8, 1#32), (0x64#8, 1#32), (0x72#8, 2#32)]).present = 5 ∧
    (5 - 1) % (3 - 1) = 0 ∧ ndist miss.present = 4 ∧ miss.k.toNat = 3 ∧ (tabled 2#8 11#32 missEntries).k.toNat = 2 := by
  decide +kernel

/-- V-T3's arena has a node of each kind. -/
theorem witness_NodeKeysAndFrequencies : exec .build miss = .next missBuilt ∧ 2 ≤ miss.k.toNat ∧
    (nodeAt missBuilt.node 0#9).kind = .leaf ∧ (nodeAt missBuilt.node 4#9).kind = .pad ∧
    (nodeAt missBuilt.node 6#9).kind = .int :=
  ⟨exec_build (by decide) test_tree_V_T3, by decide, rfl, rfl, rfl⟩

/-- V-T3's first merge: c = 2 is taken, y = 0 is live and not taken. -/
theorem witness_MergeTakesLeast : exec .build miss = .next missBuilt ∧ (nodeAt missBuilt.node 5#9).kind = .int ∧
    2#9 ∈ (nodeAt missBuilt.node 5#9).ch ∧ (0#9).toNat < (5#9).toNat ∧ 0#9 ∉ (nodeAt missBuilt.node 5#9).ch ∧
    ∀ z : NodeIdx, z.toNat < (5#9).toNat → 0#9 ∉ (nodeAt missBuilt.node z).ch := by
  refine ⟨exec_build (by decide) test_tree_V_T3, rfl, by decide, by decide, by decide, fun z hz => ?_⟩
  have : ∀ i, i < 5 → 0#9 ∉ (nodeAt missArena (BitVec.ofNat 9 i)).ch := by decide
  have := this z.toNat hz
  rwa [BitVec.ofNat_toNat, BitVec.setWidth_eq] at this

theorem witness_TreeIsFull : 2 ≤ miss.k.toNat ∧ 1 ≤ ndist miss.present ∧ 1 ≤ ndist aCoded.present ∧
    (nodeAt missBuilt.node 6#9).kind = .int ∧ (nodeAt missBuilt.node 0#9).kind ≠ .int ∧
    (6#9).toNat < missBuilt.nnodes.toNat := by decide +kernel

/-- V-T14: the same table and radix in two states that differ elsewhere. -/
theorem witness_BuildIsDeterministic : 2 ≤ miss.k.toNat ∧ missCoded.k = miss.k ∧ missCoded.freq = miss.freq ∧
    missCoded.present = miss.present ∧ missCoded.node ≠ miss.node := ⟨by decide, rfl, rfl, rfl, by decide⟩

theorem witness_GenWritesPaths : Inv (missWith []) ∧ (missWith []).treeValid = true ∧
    symGet (missWith []).present 0x69#8 = true := ⟨miss_inv [], rfl, by decide +kernel⟩

/-- No tree, a single leaf (V-T2), an empty tree (V-T1). -/
theorem witness_GenAtTheEdges : State.reset.treeValid = false ∧
    (aCoded.treeValid = true ∧ aCoded.root ≠ 511#9 ∧ (nodeAt aCoded.node aCoded.root).kind = .leaf) ∧
    ({ State.reset with k := 2#8, treeValid := true } : State).treeValid = true ∧
    ({ State.reset with k := 2#8, treeValid := true } : State).root = 511#9 := by decide

theorem witness_CodesArePrefixFree : Inv (missWith []) ∧ (missWith []).codeValid = true ∧
    symGet (missWith []).cvalid 0x69#8 = true ∧ symGet (missWith []).cvalid 0x6D#8 = true ∧ 0x69#8 ≠ 0x6D#8 :=
  ⟨miss_inv [], rfl, by decide +kernel, by decide +kernel, by decide⟩

/-- V-P4, V-P9, V-S5. -/
theorem witness_EmithEmitsHeader : ({ miss with boff := 1#3 } : State).boff ≠ 0#3 ∧
    (State.reset.boff = 0#3 ∧ State.reset.k.toNat < 2) ∧ (miss.boff = 0#3 ∧ 2 ≤ miss.k.toNat) := by decide

theorem witness_PutBitPlacesBit : State.reset.boff ≠ 7#3 ∧ ({ State.reset with boff := 7#3 } : State).boff = 7#3 ∧
    accClean { State.reset with acc := 0x88#8, boff := 6#3 } := by
  refine ⟨by decide, by decide, ?_⟩
  unfold accClean
  decide

/-- V-P8, V-P6, and an ENC between two others with BOFF = 6. -/
theorem witness_EncPacksCode : State.reset.codeValid = false ∧
    (missCoded.codeValid = true ∧ symGet missCoded.cvalid 0x61#8 = false) ∧
    accClean { missCoded with acc := 0x88#8, boff := 6#3 } ∧ symGet missCoded.cvalid 0x6D#8 = true := by
  unfold accClean
  decide +kernel

theorem witness_FlushEmitsPartialByte : State.reset.boff = 0#3 ∧ ({ State.reset with boff := 1#3 } : State).boff ≠ 0#3 := by
  decide

theorem witness_PackerEmitsPayload : missCoded.errKind = .none ∧ missCoded.codeValid = true ∧
    (∀ x ∈ missText, symGet missCoded.cvalid x = true) ∧ missCoded.boff = 0#3 ∧ accClean missCoded ∧
    2 ≤ missCoded.k.toNat := by
  unfold accClean
  decide +kernel

/-- V-P3. -/
theorem witness_SingleSymbolPacksNothing : Inv aCoded ∧ aCoded.codeValid = true ∧ ndist aCoded.present = 1 ∧
    symGet aCoded.present 0x61#8 = true := ⟨a_inv, rfl, by decide +kernel, by decide +kernel⟩

/-- V-S5's header, and the header without entries (V-S1). -/
theorem witness_ParsehLoadsHeader :
    (2 ≤ (3#8).toNat ∧ (missEntries.map Prod.fst).Nodup ∧ (missEntries = [] → 11#32 = 0#32) ∧
      (reading (missHeader ++ missPayload)).inp.drop (startByte (reading (missHeader ++ missPayload))) =
        3#8 :: le32 11#32 ++ le32 (BitVec.ofNat 32 missEntries.length) ++ entryBytes missEntries ++ missPayload) ∧
    (reading [2#8, 0#8, 0#8, 0#8, 0#8, 0#8, 0#8, 0#8, 0#8]).inp.drop 0 =
      2#8 :: le32 0#32 ++ le32 (BitVec.ofNat 32 0) ++ entryBytes [] ++ [] := by decide

/-- V-D8, V-D11, one byte short of the fixed fields, V-D13, V-D14. -/
theorem witness_ParsehRejectsFixedFields :
    (reading []).inp.drop (startByte (reading [])) = [] ∧
    ((reading [1#8]).inp.drop (startByte (reading [1#8])) = 1#8 :: [] ∧ (1#8).toNat < 2) ∧
    ((reading (2#8 :: List.replicate 7 0#8)).inp.drop 0 = 2#8 :: List.replicate 7 0#8 ∧ 2 ≤ (2#8).toNat ∧
      (List.replicate 7 0#8).length < 8) ∧
    ((reading [2#8, 0#8, 0#8, 0#8, 0#8, 1#8, 1#8, 0#8, 0#8]).inp.drop 0 = 2#8 :: (le32 0#32 ++ le32 257#32 ++ []) ∧
      256 < (257#32).toNat) ∧
    ((reading [2#8, 5#8, 0#8, 0#8, 0#8, 0#8, 0#8, 0#8, 0#8]).inp.drop 0 = 2#8 :: (le32 5#32 ++ le32 0#32 ++ []) ∧
      5#32 ≠ 0#32) := by decide

/-- V-D15, and IN ending before an entry and one byte short of its end (V-D10's case). -/
theorem witness_ParsehRejectsEntries :
    (2#32).toNat ≤ 256 ∧ [(0x61#8, 1#32)].length < (2#32).toNat ∧ ([((0x61#8 : Sym), 1#32)].map Prod.fst).Nodup ∧
    ∀ tail ∈ [[0x61#8, 1#8, 0#8, 0#8, 0#8], [], [0x62#8, 1#8, 0#8, 0#8]],
      (reading (2#8 :: le32 2#32 ++ le32 2#32 ++ entryBytes [(0x61#8, 1#32)] ++ tail)).inp.drop
        (startByte (reading (2#8 :: le32 2#32 ++ le32 2#32 ++ entryBytes [(0x61#8, 1#32)] ++ tail))) =
        2#8 :: le32 2#32 ++ le32 2#32 ++ entryBytes [(0x61#8, 1#32)] ++ tail ∧
      (tail.length < 5 ∨ 0x61#8 ∈ tail.head?) ∧ (tail.length < 5 → ∀ x ∈ tail.head?, x ∉ [0x61#8]) := by decide

/-- V-S5's header, behind one byte and before the payload; and a table without entries. -/
theorem witness_HeaderRoundTrip :
    (miss.errKind = .none ∧ 2 ≤ miss.k.toNat ∧ miss.boff = 0#3 ∧ tableClean miss ∧ 0 < ndist miss.present) ∧
    (tableClean (tabled 2#8 0#32 []) ∧ (tabled 2#8 0#32 []).ncount = 0#32) ∧
    ({ State.reset with inp := [0x00#8] ++ missHeader ++ missPayload, inpos := 1 } : State).inpos = [0x00#8].length ∧
    State.reset.errKind = .none ∧ State.reset.rdbit = 0#3 :=
  ⟨⟨rfl, by decide, rfl, tabled_clean 3#8 11#32 missEntries, by decide +kernel⟩,
    ⟨tabled_clean 2#8 0#32 [], rfl⟩, rfl, rfl, rfl⟩

/-- IN at its end, one byte before it, a digit of two bits at the last two bits, and one bit too few. -/
theorem witness_StreamReads :
    (reading []).inp.length ≤ (reading []).inpos ∧ (reading [0x16#8]).inpos < (reading [0x16#8]).inp.length ∧
    ([true, false].length = digitWidth (missWith []).k ∧
      (bitsOfBytes ({ missWith [0x16#8] with rdbit := 6#3 } : State).inp).drop (8 * 0 + (6#3).toNat) =
        [true, false] ++ []) ∧
    (8 * 0 + (7#3).toNat ≤ 8 * ({ missWith [0x16#8] with rdbit := 7#3 } : State).inp.length ∧
      8 * ({ missWith [0x16#8] with rdbit := 7#3 } : State).inp.length <
        8 * 0 + (7#3).toNat + digitWidth (missWith []).k) := by decide

/-- V-D21 and V-P5. -/
theorem witness_DecodeChecksFirst : State.reset.treeValid = false ∧
    ({ missBuilt with boff := 1#3 } : State).treeValid = true ∧ ({ missBuilt with boff := 1#3 } : State).boff ≠ 0#3 := by
  decide

/-- V-D16's case, V-D22, V-D18. -/
theorem witness_DecodeAtTheEdges :
    (missBuilt.treeValid = true ∧ missBuilt.boff = 0#3 ∧ ({ missBuilt with ncount := 0#32 } : State).ncount = 0#32) ∧
    (({ State.reset with k := 2#8, ncount := 3#32, treeValid := true } : State).ncount ≠ 0#32 ∧
      ({ State.reset with k := 2#8, ncount := 3#32, treeValid := true } : State).root = 511#9) ∧
    (aCoded.treeValid = true ∧ aCoded.boff = 0#3 ∧ aCoded.ncount ≠ 0#32 ∧ aCoded.root ≠ 511#9 ∧
      (nodeAt aCoded.node aCoded.root).kind = .leaf) := by decide

theorem witness_DecodeCompletes : 2 ≤ (missWith missPayload).k.toNat ∧ 2 ≤ ({ State.reset with k := 2#8 } : State).k.toNat ∧
    (missWith missPayload).errKind = .none := by decide

/-- The codes of V-G3 as a function. -/
def missCode (x : Sym) : List Byte :=
  if x = 0x69#8 then [1#8] else if x = 0x73#8 then [2#8] else if x = 0x6D#8 then [0#8, 1#8] else [0#8, 2#8]

theorem miss_isCodeFor (bytes : List Byte) : ∀ x ∈ missText, isCodeFor (missWith bytes) missCode x := by
  have h : ∀ x ∈ [0x69#8, 0x73#8, 0x6D#8, 0x70#8], isCodeFor (missWith bytes) missCode x := by
    intro x hx
    simp only [List.mem_cons, List.not_mem_nil, or_false] at hx
    rcases hx with rfl | rfl | rfl | rfl
    · exact ⟨0#9, ⟨rfl, show (1#8).toNat < (3#8).toNat by decide, rfl⟩, rfl, rfl⟩
    · exact ⟨3#9, ⟨rfl, show (2#8).toNat < (3#8).toNat by decide, rfl⟩, rfl, rfl⟩
    · exact ⟨1#9, ⟨rfl, show (0#8).toNat < (3#8).toNat by decide, rfl, show (1#8).toNat < (3#8).toNat by decide, rfl⟩,
        rfl, rfl⟩
    · exact ⟨2#9, ⟨rfl, show (0#8).toNat < (3#8).toNat by decide, rfl, show (2#8).toNat < (3#8).toNat by decide, rfl⟩,
        rfl, rfl⟩
  intro x hx
  exact h x ((by decide : ∀ x ∈ missText, x ∈ [0x69#8, 0x73#8, 0x6D#8, 0x70#8]) x hx)

/-- V-D1: "mississippi" from V-S5's payload. -/
theorem witness_DecodeInvertsPacking : Inv (missWith missPayload) ∧ (missWith missPayload).treeValid = true ∧
    (missWith missPayload).boff = 0#3 ∧ missText.length = (missWith missPayload).ncount.toNat ∧
    (∀ x ∈ missText, isCodeFor (missWith missPayload) missCode x) ∧
    (bitsOfBytes (missWith missPayload).inp).drop (8 * startByte (missWith missPayload)) =
      payloadBits (missWith missPayload).k missCode missText ++ [false, false, false, false] :=
  ⟨miss_inv _, rfl, rfl, by decide, miss_isCodeFor _, by decide +kernel⟩

/-- UNDERRUN: V-D5's case. BAD_DIGIT: V-D2, the least v that is one. PAD_LEAF: V-D3, after the digit 0. -/
theorem witness_DecodeStopsAtCorruption :
    (∀ bytes, Inv (missWith bytes) ∧ (missWith bytes).treeValid = true ∧ (missWith bytes).boff = 0#3 ∧
      ([] : List Sym).length < (missWith bytes).ncount.toNat ∧
      leadsTo (missWith bytes).node (missWith bytes).k.toNat (missWith bytes).root [] 6#9 ∧
      leadsTo (missWith bytes).node (missWith bytes).k.toNat (missWith bytes).root [0#8] 5#9 ∧
      (nodeAt (missWith bytes).node 6#9).kind = .int ∧ (nodeAt (missWith bytes).node 5#9).kind = .int) ∧
    ((bitsOfBytes []).drop 0 = [] ++ [] ∧ ([] : List Bool).length < digitWidth 3#8) ∧
    ((bitsOfBytes [0xC0#8]).drop 0 = [] ++ (bitsOfDigits (digitWidth 3#8) [3#8] ++ List.replicate 6 false) ∧
      (3#8).toNat < 2 ^ digitWidth 3#8 ∧ (3#8).toNat ≤ (3#8).toNat) ∧
    ((bitsOfBytes [0x00#8]).drop 0 = bitsOfDigits (digitWidth 3#8) [0#8] ++
        (bitsOfDigits (digitWidth 3#8) [0#8] ++ List.replicate 4 false) ∧
      (0#8).toNat < (3#8).toNat ∧ (nodeAt missArena ((nodeAt missArena 5#9).child 0)).kind = .pad) := by
  refine ⟨fun bytes => ⟨miss_inv bytes, rfl, rfl, show 0 < (11#32).toNat by decide, rfl,
    ⟨rfl, show (0#8).toNat < (3#8).toNat by decide, rfl⟩, rfl, rfl⟩, by decide, by decide, by decide⟩

theorem witness_RoundTrip : 2 ≤ (2#8).toNat ∧ 2 ≤ (255#8).toNat ∧ missText.length ≤ 2 ^ 32 - 1 ∧
    ([] : List Byte).length ≤ 2 ^ 32 - 1 := by decide

theorem witness_TableChangeInvalidates : exec (.setk 3#8) State.reset = .next { State.reset with k := 3#8 } ∧
    ({ State.reset with k := 3#8 } : State).k ≠ State.reset.k := ⟨rfl, by decide⟩

theorem witness_OnlyOwnersWrite : exec .build miss = .next missBuilt ∧ exec .gen missBuilt = .next missCoded :=
  ⟨exec_build (by decide) test_tree_V_T3, exec_gen rfl test_codes_V_G3⟩

/-- V-P8: an ENC that raises. -/
theorem witness_CommandsRaiseOnly : State.reset.errKind = .none ∧ exec (.enc 0x61#8) State.reset = .next { State.reset with
    errKind := .protocol, errSub := 4#8, errOp := 0x21#8, errInfo := 0x21#32 } ∧ ErrKind.protocol ≠ .none :=
  ⟨rfl, rfl, by decide⟩

/-- V-T15: a BUILD that raises. -/
theorem witness_ChecksBeforeWrites : State.reset.errKind = .none ∧ exec .build State.reset = .next { State.reset with
    errKind := .config, errSub := 1#8, errOp := 0x10#8, errInfo := 0#32 } ∧ ErrKind.config ≠ .none :=
  ⟨rfl, rfl, by decide⟩

/-- V-D1's DECODE as a step that runs the whole payload, and an idle step. -/
theorem witness_StepKeepsInvariant : Inv (issuing 0x31#64 (missWith missPayload)) ∧
    (after (step (issuing 0x31#64 (missWith missPayload)))).map (fun t => (t.out, t.decDone, t.inFixed)) =
      some (missText, true, true) ∧
    step (missWith missPayload) = .next (missWith missPayload) :=
  ⟨(miss_inv _).hosted _, by decide +kernel, rfl⟩

/-- A legal state whose host is about to attach IN, in a session and before one. -/
theorem witness_NoStepFaults : Inv { missWith [] with host := [.attach [1#8]], inFixed := false || true } ∧
    Inv { missWith [] with host := [.attach [1#8]] } :=
  ⟨((miss_inv []).hosted [.attach [1#8]]).fixed true, (miss_inv []).hosted _⟩

end Sys2Proof.Tests
end

section
/-! PROOFS. Statements on CORE's state: the STATUS word (spec/10_state.md R29), the reset values (R41) and what a
change of the radix or of the table invalidates (R28). -/

namespace Sys2Proof.Machine

/-! ### STATUS (R29) -/

/-- R29's layout of STATUS: its five flags from bit 0 up, every bit above them 0. -/
theorem getLsbD_statusWord (s : State) (i : Nat) : (statusWord s).getLsbD i =
    ([errPending s, s.treeValid, s.codeValid, s.decDone, treeEmpty s][i]?.getD false) := by
  simp only [statusWord, BitVec.getLsbD_append]
  match i with
  | 0 | 1 | 2 | 3 | 4 | 5 => simp
  | n + 6 => simp

theorem errPending_iff (s : State) : errPending s = true ↔ s.errKind ≠ ErrKind.none := by simp [errPending]

theorem treeEmpty_iff (s : State) : treeEmpty s = true ↔ s.treeValid = true ∧ s.root = 511#9 := by
  rw [treeEmpty, Bool.and_eq_true, decide_eq_true_eq, Config.nil]

/-- Settles O13: each bit is read off the layout of STATUS. -/
theorem statusWordBits : Obligations.StatusWordBits := by
  refine ⟨fun s => ?_, by decide⟩
  simp only [getLsbD_statusWord]
  exact ⟨errPending_iff s, rfl, rfl, rfl, treeEmpty_iff s, fun i hi => by rw [List.getElem?_eq_none hi, Option.getD_none]⟩

/-! ### Reset (R41, R201, R270) -/

/-- The host's side of the state is no part of R41: whatever it holds, the reset state has CORE's reset values. -/
theorem hasResetValues_reset_hosted (inp : List Byte) (host : List HostMove) (inFixed : Bool) (reads : List Word32)
    (freeCount : Nat) : hasResetValues { State.reset with inp, host, inFixed, reads, freeCount } := by
  simp [hasResetValues, State.reset, Config.nil, nodeAt, Node.free, digitAt]

/-- R201: the exact SRST word resets CORE, with an error pending and without one. -/
theorem dispatch_srstWord (s : State) : dispatch srstWord s = .next (resetCore s) := by
  by_cases he : s.errKind = ErrKind.none
  · have hd : decode srstWord = .ok .srst := by decide
    exact dispatch_ok he hd
  · rw [dispatch_pending he, if_pos rfl]

/-- Settles O10: the SRST word and power-on both end in the reset state, but for the host's side. -/
theorem resetLeavesResetValues : Obligations.ResetLeavesResetValues := by
  refine ⟨hasResetValues_reset_hosted _ _ _ _ _, fun s rest => ⟨fun h => ?_, fun bytes h => ?_⟩⟩
  · exact ⟨_, (step_host h).trans (dispatch_srstWord _), hasResetValues_reset_hosted _ _ _ _ _⟩
  · exact ⟨_, step_host h, hasResetValues_reset_hosted _ _ _ _ _⟩

/-! ### Invalidation (R28) -/

/-- K, FREQ and PRESENT are as they were. -/
def tableKept (s t : State) : Prop := t.k = s.k ∧ t.freq = s.freq ∧ t.present = s.present

/-- R28: the three validity flags are clear, the arena and the code ROM as they were. -/
def invalidated (s t : State) : Prop :=
  (t.treeValid = false ∧ t.codeValid = false ∧ t.decDone = false) ∧
    t.node = s.node ∧ t.cvalid = s.cvalid ∧ t.clen = s.clen ∧ t.cdig = s.cdig

theorem writesTable.invalidated {s t : State} (h : writesTable s t) : invalidated s t := by
  rw [h]
  exact ⟨⟨rfl, rfl, rfl⟩, rfl, rfl, rfl, rfl⟩

theorem DecodeFrame.tableKept {s t : State} (h : DecodeFrame s t) : tableKept s t := by
  rw [h.only]
  exact ⟨rfl, rfl, rfl⟩

/-- PARSEH raises in the fixed fields with the table untouched, or loads one and invalidates (R171, R172). -/
theorem execParseh_table {s t : State} (h : execParseh s = .next t) : tableKept s t ∨ invalidated s t := by
  obtain ⟨u, hu, -, -, -, hcases⟩ := execParseh_cases s
  obtain rfl : u = t := by simpa [hu] using h
  rcases hcases with ⟨-, hfixed⟩ | ⟨-, -, hloaded⟩
  · left; rw [hfixed]; exact ⟨rfl, rfl, rfl⟩
  · right; rw [hloaded]; exact ⟨⟨rfl, rfl, rfl⟩, rfl, rfl, rfl, rfl⟩

/-- R28 over all commands: one keeps the radix and the table, or invalidates, or is the reset. -/
theorem exec_table {i : Instr} {s t : State} (h : exec i s = .next t) :
    tableKept s t ∨ invalidated s t ∨ i = .srst ∧ t = resetCore s := by
  rcases exec_cases h with rfl | ⟨e, -, n, rfl⟩ | ⟨-, hw⟩ | ⟨n, -, rfl⟩ | ⟨-, -, b, -, rfl⟩ | ⟨-, -, r, -, rfl⟩ |
    ⟨-, rfl⟩ | ⟨-, -, hp⟩ | ⟨-, hparseh⟩ | ⟨-, hdecode⟩ | hsrst
  · exact .inl ⟨rfl, rfl, rfl⟩
  · exact .inl ⟨rfl, rfl, rfl⟩
  · exact .inr (.inl hw.invalidated)
  · exact .inl ⟨rfl, rfl, rfl⟩
  · exact .inl ⟨rfl, rfl, rfl⟩
  · exact .inl ⟨rfl, rfl, rfl⟩
  · exact .inl ⟨rfl, rfl, rfl⟩
  · rw [hp]; exact .inl ⟨rfl, rfl, rfl⟩
  · exact (execParseh_table hparseh).imp_right .inl
  · exact .inl (exec_decode_cases hdecode).1.tableKept
  · exact .inr (.inr hsrst)

/-- Settles O52: a command that changes the table does not keep it, so it invalidates or is the reset. -/
theorem tableChangeInvalidates : Obligations.TableChangeInvalidates := by
  intro i s t h hchange
  rcases exec_table h with ⟨hk, hfreq, hpresent⟩ | ⟨⟨htree, hcode, hdone⟩, hstale⟩ | ⟨rfl, rfl⟩
  · simp [hk, hfreq, hpresent] at hchange
  · exact ⟨htree, hcode, hdone, fun _ => hstale⟩
  · exact ⟨rfl, rfl, rfl, fun hne => absurd rfl hne⟩

end Sys2Proof.Machine
end

section
/-! PROOFS. Statements on the address spaces (spec/20_memory.md): what the reads of IN answer before its end and at it
(R52, R54), and ReadDigit over them (spec/44_unpacker.md R174). -/

namespace Sys2Proof.Machine

/-! ### InBit (R54) -/

/-- R54: IN is exhausted. -/
theorem inBit_end (exc : State → State) (s : State) (h : s.inp.length ≤ s.inpos) : inBit exc s = .error (exc s) := by
  simp [inBit, List.getElem?_eq_none h]

/-- R54: bit `7 - RDBIT` of the byte at the position, and the position one bit on. -/
theorem inBit_ok (exc : State → State) (s : State) (h : s.inpos < s.inp.length) :
    inBit exc s = .ok ((s.inp[s.inpos]).getLsbD (7 - s.rdbit.toNat),
      if s.rdbit = 7#3 then { s with rdbit := 0#3, inpos := s.inpos + 1 } else { s with rdbit := s.rdbit + 1#3 }) := by
  simp only [inBit, List.getElem?_eq_getElem h]
  split <;> rfl

/-! ### ReadDigit (R174) -/

/-- R174, R237, R241: UNDERRUN raised with the read position at the end of IN. -/
theorem underrun_atEnd (s : State) : underrun (atBit s (8 * s.inp.length)) =
    { s with inpos := s.inp.length, rdbit := 0#3, errKind := .format, errSub := 7#8, errOp := 0x31#8,
             errInfo := s.decCount } := by
  simp [underrun, raise, Err.kind, Err.sub, Opcode.code, atBit]

/-- Settles O45: the reads answer case by case, and a digit is a read of W(K) bits. -/
theorem streamReads : Obligations.StreamReads := by
  refine fun s => ⟨fun exc => ⟨fun hend => ?_, fun hin => ⟨?_, inBit_ok exc s hin⟩⟩, fun bs rest hlen hbits => ?_,
    fun hpos hshort => ?_⟩
  · exact ⟨inByte_end exc s hend, inBit_end exc s hend⟩
  · exact inByte_ok exc s _ _ (List.drop_eq_getElem_cons hin)
  · rw [readDigit, ← hlen]
    exact readBits_ok bs rest 0 s hbits
  · rw [← underrun_atEnd]
    exact readBits_short _ 0 s hpos hshort

end Sys2Proof.Machine
end

section
/-! PROOFS. Statements on the encoding (spec/30_encoding.md): the digit width W(K) of R80. -/

namespace Sys2Proof.Machine

/-- R80: `W(K) = ceil(log2 K)`; a byte's logarithm is at most 8, so the search over 0 to 8 finds it. -/
theorem digitWidth_eq_clog (k : BitVec 8) : digitWidth k = Nat.clog 2 k.toNat := by
  have hfind : (List.range 9).find? (fun w => decide (k.toNat ≤ 2 ^ w)) = some (Nat.clog 2 k.toNat) := by
    have hle : Nat.clog 2 k.toNat ≤ 8 := Nat.clog_le_of_le_pow (by omega)
    refine List.find?_range_eq_some.mpr ⟨?_, ?_, fun w hw => ?_⟩
    · exact decide_eq_true (Nat.le_pow_clog Nat.one_lt_two _)
    · exact List.mem_range.mpr (by omega)
    · simpa using Nat.pow_lt_of_lt_clog hw
  rw [digitWidth, hfind, Option.getD_some]

/-- R80: `W(K)` is the least `w` with `2^w` at least K. -/
theorem digitWidth_le_iff (k : BitVec 8) (w : Nat) : digitWidth k ≤ w ↔ k.toNat ≤ 2 ^ w := by
  rw [digitWidth_eq_clog, Nat.clog_le_iff_le_pow Nat.one_lt_two]

/-- A row of R80's table: the radices above one power of two and up to the next share their width. -/
theorem digitWidth_eq_succ (k : BitVec 8) (w : Nat) (hlo : 2 ^ w < k.toNat) (hhi : k.toNat ≤ 2 ^ (w + 1)) :
    digitWidth k = w + 1 := by
  have hle : digitWidth k ≤ w + 1 := (digitWidth_le_iff k (w + 1)).mpr hhi
  have hlt : ¬ digitWidth k ≤ w := fun h => Nat.not_le_of_lt hlo ((digitWidth_le_iff k w).mp h)
  omega

/-- Settles O5: least by the characterisation of `W(K)`, and each row of R80 lies between two powers of two. -/
theorem digitWidthLeast : Obligations.DigitWidthLeast := by
  intro k hk
  refine ⟨(digitWidth_le_iff k _).mp le_rfl, fun w => (digitWidth_le_iff k w).mpr,
    fun h => digitWidth_eq_succ k 0 ?_ ?_, fun h => digitWidth_eq_succ k 1 ?_ ?_,
    fun h => digitWidth_eq_succ k 2 ?_ ?_, fun h => digitWidth_eq_succ k 3 ?_ ?_,
    fun h => digitWidth_eq_succ k 4 ?_ ?_, fun h => digitWidth_eq_succ k 5 ?_ ?_,
    fun h => digitWidth_eq_succ k 6 ?_ ?_, fun h => digitWidth_eq_succ k 7 ?_ ?_⟩ <;> omega

end Sys2Proof.Machine
end

section
/-! PROOFS. Statements on the configuration and frequency-table commands SETK, CLRF, CNT, LDF, SETN
(spec/40_frequency.md R90 to R94). -/

namespace Sys2Proof.Machine

/-! ### The command words (R84, R85) -/

/-- R71, R85: a command is its opcode and its operand fields. -/
theorem toInstr_opcode (i : Instr) : i.opcode.toInstr i.a8 i.a32 = i := by cases i <;> rfl

/-- R84, R85: a word laid out as R72 says is read back as the command it encodes. -/
theorem decode_of_layout (i : Instr) (h : Laws.Encoded.Statement i) : decode (encode i) = .ok i := by
  obtain ⟨hopc, ha8, ha32, hfields⟩ := h
  simp [decode, hopc, ha8, ha32, hfields, toInstr_opcode]

/-! ### Errors about a byte (R237, R240) -/

/-- R240: what a raise with a byte as its info writes. -/
theorem raise_byte (e : Err) (op b : Byte) (s : State) : raise e op b.toNat s =
    { s with errKind := e.kind, errSub := e.sub, errOp := op, errInfo := b.setWidth 32 } := by
  rw [raise_eq, BitVec.ofNat_toNat]

/-! ### Counts at their bound (R92) -/

theorem eq_maxWord_iff (w : Word32) : w = 0xFFFFFFFF#32 ↔ w.toNat = 2 ^ 32 - 1 := by
  rw [← BitVec.toNat_inj]; rfl

theorem toNat_succ_of_ne_max {w : Word32} (h : w.toNat ≠ 2 ^ 32 - 1) : (w + 1#32).toNat = w.toNat + 1 := by
  bv_omega

/-! ### What each command answers, check by check -/

theorem exec_setk_small {k : BitVec 8} {s : State} (h : k.toNat < 2) :
    exec (.setk k) s = .next (raise .badK Opcode.setk.code k.toNat s) :=
  if_pos ((lt_two k).mpr h)

theorem exec_setk_ok {k : BitVec 8} {s : State} (h : 2 ≤ k.toNat) :
    exec (.setk k) s = .next (invalidate { s with k := k }) :=
  if_neg (by rw [lt_two]; omega)

theorem exec_cnt_overflow {x : Sym} {s : State}
    (h : s.ncount.toNat = 2 ^ 32 - 1 ∨ (symGet s.freq x).toNat = 2 ^ 32 - 1) :
    exec (.cnt x) s = .next (raise .countOverflow Opcode.cnt.code x.toNat s) :=
  if_pos (by rwa [eq_maxWord_iff, eq_maxWord_iff])

theorem exec_cnt_ok {x : Sym} {s : State} (hn : s.ncount.toNat ≠ 2 ^ 32 - 1)
    (hf : (symGet s.freq x).toNat ≠ 2 ^ 32 - 1) :
    exec (.cnt x) s = .next (invalidate { s with
      freq := symSet s.freq x (symGet s.freq x + 1#32), present := symSet s.present x true
      ncount := s.ncount + 1#32 }) :=
  if_neg (by rw [eq_maxWord_iff, eq_maxWord_iff, not_or]; exact ⟨hn, hf⟩)

theorem exec_ldf_dup {x : Sym} {f : Word32} {s : State} (h : symGet s.present x = true) :
    exec (.ldf x f) s = .next (raise .dupSymbol Opcode.ldf.code x.toNat s) :=
  if_pos h

theorem exec_ldf_ok {x : Sym} {f : Word32} {s : State} (h : symGet s.present x = false) :
    exec (.ldf x f) s = .next (invalidate { s with
      freq := symSet s.freq x f, present := symSet s.present x true }) :=
  if_neg (Bool.eq_false_iff.mp h)

/-! ### The statements -/

/-- Settles O16: below 2 the check raises, from 2 on K is written and the flags invalidated. -/
theorem setkSetsRadix : Obligations.SetkSetsRadix := by
  refine fun k s => ⟨decode_of_layout (.setk k) (Laws.Encoded.setk k), fun hsmall => ?_, exec_setk_ok⟩
  rw [exec_setk_small hsmall, raise_byte]
  rfl

/-- Settles O17: both arrays are constant after CLRF. -/
theorem clrfClearsTable : Obligations.ClrfClearsTable :=
  ⟨by decide, fun _ =>
    ⟨_, rfl, fun x => ⟨symGet_replicate _ x, symGet_replicate _ x⟩, rfl⟩⟩

/-- Settles O18: a limit reached raises; otherwise neither sum wraps and only the entry of x is written. -/
theorem cntCountsSymbol : Obligations.CntCountsSymbol := by
  refine fun x s => ⟨decode_of_layout (.cnt x) (Laws.Encoded.cnt x), fun hmax => ?_, fun ⟨hn, hf⟩ => ?_⟩
  · rw [exec_cnt_overflow hmax, raise_byte]
    rfl
  · refine ⟨_, exec_cnt_ok hn hf, ?_, symGet_symSet_same _ _ _, toNat_succ_of_ne_max hn, fun y hy => ?_, rfl⟩
    · rw [invalidate_freq, symGet_symSet_same, toNat_succ_of_ne_max hf]
    · exact ⟨symGet_symSet_other _ _ hy, symGet_symSet_other _ _ hy⟩

/-- Settles O19: a key raises; otherwise only the entry of x is written, whatever f is. -/
theorem ldfLoadsEntry : Obligations.LdfLoadsEntry := by
  refine fun x f s => ⟨decode_of_layout (.ldf x f) (Laws.Encoded.ldf x f), fun hdup => ?_, fun hnew => ?_⟩
  · rw [exec_ldf_dup hdup, raise_byte]
    rfl
  · refine ⟨_, exec_ldf_ok hnew, symGet_symSet_same _ _ _, symGet_symSet_same _ _ _, fun y hy => ?_, rfl⟩
    exact ⟨symGet_symSet_other _ _ hy, symGet_symSet_other _ _ hy⟩

/-- Settles O20: SETN has no check, and its one arm is the state the statement gives. -/
theorem setnSetsCount : Obligations.SetnSetsCount :=
  fun n _ => ⟨decode_of_layout (.setn n) (Laws.Encoded.setn n), rfl⟩

end Sys2Proof.Machine
end

section
/-! PROOFS. Statements on the tree builder BUILD (spec/41_tree_builder.md): the empty and the single-entry table (R105,
R106), the places of the leaves (R103, R107), and what one merge takes (R104, R109). -/

namespace Sys2Proof.Machine

/-! ### The key set as a list -/

theorem presentSyms_eq_nil {present : Vector Bool 256} (h : ∀ y : Sym, symGet present y = false) :
    presentSyms present = [] :=
  List.eq_nil_iff_forall_not_mem.mpr fun y hy => by simp [h y] at hy

theorem presentSyms_eq_singleton {present : Vector Bool 256} {x : Sym}
    (h : ∀ y : Sym, symGet present y = true ↔ y = x) : presentSyms present = [x] := by
  have hperm : (presentSyms present).Perm [x] :=
    (List.perm_ext_iff_of_nodup (presentSyms_nodup present) (List.nodup_singleton x)).mpr fun y => by simp [h y]
  exact List.perm_singleton.mp hperm

theorem leafIndex_eq_length_filter (present : Vector Bool 256) (x : Sym) :
    leafIndex present x = ((presentSyms present).filter (fun y => decide (y.toNat < x.toNat))).length := by
  simp only [leafIndex, presentSyms, List.filter_filter, Bool.and_comm]

/-- R103: the key set ascends, so the symbols below x are those listed before it. -/
theorem getElem?_presentSyms_leafIndex {present : Vector Bool 256} {x : Sym} (hx : symGet present x = true) :
    (presentSyms present)[leafIndex present x]? = some x := by
  obtain ⟨below, above, hsplit⟩ := List.append_of_mem ((mem_presentSyms present x).mpr hx)
  have hsorted := presentSyms_pairwise_lt present
  rw [hsplit, List.pairwise_append, List.pairwise_cons] at hsorted
  obtain ⟨-, ⟨habove, -⟩, hbelow⟩ := hsorted
  have hidx : leafIndex present x = below.length := by
    have hb : below.filter (fun y => decide (y.toNat < x.toNat)) = below :=
      List.filter_eq_self.mpr fun y hy => decide_eq_true (hbelow y hy x List.mem_cons_self)
    have ha : above.filter (fun y => decide (y.toNat < x.toNat)) = [] :=
      List.filter_eq_nil_iff.mpr fun y hy => by simpa using Nat.le_of_lt (habove y hy)
    rw [leafIndex_eq_length_filter, hsplit, List.filter_append, List.filter_cons_of_neg (by simp), hb, ha,
      List.append_nil]
  rw [hidx, hsplit, List.getElem?_append_right le_rfl, Nat.sub_self, List.getElem?_cons_zero]

theorem leafIndex_lt {present : Vector Bool 256} {x : Sym} (hx : symGet present x = true) :
    leafIndex present x < ndist present :=
  (List.getElem?_eq_some_iff.mp (getElem?_presentSyms_leafIndex hx)).1

/-! ### The leaves of BUILD's arena -/

theorem getElem?_startArena_leafIndex (k : BitVec 8) (freq : Vector Word32 256) {present : Vector Bool 256} {x : Sym}
    (hx : symGet present x = true) :
    (startArena k freq present)[leafIndex present x]? = some (leafNode x (symGet freq x)) := by
  rw [startArena, List.getElem?_append_left (by simpa using leafIndex_lt hx), realLeaves, List.getElem?_map,
    getElem?_presentSyms_leafIndex hx, Option.map_some]

theorem getElem?_startArena_pad {k : BitVec 8} (freq : Vector Word32 256) {present : Vector Bool 256} {j : Nat}
    (hj : j < padCount (ndist present) k.toNat) :
    (startArena k freq present)[ndist present + j]? = some (padNode j) := by
  rw [startArena, List.getElem?_append_right (by simp), length_realLeaves, Nat.add_sub_cancel_left, padLeaves,
    List.getElem?_map, List.getElem?_range hj, Option.map_some]

/-- BUILD leaves the leaves it starts from where they stand (R103). -/
theorem BuiltTree.nodeAt_eq_of_start {k : BitVec 8} {freq : Vector Word32 256} {present : Vector Bool 256} {t : Tree}
    (B : BuiltTree k freq present t) {i : Nat} {n : Node} (h : (startArena k freq present)[i]? = some n) :
    nodeAt t.node (BitVec.ofNat 9 i) = n := by
  obtain ⟨hi, hn⟩ := List.getElem?_eq_some_iff.mp h
  rw [B.at hi, hn]

/-! ### The internal nodes of BUILD's arena -/

/-- An internal node of BUILD's arena is what R100, R104 and R109 say, whatever the table. -/
theorem buildTree_internalOk {k : BitVec 8} {freq : Vector Word32 256} {present : Vector Bool 256} {t : Tree}
    (hk : 2 ≤ k.toNat) (h : buildTree k freq present = .ok t) {x : NodeIdx} (hint : (nodeAt t.node x).kind = .int) :
    InternalOk k t.node x.toNat (nodeAt t.node x) := by
  rcases Nat.eq_zero_or_pos (ndist present) with h0 | hn
  · obtain rfl := Except.ok.inj ((buildTree_none k freq h0).symm.trans h)
    simp [nodeAt, Node.free] at hint
  · rcases (builtTree_of_ok hk hn h).cases x with ⟨y, -, hleaf⟩ | ⟨j, -, hpad⟩ | ⟨-, hok⟩ | ⟨hfree, -⟩
    · simp [hleaf, leafNode] at hint
    · simp [hpad, padNode] at hint
    · exact hok
    · simp [hfree, Node.free] at hint

/-- R104, with the live nodes given by index: no node below x has y as a child. -/
theorem InternalOk.precedes_live {k : BitVec 8} {arena : List Node} {x : NodeIdx} {n : Node}
    (hok : InternalOk k arena x.toNat n) {c y : NodeIdx} (hc : c ∈ n.ch) (hy : y.toNat < x.toNat) (hny : y ∉ n.ch)
    (hlive : ∀ z : NodeIdx, z.toNat < x.toNat → y ∉ (nodeAt arena z).ch) : precedes arena c y := by
  refine hok.least c hc y hy hny fun m hm => ?_
  obtain ⟨i, hi, rfl⟩ := List.mem_take_iff_getElem.mp hm
  have hix : i < x.toNat := Nat.lt_of_lt_of_le hi (Nat.min_le_left _ _)
  have hi9 : (BitVec.ofNat 9 i).toNat = i := by
    rw [BitVec.toNat_ofNat, Nat.mod_eq_of_lt (Nat.lt_trans hix x.isLt)]
  have hnode : nodeAt arena (BitVec.ofNat 9 i) = arena[i] := nodeAt_of_getElem? (by rw [hi9]; simp)
  rw [← hnode]
  exact hlive _ (by rwa [hi9])

/-! ### The statements -/

/-- Settles O24: the key set is [] or [x], and BUILD answers both without a merge. -/
theorem buildOfNoneOrOne : Obligations.BuildOfNoneOrOne := by
  refine fun s hk => ⟨fun hnone => ?_, fun x hx => ?_⟩
  · have h0 : ndist s.present = 0 := by rw [ndist, presentSyms_eq_nil hnone, List.length_nil]
    exact ⟨_, exec_build hk (buildTree_none _ _ h0), rfl, rfl⟩
  · have hsyms := presentSyms_eq_singleton hx
    have h1 : ndist s.present = 1 := by rw [ndist, hsyms, List.length_singleton]
    rw [exec_build hk (buildTree_one _ _ h1), realLeaves, hsyms]
    rfl

/-- Settles O25: the arena BUILD starts from has the leaves there, and merging only appends to it. -/
theorem buildPlacesLeaves : Obligations.BuildPlacesLeaves := by
  intro s hk hn
  obtain ⟨t, ht⟩ := buildTree_total s.freq s.present hk
  have B := builtTree_of_ok hk hn ht
  exact ⟨_, exec_build hk ht,
    fun x hx => ⟨leafIndex_lt hx, B.nodeAt_eq_of_start (getElem?_startArena_leafIndex s.k s.freq hx)⟩,
    fun j hj => B.nodeAt_eq_of_start (getElem?_startArena_pad s.freq hj), B.npad, padCount_le _ _ hk⟩

/-- Settles O29: the forest that the merges keep records, at every internal node, what its merge took. -/
theorem mergeTakesLeast : Obligations.MergeTakesLeast := by
  intro s hk
  obtain ⟨t, ht⟩ := buildTree_total s.freq s.present hk
  refine ⟨_, exec_build hk ht, fun x hint => ?_⟩
  have hok := buildTree_internalOk hk ht hint
  exact ⟨hok.sym, hok.nch, hok.count, hok.older, hok.ascending,
    fun c hc y hy hny hlive => hok.precedes_live hc hy hny hlive⟩

end Sys2Proof.Machine
end

section
/-! PROOFS. Statements on the code table generator GEN (spec/42_code_table.md): no tree (R120), a single leaf (R123) and
the empty tree (R125). -/

namespace Sys2Proof.Machine

/-! ### The ROM's entries (R34, R120) -/

@[simp] theorem CodeRom.clear_cvalid (x : Sym) : symGet CodeRom.clear.cvalid x = false := symGet_replicate _ x

@[simp] theorem CodeRom.put_cvalid_same (r : CodeRom) (x : Sym) (path : List Byte) : symGet (r.put x path).cvalid x = true :=
  symGet_symSet_same _ _ _

theorem CodeRom.put_cvalid_other (r : CodeRom) {x y : Sym} (path : List Byte) (h : y ≠ x) :
    symGet (r.put x path).cvalid y = symGet r.cvalid y :=
  symGet_symSet_other _ _ h

@[simp] theorem CodeRom.put_clen_same (r : CodeRom) (x : Sym) (path : List Byte) :
    symGet (r.put x path).clen x = BitVec.ofNat 8 path.length :=
  symGet_symSet_same _ _ _

/-! ### The codes of the two trees without an internal node -/

/-- R125: the walk is not begun. -/
theorem genCodes_nil {root : NodeIdx} (k : BitVec 8) (arena : List Node) (hroot : root = Config.nil) :
    genCodes k arena root = .ok CodeRom.clear :=
  if_pos hroot

theorem walk_leaf {arena : List Node} {x : NodeIdx} (k room : Nat) (path : List Byte) (r : CodeRom)
    (h : (nodeAt arena x).kind = NodeKind.leaf) :
    walk arena k (room + 1) x path r = .ok (r.put (nodeAt arena x).sym path) := by
  rw [walk, h]

/-- R123: the walk ends at the root, on the empty path. -/
theorem genCodes_leaf {arena : List Node} {root : NodeIdx} (k : BitVec 8) (hroot : root ≠ Config.nil)
    (h : (nodeAt arena root).kind = NodeKind.leaf) :
    genCodes k arena root = .ok (CodeRom.clear.put (nodeAt arena root).sym []) := by
  rw [genCodes, if_neg hroot, walk_leaf _ _ _ _ h]

/-! ### What GEN and ENC answer, check by check -/

theorem exec_gen_noTree {s : State} (h : s.treeValid = false) :
    exec .gen s = .next (raise .noTree Opcode.gen.code Opcode.gen.code.toNat s) :=
  if_neg (Bool.eq_false_iff.mp h)

theorem exec_enc_noCode {x : Sym} {s : State} (hcodes : s.codeValid = true) (hx : symGet s.cvalid x = false) :
    exec (.enc x) s = .next (raise .noCode Opcode.enc.code x.toNat s) :=
  (if_neg (by simp [hcodes])).trans (if_pos hx)

/-! ### The statement -/

/-- Settles O33: without a tree the check raises; a leaf as root is where the walk writes the empty path into a cleared
ROM; an empty tree leaves the ROM clear, so that ENC finds the codes valid and none for its symbol. -/
theorem genAtTheEdges : Obligations.GenAtTheEdges := by
  refine fun s => ⟨fun hno => ?noTree, fun hv hroot hleaf => ?singleLeaf, fun hv hnil => ?emptyTree⟩
  case noTree =>
    rw [exec_gen_noTree hno, raise_byte]
    rfl
  case singleLeaf =>
    refine ⟨_, exec_gen hv (genCodes_leaf s.k hroot hleaf), rfl, CodeRom.put_cvalid_same _ _ [],
      CodeRom.put_clen_same _ _ [], fun x hx => ?_⟩
    exact (CodeRom.put_cvalid_other _ [] hx).trans (CodeRom.clear_cvalid x)
  case emptyTree =>
    refine ⟨_, exec_gen hv (genCodes_nil s.k s.node hnil), rfl, fun x => ⟨CodeRom.clear_cvalid x, ?_⟩⟩
    rw [exec_enc_noCode rfl (CodeRom.clear_cvalid x), raise_byte]
    rfl

end Sys2Proof.Machine
end

section
/-! PROOFS. Statements on the header serializer and the packer: EMITH, PutBit, ENC and FLUSH (spec/43_packer.md R150 to
R153). -/

namespace Sys2Proof.Machine

/-! ### PutBit (R151) -/

theorem putBit_partial {s : State} (b : Bool) (h : s.boff ≠ 7#3) :
    putBit s b = { s with acc := setAccBit s.acc (7 - s.boff.toNat) b, boff := s.boff + 1#3 } :=
  if_neg h

theorem putBit_full {s : State} (b : Bool) (h : s.boff = 7#3) :
    putBit s b = { s with
      acc := 0#8, boff := 0#3, out := s.out ++ [setAccBit s.acc 0 b], outcnt := s.outcnt + 1 } := by
  rw [putBit, if_pos h, h]
  rfl

/-- R35: PutBit fills the highest free bit of ACC, so the bits below it stay 0. -/
theorem accClean_putBit {s : State} (b : Bool) (h : accClean s) : accClean (putBit s b) := by
  by_cases h7 : s.boff = 7#3
  · rw [putBit_full b h7]
    exact fun i _ => BitVec.getLsbD_zero
  · rw [putBit_partial b h7]
    intro i (hi : i < 8 - (s.boff + 1#3).toNat)
    have hboff : (s.boff + 1#3).toNat = s.boff.toNat + 1 := by bv_omega
    rw [getLsbD_setAccBit _ _ _ _ (by omega), if_neg (by omega)]
    exact h i (by omega)

/-! ### What each command answers, check by check -/

theorem exec_emith_misaligned {s : State} (h : s.boff ≠ 0#3) :
    exec .emith s = .next (raise .misaligned Opcode.emith.code s.boff.toNat s) :=
  if_pos h

theorem exec_emith_badK {s : State} (hb : s.boff = 0#3) (hk : s.k.toNat < 2) :
    exec .emith s = .next (raise .badK Opcode.emith.code s.k.toNat s) :=
  (if_neg (not_not.mpr hb)).trans (if_pos ((lt_two s.k).mpr hk))

theorem exec_emith_ok {s : State} (hb : s.boff = 0#3) (hk : 2 ≤ s.k.toNat) :
    exec .emith s = .next (outBytes (headerBytes s) s) :=
  (if_neg (not_not.mpr hb)).trans (if_neg (by rw [lt_two]; omega))

theorem exec_enc_noCodes {x : Sym} {s : State} (h : s.codeValid = false) :
    exec (.enc x) s = .next (raise .noCodes Opcode.enc.code Opcode.enc.code.toNat s) :=
  if_pos h

theorem exec_enc_ok {x : Sym} {s : State} (hcodes : s.codeValid = true) (hx : symGet s.cvalid x = true) :
    exec (.enc x) s = .next (putBits (codeStream s [x]) s) := by
  rw [← codeBits_eq]
  exact (if_neg (by simp [hcodes])).trans (if_neg (by simp [hx]))

theorem exec_flush_empty {s : State} (h : s.boff = 0#3) : exec .flush s = .next s :=
  if_neg (not_not.mpr h)

theorem exec_flush_partial {s : State} (h : s.boff ≠ 0#3) :
    exec .flush s = .next { outByte s.acc s with acc := 0#8, boff := 0#3 } :=
  if_pos h

/-! ### The statements -/

/-- Settles O35: each check raises, and past both the header's bytes go out in order. -/
theorem emithEmitsHeader : Obligations.EmithEmitsHeader := by
  refine ⟨decode_of_layout .emith Laws.Encoded.emith, fun s => ⟨fun hb => ?misaligned, fun hb hk => ?badK,
    fun hb hk => ?header⟩⟩
  case misaligned =>
    rw [exec_emith_misaligned hb, raise_eq, BitVec.ofNat_toNat]
    rfl
  case badK =>
    rw [exec_emith_badK hb hk, raise_byte]
    rfl
  case header => rw [exec_emith_ok hb hk, outBytes_eq, length_headerBytes, headerBytes_eq]

/-- Settles O36: ACC with the one bit written is what stays, or what goes out as the full byte. -/
theorem putBitPlacesBit : Obligations.PutBitPlacesBit := by
  refine fun s b => ⟨fun h => ?_, fun h => ?_, accClean_putBit b⟩
  · exact ⟨_, putBit_partial b h, fun i hi => getLsbD_setAccBit _ _ _ _ hi⟩
  · exact ⟨_, putBit_full b h, fun i hi => getLsbD_setAccBit _ _ _ _ hi⟩

/-- Settles O37: each check raises; past both, the bits of the code are put after the BOFF bits that a clean accumulator
holds. -/
theorem encPacksCode : Obligations.EncPacksCode := by
  refine fun x s => ⟨decode_of_layout (.enc x) (Laws.Encoded.enc x), exec_enc_noCodes, fun hcodes hx => ?noCode,
    fun hclean hcodes hx bits hbits => ?packed⟩
  case noCode =>
    rw [exec_enc_noCode hcodes hx, raise_byte]
    rfl
  case packed =>
    obtain ⟨hlen, hacc⟩ := accClean_pending hclean
    rw [exec_enc_ok hcodes hx, putBits_eq _ _ s hlen hacc, digitBits_eq_bitsOfDigits, ← hbits]

/-- Settles O38: a partial byte goes out and leaves BOFF = 0, where FLUSH does nothing. -/
theorem flushEmitsPartialByte : Obligations.FlushEmitsPartialByte := by
  refine ⟨decode_of_layout .flush Laws.Encoded.flush, fun s => ⟨exec_flush_empty, exec_flush_partial, ?_⟩⟩
  by_cases h : s.boff = 0#3
  · exact ⟨s, exec_flush_empty h, exec_flush_empty h⟩
  · exact ⟨_, exec_flush_partial h, exec_flush_empty rfl⟩

end Sys2Proof.Machine
end

section
/-! PROOFS. Statements on the unpacker's DECODE (spec/44_unpacker.md): the runs that read no payload (R180, R181), and
where a corrupt or truncated payload stops it (R176, R178). -/

namespace Sys2Proof.Machine

/-! ### The runs that read no payload (R180, R181) -/

theorem exec_decode_zero {s : State} (hv : s.treeValid = true) (hb : s.boff = 0#3) (hn : s.ncount = 0#32) :
    exec .decode s = .next { decodeStart s with decDone := true } :=
  (exec_decode hv hb).trans (if_pos hn)

theorem exec_decode_emptyTree {s : State} (hv : s.treeValid = true) (hb : s.boff = 0#3) (hn : s.ncount ≠ 0#32)
    (hroot : s.root = Config.nil) :
    exec .decode s = .next (raise .emptyTable Opcode.decode.code s.ncount.toNat (decodeStart s)) := by
  rw [exec_decode hv hb, if_neg hn, if_pos hroot]

theorem exec_decode_singleLeaf {s : State} (hv : s.treeValid = true) (hb : s.boff = 0#3) (hn : s.ncount ≠ 0#32)
    (hroot : s.root ≠ Config.nil) (hleaf : (nodeAt s.node s.root).kind = .leaf) :
    exec .decode s = .next (decodeSingle (decodeStart s)) := by
  rw [exec_decode hv hb, if_neg hn, if_neg hroot, if_pos hleaf]

/-- R180: NCOUNT copies of the root's symbol go out and are counted. -/
theorem decodeSingle_eq (s : State) : decodeSingle s = { s with
    out := s.out ++ List.replicate s.ncount.toNat (nodeAt s.node s.root).sym, outcnt := s.outcnt + s.ncount.toNat
    decCount := s.ncount, decDone := true } := by
  rw [decodeSingle, outBytes_eq, List.length_replicate]

/-- Settles O47: each run ends at its check, one step after DECODE's start. -/
theorem decodeAtTheEdges : Obligations.DecodeAtTheEdges := by
  refine fun s hv hb => ⟨fun hn => ?zero, fun hn hroot => ?emptyTree, fun hn hroot hleaf => ?singleLeaf⟩
  case zero => rw [exec_decode_zero hv hb hn, decodeStart_fields]
  case emptyTree =>
    rw [exec_decode_emptyTree hv hb hn hroot, decodeStart_fields, raise_eq, BitVec.ofNat_toNat, BitVec.setWidth_eq]
    rfl
  case singleLeaf => rw [exec_decode_singleLeaf hv hb hn hroot hleaf, decodeSingle_eq, decodeStart_fields]

/-! ### The turns that raise (R174, R178) -/

/-- R174: too few bits are left for a digit: UNDERRUN at the end of IN, with the cursor where it was. -/
theorem decodeTurn_underrun {s : State} {p : Nat} {x : NodeIdx} {done : List Sym} (hp : p ≤ 8 * s.inp.length)
    (hshort : 8 * s.inp.length < p + digitWidth s.k) :
    decodeTurn (decodeAt s p x done) = .error { decodeAt s p x done with
      inpos := s.inp.length, rdbit := 0#3, errKind := .format, errSub := 7#8, errOp := 0x31#8
      errInfo := BitVec.ofNat 32 done.length } := by
  have hread := readBits_short (digitWidth s.k) 0 (decodeAt s p x done) (by simpa using hp) (by simpa using hshort)
  rw [decodeTurn, readDigit, decodeAt_k, hread, underrun_atEnd]
  rfl

section
variable {s : State} {p : Nat} {x : NodeIdx} {done : List Sym} {v : Byte} {more : List Bool}
  (hbits : (bitsOfBytes s.inp).drop p = bitsOfDigits (digitWidth s.k) [v] ++ more)
  (hv : v.toNat < 2 ^ digitWidth s.k)
include hbits hv

/-- R174: the loop's state reads the digit that stands at its position. -/
theorem readDigit_decodeAt : readDigit (decodeAt s p x done) =
    .ok (v.toNat, atBit (decodeAt s p x done) (p + digitWidth s.k)) := by
  have hread := readDigit_ok (s := decodeAt s p x done) (by simpa using hbits) hv
  rwa [bitPos_decodeAt, decodeAt_k] at hread

/-- R178: a digit of K or more raises, and the cursor stays where it is. -/
theorem decodeTurn_badDigit (hbad : s.k.toNat ≤ v.toNat) : decodeTurn (decodeAt s p x done) =
    .error (raise .badDigit Opcode.decode.code v.toNat (decodeAt s (p + digitWidth s.k) x done)) :=
  (decodeTurn_of_read (readDigit_decodeAt hbits hv)).trans (if_pos hbad)

/-- R178: a digit that leads to a padding leaf raises, with the cursor at that leaf. -/
theorem decodeTurn_padLeaf (hlegal : v.toNat < s.k.toNat)
    (hpad : (nodeAt s.node ((nodeAt s.node x).child v.toNat)).kind = .pad) : decodeTurn (decodeAt s p x done) =
    .error (raise .padLeaf Opcode.decode.code ((nodeAt s.node x).child v.toNat).toNat
      (decodeAt s (p + digitWidth s.k) ((nodeAt s.node x).child v.toNat) done)) := by
  rw [decodeTurn_of_read (readDigit_decodeAt hbits hv), decodeAt_k, if_neg (Nat.not_le_of_lt hlegal), decodeAt_node,
    decodeAt_cursor, hpad]
  rfl

end

/-! ### The way to the turn that raises -/

/-- R176: a turn that raises ends the loop. -/
theorem decodeLoop_raise {s t : State} (m : Nat) (hlt : s.decCount < s.ncount) (h : decodeTurn s = .error t) :
    decodeLoop (m + 1) s = .next t := by
  rw [decodeLoop, if_pos hlt, h]

/-- R121: a walk to an internal node starts at one. -/
theorem leadsTo_int {arena : List Node} {k : Nat} {x y : NodeIdx} {q : List Byte} (h : leadsTo arena k x q y)
    (hy : (nodeAt arena y).kind = .int) : (nodeAt arena x).kind = .int := by
  by_contra hx
  obtain ⟨-, rfl⟩ := leadsTo_leaf hx h
  exact hx hy

/-- R33, R111: the arena ends below NIL, so what NIL names is FREE. -/
theorem Inv.ne_nil_of_int {s : State} (I : Inv s) {x : NodeIdx} (hx : (nodeAt s.node x).kind = .int) :
    x ≠ Config.nil := by
  rintro rfl
  obtain ⟨hwf, -⟩ := I.arena
  obtain ⟨hlen, -⟩ := Bool.and_eq_true_iff.mp hwf
  rw [nodeAt_of_le _ _ (of_decide_eq_true hlen)] at hx
  cases hx

/-- R36, R51: the byte boundary DECODE starts from lies in IN. -/
theorem Inv.startByte_le {s : State} (I : Inv s) : startByte s ≤ s.inp.length := by
  obtain ⟨hpos, hpartial, -⟩ := I.position
  by_cases h : s.rdbit = 0#3
  · rwa [startByte, if_pos h]
  · rw [startByte, if_neg h]
    exact hpartial h

section
variable {s : State} {head tail : List Bool} (I : Inv s)
  (hbits : (bitsOfBytes s.inp).drop (8 * startByte s) = head ++ tail)
include I hbits

/-- From the byte boundary on, the two parts fill IN to its end. -/
theorem length_fromStart : 8 * startByte s + head.length + tail.length = 8 * s.inp.length := by
  have hlen := congrArg List.length hbits
  rw [List.length_drop, length_bitsOfBytes, List.length_append] at hlen
  have := I.startByte_le
  omega

/-- R177: DECODE takes a turn for each digit of the codes of S and of the walk to y, emits S, and has a turn left there:
IN has 8·|IN| bits, and a digit takes at least one (R288). -/
theorem exec_decode_reaches {code : Sym → List Byte} {S : List Sym} {q : List Byte} {y : NodeIdx}
    (hv : s.treeValid = true) (hb : s.boff = 0#3) (hn : S.length < s.ncount.toNat)
    (hcode : ∀ x ∈ S, isCodeFor s code x) (hwalk : leadsTo s.node s.k.toNat s.root q y)
    (hy : (nodeAt s.node y).kind = .int)
    (hhead : head = payloadBits s.k code S ++ bitsOfDigits (digitWidth s.k) q) :
    ∃ m, exec .decode s = decodeLoop (m + 1) (decodeAt s (8 * startByte s + head.length) y S) := by
  have hk := (I.tree_ok hv).1
  have hroot := leadsTo_int hwalk hy
  have hn0 : s.ncount ≠ 0#32 := fun h => by simp [h] at hn
  have hheadLen : head.length = digitWidth s.k * codeLength code S + digitWidth s.k * q.length := by simp [hhead]
  obtain ⟨m, hm⟩ : ∃ m, 8 * s.inp.length = codeLength code S + (q.length + m) := by
    have hlen := length_fromStart I hbits
    have hW := (digitWidth_bounds s.k hk).1
    have hS := Nat.le_mul_of_pos_left (codeLength code S) hW
    have hq := Nat.le_mul_of_pos_left q.length hW
    exact ⟨8 * s.inp.length - (codeLength code S + q.length), by omega⟩
  rw [hhead, List.append_assoc] at hbits
  have hafter : (bitsOfBytes s.inp).drop (8 * startByte s + digitWidth s.k * codeLength code S) =
      bitsOfDigits (digitWidth s.k) q ++ tail := by
    rw [← List.drop_drop, hbits, List.drop_left' (length_payloadBits _ _ _)]
  refine ⟨m, ?_⟩
  calc exec .decode s
      = decodeLoop (codeLength code S + (q.length + (m + 1))) (decodeAt s (8 * startByte s) s.root []) := by
        rw [exec_decode hv hb, if_neg hn0, if_neg (I.ne_nil_of_int hroot), if_neg (by simp [hroot]), decodeStart_eq, hm]
        rfl
    _ = decodeLoop (q.length + (m + 1))
          (decodeAt s (8 * startByte s + digitWidth s.k * codeLength code S) s.root S) :=
        decodeLoop_codes hk code S hroot _ _ [] _ hcode (by simpa using hn.le) hbits
    _ = decodeLoop (m + 1) (decodeAt s (8 * startByte s + head.length) y S) := by
        rw [decodeLoop_walk hk q _ _ _ y S tail hwalk hy hn hafter, hheadLen, Nat.add_assoc]

end

/-- Settles O50: DECODE reaches y with S out, and each of the three turns that raise ends it there. -/
theorem decodeStopsAtCorruption : Obligations.DecodeStopsAtCorruption := by
  intro s code S q y tail I hvalid hb hn hcode hwalk hy head hhead hbits
  obtain ⟨m, hreach⟩ := exec_decode_reaches I hbits hvalid hb hn hcode hwalk hy hhead
  have hstop {t : State} (h : decodeTurn (decodeAt s (8 * startByte s + head.length) y S) = .error t) :
      exec .decode s = .next t := hreach.trans (decodeLoop_raise m (decCount_lt hn) h)
  have hlen := length_fromStart I hbits
  have hnext : (bitsOfBytes s.inp).drop (8 * startByte s + head.length) = tail := by
    rw [← List.drop_drop, hbits, List.drop_left]
  refine ⟨fun hshort => ?underrun, fun v more htail hfits => ⟨fun hbad => ?badDigit, fun hlegal hpad => ?padLeaf⟩⟩
  case underrun =>
    rw [hstop (decodeTurn_underrun (by omega) (by omega))]
    rfl
  case badDigit =>
    rw [hstop (decodeTurn_badDigit (hnext.trans htail) hfits hbad), raise_byte]
    rfl
  case padLeaf =>
    rw [hstop (decodeTurn_padLeaf (hnext.trans htail) hfits hlegal hpad), raise_eq, BitVec.ofNat_toNat]
    rfl

end Sys2Proof.Machine
end

section
/-! PROOFS. Statements on the control commands (spec/45_control.md): the drop of every word but SRST while an error is
pending (R202), and NOP (R203). -/

namespace Sys2Proof.Machine

/-! ### The words of a command without operands (R84) -/

/-- R84: a word whose opcode leaves a field unused that is not 0. -/
theorem decode_badField {c : CmdWord} {o : Opcode} (hopc : Cmd.opc c = o.code) (hbad : fieldsBad o c = true) :
    decode c = .error .badField := by
  simp [decode, hopc, hbad]

/-- R70, R84: with no operand field in use, a word that passes the field check has no bit set outside OPC. -/
theorem word_eq_of_fields_ok {c : CmdWord} {o : Opcode} (h8 : o.usesA8 = false) (h32 : o.usesA32 = false)
    (hok : fieldsBad o c = false) : c = 0#32 ++ 0#16 ++ 0#8 ++ Cmd.opc c := by
  have hfields : (Cmd.rsvd c = 0#16 ∧ Cmd.a8 c = 0#8) ∧ Cmd.a32 c = 0#32 := by simpa [fieldsBad, h8, h32] using hok
  obtain ⟨⟨hrsvd, ha8⟩, ha32⟩ := hfields
  calc c = Cmd.a32 c ++ Cmd.rsvd c ++ Cmd.a8 c ++ Cmd.opc c := Cmd.word_eq c
    _ = 0#32 ++ 0#16 ++ 0#8 ++ Cmd.opc c := by rw [ha32, hrsvd, ha8]

/-- R203: the zero word is the only NOP; a word with NOP's opcode and another bit set fails the field check. -/
theorem fieldsBad_nop_of_ne_zero {c : CmdWord} (hopc : Cmd.opc c = Opcode.nop.code) (hc : c ≠ 0#64) :
    fieldsBad .nop c = true := by
  by_contra hbad
  refine hc ((word_eq_of_fields_ok rfl rfl (Bool.eq_false_iff.mpr hbad)).trans ?_)
  rw [hopc]
  decide

/-! ### The statements -/

/-- Settles O8: the word is off the queue before it is dispatched, and the dispatch with an error pending drops it. -/
theorem pendingErrorDrops : Obligations.PendingErrorDrops := by
  intro s c rest hhost herr hc
  calc step s = dispatch c { s with host := rest } := step_host hhost
    _ = if c = srstWord then .next (resetCore { s with host := rest }) else .next { s with host := rest } :=
      dispatch_pending herr
    _ = .next { s with host := rest } := if_neg hc

/-- Settles O15: NOP's meaning is the state itself, and its opcode has one word that passes the field check. -/
theorem nopDoesNothing : Obligations.NopDoesNothing :=
  ⟨fun _ => rfl, decode_of_layout .nop Laws.Encoded.nop, fun _ hopc hc =>
    decode_badField (o := .nop) hopc (fieldsBad_nop_of_ne_zero hopc hc)⟩

end Sys2Proof.Machine
end

section
/-! PROOFS. Statements on the command word (spec/30_encoding.md R70, R72, R84, R85): encoder and decoder are inverse to
each other, and what a step makes of every word (spec/45_control.md R200 to R202). -/

namespace Sys2Proof.Machine

/-! ### Encoder and decoder -/

/-- R70, R72: the word of every command is laid out as its row says. -/
theorem encode_layout (i : Instr) : Laws.Encoded.Statement i := by
  cases i with
  | nop => exact Laws.Encoded.nop
  | setk k => exact Laws.Encoded.setk k
  | clrf => exact Laws.Encoded.clrf
  | cnt x => exact Laws.Encoded.cnt x
  | ldf x f => exact Laws.Encoded.ldf x f
  | setn n => exact Laws.Encoded.setn n
  | build => exact Laws.Encoded.build
  | gen => exact Laws.Encoded.gen
  | emith => exact Laws.Encoded.emith
  | enc x => exact Laws.Encoded.enc x
  | flush => exact Laws.Encoded.flush
  | parseh => exact Laws.Encoded.parseh
  | decode => exact Laws.Encoded.decode
  | srst => exact Laws.Encoded.srst

@[simp] theorem decode_encode (i : Instr) : decode (encode i) = .ok i := decode_of_layout i (encode_layout i)

/-- Settles O2: the decoder reads the layout of R70 back field by field. -/
theorem decodeInvertsEncode : Obligations.DecodeInvertsEncode := decode_encode

/-- R71, R72: a command keeps the A8 field its opcode uses, and no other. -/
theorem toInstr_a8 (o : Opcode) (a8 : BitVec 8) (a32 : BitVec 32) :
    (o.toInstr a8 a32).a8 = if o.usesA8 then a8 else 0#8 := by cases o <;> rfl

/-- R71, R72: a command keeps the A32 field its opcode uses, and no other. -/
theorem toInstr_a32 (o : Opcode) (a8 : BitVec 8) (a32 : BitVec 32) :
    (o.toInstr a8 a32).a32 = if o.usesA32 then a32 else 0#32 := by cases o <;> rfl

/-- R84: the field check fails exactly when RSVD or a field the opcode leaves unused is not 0. -/
theorem fieldsBad_iff (o : Opcode) (c : CmdWord) : fieldsBad o c = true ↔
    Cmd.rsvd c ≠ 0#16 ∨ (o.usesA8 = false ∧ Cmd.a8 c ≠ 0#8) ∨ (o.usesA32 = false ∧ Cmd.a32 c ≠ 0#32) := by
  simp [fieldsBad, or_assoc]

/-- R84: in a word that passes the field check, a field is 0 or the opcode uses it; so nothing is lost. -/
theorem encode_toInstr {c : CmdWord} {o : Opcode} (hopc : o.code = Cmd.opc c) (hok : fieldsBad o c = false) :
    encode (o.toInstr (Cmd.a8 c) (Cmd.a32 c)) = c := by
  have hfields := (fieldsBad_iff o c).not.mp (Bool.eq_false_iff.mp hok)
  push Not at hfields
  obtain ⟨hrsvd, h8, h32⟩ := hfields
  have ha8 : (if o.usesA8 then Cmd.a8 c else 0#8) = Cmd.a8 c := by
    cases hu : o.usesA8 with
    | true => rfl
    | false => exact (h8 hu).symm
  have ha32 : (if o.usesA32 then Cmd.a32 c else 0#32) = Cmd.a32 c := by
    cases hu : o.usesA32 with
    | true => rfl
    | false => exact (h32 hu).symm
  rw [encode, toInstr_a8, toInstr_a32, ha8, ha32, Opcode.opcode_toInstr, hopc, ← hrsvd]
  exact (Cmd.word_eq c).symm

/-- Settles O3: a word that decodes passed the field check. -/
theorem encodeInvertsDecode : Obligations.EncodeInvertsDecode := by
  intro c i h
  rcases decode_cases c with ⟨-, herr⟩ | ⟨o, ho, ⟨-, herr⟩ | ⟨hok, hdec⟩⟩
  · simp [herr] at h
  · simp [herr] at h
  · obtain rfl : o.toInstr (Cmd.a8 c) (Cmd.a32 c) = i := by simpa [hdec] using h
    exact encode_toInstr (Opcode.code_of_ofCode ho) hok

/-! ### Every word (R84, R200 to R202) -/

theorem Opcode.mem_all (o : Opcode) : o ∈ Opcode.all := by cases o <;> decide

/-- R73: a number that is no opcode's stands nowhere in the table. -/
theorem ofCode_eq_none_iff (b : BitVec 8) : Opcode.ofCode b = none ↔ b ∉ Opcode.all.map Opcode.code := by
  simp [Opcode.ofCode_none, Opcode.mem_all]

/-- R72: the opcodes that use A8, by number. -/
theorem usesA8_iff (o : Opcode) : o.usesA8 = false ↔ o.code ∉ [0x01#8, 0x03#8, 0x04#8, 0x21#8] := by
  cases o <;> decide

/-- R72: the opcodes that use A32, by number. -/
theorem usesA32_iff (o : Opcode) : o.usesA32 = false ↔ o.code ∉ [0x04#8, 0x05#8] := by
  cases o <;> decide

/-- R84: a word that decodes holds its command's opcode. -/
theorem opcode_of_decode {c : CmdWord} {i : Instr} (h : decode c = .ok i) : i.opcode.code = Cmd.opc c := by
  rw [← encodeInvertsDecode c i h]
  exact (encode_layout i).1.symm

/-- R84 with R240: what the error of an undecodable word writes. -/
theorem raiseDecode_eq (e : DecodeError) (c : CmdWord) (s : State) : raiseDecode e c s = { s with
    errKind := .protocol, errSub := (match e with | .illegalOpcode => 1#8 | .badField => 2#8), errOp := Cmd.opc c
    errInfo := (Cmd.opc c).setWidth 32 } := by
  cases e <;> exact raise_byte _ _ _ s

/-- Settles O4: with no error pending the decoder's three answers are told apart by the opcode table and the field
check; with one pending only the SRST word is looked at. -/
theorem illegalWordsRaise : Obligations.IllegalWordsRaise := by
  intro s c rest hhost
  have hstep : step s = dispatch c { s with host := rest } := step_host hhost
  have hraise (herr : s.errKind = ErrKind.none) {e : DecodeError} (hdec : decode c = .error e) :
      step s = .next (raiseDecode e c { s with host := rest }) :=
    hstep.trans (dispatch_error (s := { s with host := rest }) herr hdec)
  have hpending (herr : s.errKind ≠ ErrKind.none) :=
    hstep.trans (dispatch_pending (s := { s with host := rest }) herr)
  refine ⟨fun herr => ⟨fun hout => ?illegal, fun hin => ?_⟩, fun herr =>
    ⟨fun hc => (hpending herr).trans (if_pos hc), fun hc => (hpending herr).trans (if_neg hc)⟩⟩
  case illegal =>
    have hdec : decode c = .error .illegalOpcode := by
      rw [decode, (ofCode_eq_none_iff (Cmd.opc c)).mpr hout]
    rw [hraise herr hdec, raiseDecode_eq]
    rfl
  obtain ⟨o, ho⟩ : ∃ o, Opcode.ofCode (Cmd.opc c) = some o :=
    Option.ne_none_iff_exists'.mp fun hnone => (ofCode_eq_none_iff (Cmd.opc c)).mp hnone hin
  have hfields := fieldsBad_iff o c
  rw [usesA8_iff, usesA32_iff, Opcode.code_of_ofCode ho] at hfields
  refine ⟨fun hbad => ?badField, fun hok => ?executed⟩
  case badField =>
    have hdec : decode c = .error .badField := decode_badField (Opcode.code_of_ofCode ho).symm (hfields.mpr hbad)
    rw [hraise herr hdec, raiseDecode_eq]
    rfl
  case executed =>
    have hdec : decode c = .ok (o.toInstr (Cmd.a8 c) (Cmd.a32 c)) := by
      simp [decode, ho, Bool.eq_false_iff.mpr (hfields.not.mpr hok)]
    exact ⟨_, hdec, opcode_of_decode hdec, hstep.trans (dispatch_ok (s := { s with host := rest }) herr hdec)⟩

end Sys2Proof.Machine
end

section
/-! PROOFS. Statements on BUILD's whole tree (spec/41_tree_builder.md R100, R110 to R113, R116, R118; spec/10_state.md R31,
R32): it is made for every table, and its shape, its counts, its keys and its frequencies are as the rules say. -/

namespace Sys2Proof.Machine

/-! ### BUILD completes -/

theorem exec_build_badK {s : State} (hk : s.k.toNat < 2) :
    exec .build s = .next (raise .badK Opcode.build.code s.k.toNat s) :=
  if_pos ((lt_two s.k).mpr hk)

/-- Settles O23: below 2 the check raises; from 2 on BUILD's tree exists, in canonical form. -/
theorem buildCompletes : Obligations.BuildCompletes := by
  refine fun s => ⟨fun hk => ?_, fun hk => ?_⟩
  · rw [exec_build_badK hk, raise_byte]
    rfl
  · obtain ⟨t, ht⟩ := buildTree_total s.freq s.present hk
    obtain ⟨hcounted, hwf⟩ := buildTree_wf hk ht
    exact ⟨_, exec_build hk ht, hcounted, hwf, rfl⟩

section
variable {k : BitVec 8} {freq : Vector Word32 256} {present : Vector Bool 256} {t : Tree}

/-! ### The shape (R113) -/

theorem BuiltTree.ch_eq_nil (B : BuiltTree k freq present t) {x : NodeIdx} (hx : (nodeAt t.node x).kind ≠ .int) :
    (nodeAt t.node x).ch = [] := by
  rcases B.cases x with ⟨y, -, hleaf⟩ | ⟨j, -, hpad⟩ | ⟨hint, -⟩ | ⟨hfree, -⟩
  · rw [hleaf]; rfl
  · rw [hpad]; rfl
  · exact absurd hint hx
  · rw [hfree]; rfl

/-- R113: the entries are the root and the children, each once. -/
theorem Forest.count_children {L : Nat} {arena : List Node} {root : NodeIdx} (F : Forest k L arena [root]) {x : NodeIdx}
    (hx : x.toNat < arena.length) : (arena.flatMap Node.ch).count x = if x = root then 0 else 1 := by
  have hone : ([root] ++ arena.flatMap Node.ch).count x = 1 :=
    List.count_eq_one_of_mem F.nodup (F.perm.mem_iff.mpr ((mem_indices (by have := F.size; omega) x).mpr hx))
  rw [List.count_append] at hone
  by_cases h : x = root
  · rw [h, List.count_singleton_self] at hone
    rw [if_pos h, h]
    omega
  · rw [List.count_eq_zero_of_not_mem (by simpa using h), Nat.zero_add] at hone
    rw [if_neg h, hone]

/-- Settles O30: in a finished forest every entry but the root has its one parent, and a way down to it. -/
theorem treeIsFull : Obligations.TreeIsFull := by
  intro s hk hn
  obtain ⟨t, ht⟩ := buildTree_total s.freq s.present hk
  have B := builtTree_of_ok hk hn ht
  refine ⟨_, exec_build hk ht, fun x hint => ?_, fun x => B.ch_eq_nil, fun x hx => ?_⟩
  · have hok := buildTree_internalOk hk ht hint
    exact ⟨hok.nch, hok.count, hok.older⟩
  · have hin : x.toNat < t.node.length := by rw [← B.nnodes]; exact hx
    exact ⟨B.forest.count_children hin, B.forest.reach hin⟩

/-! ### The counts (R110, R111, R118) -/

/-- R110: the entries past the leaves are the internal nodes. -/
theorem BuiltTree.countP_int (B : BuiltTree k freq present t) :
    t.node.countP (fun n => decide (n.kind = NodeKind.int)) = mergeCount (ndist present) k.toNat := by
  have hlen := B.length
  obtain ⟨merged, hsplit⟩ := B.start
  have hleaves : (startArena k freq present).countP (fun n => decide (n.kind = NodeKind.int)) = 0 := by
    rw [List.countP_eq_zero]
    intro n hn
    rcases startArena_kind hn with h | h <;> simp [h]
  have hmerged : merged.countP (fun n => decide (n.kind = NodeKind.int)) = merged.length := by
    rw [List.countP_eq_length]
    intro n hn
    obtain ⟨i, hi, rfl⟩ := List.getElem_of_mem hn
    have hget : t.node[(startArena k freq present).length + i]? = some merged[i] := by
      rw [← hsplit, List.getElem?_append_right (by omega), Nat.add_sub_cancel_left, List.getElem?_eq_getElem hi]
    exact decide_eq_true (B.forest.ints _ _ hget (by simp)).kind
  rw [← hsplit, List.length_append, length_startArena] at hlen
  rw [← hsplit, List.countP_append, hleaves, hmerged]
  omega

/-- R110: I = (L − 1)/(K − 1). -/
theorem BuiltTree.mergeCount_eq (B : BuiltTree k freq present t) :
    mergeCount (ndist present) k.toNat = (t.nleaf.toNat - 1) / (k.toNat - 1) := by
  rw [B.nleaf, mergeCount]

/-- R110: the leaves left over by whole merges are one. -/
theorem BuiltTree.nleaf_mod (B : BuiltTree k freq present t) (hk : 2 ≤ k.toNat) (hn : 1 ≤ ndist present) :
    (t.nleaf.toNat - 1) % (k.toNat - 1) = 0 := by
  rw [B.nleaf]
  exact padCount_mod _ _ hn hk

/-- R111: 256 entries fill the arena at the least and at the greatest radix. -/
theorem nodes_full {k : Nat} (h : k = 2 ∨ k = 255) : 256 + padCount 256 k + mergeCount 256 k = 511 := by
  rcases h with rfl | rfl <;> decide

/-- Settles O26: BUILD's arena is the leaves and then the merges' nodes, the last of them the root. -/
theorem buildCountsNodes : Obligations.BuildCountsNodes := by
  intro s hk hn
  obtain ⟨t, ht, B⟩ := buildTree_many s.freq hk hn
  have hnodes : t.nnodes.toNat = t.nleaf.toNat + mergeCount (ndist s.present) s.k.toNat := by
    rw [B.nnodes, B.length, B.nleaf]
  have hle := mergeCount_le _ _ (ndist_le s.present) hk
  refine ⟨_, exec_build hk ht, B.nleaf, B.nleaf_mod hk (by omega), B.countP_int.trans B.mergeCount_eq, ?_,
    by rw [hnodes, B.mergeCount_eq], by rw [B.nnodes]; exact B.forest.size, by rw [B.root, B.nnodes],
    fun hall hends => ?_⟩
  · rwa [B.mergeCount_eq] at hle
  · rw [hnodes, B.nleaf, hall]
    exact nodes_full hends

/-- Settles O27: the padding count is R107's, so it is 0 whenever n − 1 is a multiple of K − 1. -/
theorem paddingInvariant : Obligations.PaddingInvariant := by
  intro s hk hn
  obtain ⟨t, ht, B⟩ := buildTree_many s.freq hk hn
  have hnpad {p : Nat} (h : padCount (ndist s.present) s.k.toNat = p) : t.npad = BitVec.ofNat 8 p := by
    rw [← h, ← B.npad, BitVec.ofNat_toNat, BitVec.setWidth_eq]
  refine ⟨_, exec_build hk ht, B.nleaf_mod hk (by omega), fun h => hnpad ?_, fun h5 h3 => hnpad ?_,
    fun h4 h3 => ⟨hnpad ?_, ?_⟩⟩
  · have hmod : (ndist s.present - 1) % (s.k.toNat - 1) = 0 := by
      rcases h with h2 | hmod
      · rw [h2]; exact Nat.mod_one _
      · exact hmod
    exact if_pos hmod
  · rw [h5, h3]; decide
  · rw [h4, h3]; decide
  · refine BitVec.eq_of_toNat_eq (B.nleaf.trans ?_)
    rw [h4, h3]
    decide

/-! ### Keys and frequencies (R31, R32) -/

/-- The key of an internal node is the least of its children's (R109). -/
theorem InternalOk.key_least {arena : List Node} {i : Nat} {n : Node} (hok : InternalOk k arena i n) :
    (∃ c ∈ n.ch, (nodeAt arena c).key = n.key) ∧ ∀ c ∈ n.ch, n.key.toNat ≤ (nodeAt arena c).key.toNat := by
  obtain ⟨hmem, hleast⟩ := List.min?_eq_some_iff.mp hok.key
  obtain ⟨c, hc, hkey⟩ := List.mem_map.mp hmem
  exact ⟨⟨c, hc, BitVec.eq_of_toNat_eq hkey⟩, fun d hd => hleast _ (List.mem_map_of_mem hd)⟩

/-- R31: the greatest key is that of the last padding leaf there can be, 256 + 252. -/
theorem BuiltTree.key_le (B : BuiltTree k freq present t) (hk : 2 ≤ k.toNat) (x : NodeIdx) :
    (nodeAt t.node x).key.toNat ≤ 508 := by
  have hpads := padCount_le (ndist present) k.toNat hk
  have hk' := k.isLt
  rcases B.cases x with ⟨y, -, hleaf⟩ | ⟨j, hj, hpad⟩ | ⟨-, hok⟩ | ⟨hfree, -⟩
  · have := y.isLt
    rw [hleaf, leafNode_key]; omega
  · rw [hpad, padNode_key j (by omega)]; omega
  · obtain ⟨⟨c, hc, hkey⟩, -⟩ := hok.key_least
    have := hok.older c hc
    rw [← hkey]
    exact B.key_le hk c
  · rw [hfree]; simp [Node.free]
termination_by x.toNat

/-- R109: going down a path no frequency grows, since a node's is the sum of its children's. -/
theorem BuiltTree.freq_le_of_leadsTo (B : BuiltTree k freq present t) {p : List Byte} {x y : NodeIdx}
    (h : leadsTo t.node k.toNat x p y) : (nodeAt t.node y).freq.toNat ≤ (nodeAt t.node x).freq.toNat := by
  induction p generalizing x with
  | nil => rw [show x = y from h]
  | cons d p ih =>
    obtain ⟨hint, hd, hrest⟩ := h
    have hok := (B.forest.internal hint).2.2
    refine (ih hrest).trans ?_
    rw [hok.freq]
    exact List.single_le_sum (fun _ _ => Nat.zero_le _) _ (List.mem_map_of_mem (B.forest.child hint hd).1)

/-- R32: the root has the greatest frequency, the sum of the table's. -/
theorem BuiltTree.freq_le (B : BuiltTree k freq present t) (x : NodeIdx) :
    (nodeAt t.node x).freq.toNat ≤ 256 * (2 ^ 32 - 1) := by
  rcases Nat.lt_or_ge x.toNat t.node.length with hx | hx
  · obtain ⟨p, hp⟩ := B.forest.reach hx
    exact (B.freq_le_of_leadsTo hp).trans (by simpa using B.forest.total)
  · rw [nodeAt_of_le _ _ hx]; simp [Node.free]

theorem BuiltTree.leaf_eq (B : BuiltTree k freq present t) {x : NodeIdx} (hx : (nodeAt t.node x).kind = .leaf) :
    ∃ y, symGet present y = true ∧ nodeAt t.node x = leafNode y (symGet freq y) := by
  rcases B.cases x with hleaf | ⟨j, -, hpad⟩ | ⟨hint, -⟩ | ⟨hfree, -⟩
  · exact hleaf
  · simp [hpad, padNode] at hx
  · simp [hint] at hx
  · simp [hfree, Node.free] at hx

theorem BuiltTree.pad_eq (B : BuiltTree k freq present t) {x : NodeIdx} (hx : (nodeAt t.node x).kind = .pad) :
    ∃ j, j < padCount (ndist present) k.toNat ∧ nodeAt t.node x = padNode j := by
  rcases B.cases x with ⟨y, -, hleaf⟩ | hpad | ⟨hint, -⟩ | ⟨hfree, -⟩
  · simp [hleaf, leafNode] at hx
  · exact hpad
  · simp [hint] at hx
  · simp [hfree, Node.free] at hx

end

/-- Settles O28: the empty table has no node; otherwise each kind of node has the key and frequency of its rule, and both
bounds follow along the tree. -/
theorem nodeKeysAndFrequencies : Obligations.NodeKeysAndFrequencies := by
  intro s hk
  obtain ⟨t, ht⟩ := buildTree_total s.freq s.present hk
  refine ⟨_, exec_build hk ht, fun x => ?_⟩
  rcases Nat.eq_zero_or_pos (ndist s.present) with h0 | hn
  · obtain rfl := Except.ok.inj ((buildTree_none s.k s.freq h0).symm.trans ht)
    simp [nodeAt, Node.free]
  have B := builtTree_of_ok hk hn ht
  refine ⟨B.key_le hk x, B.freq_le x, fun hleaf => ?leaf, fun hpad => ?pad, fun hint => ?internal⟩
  case leaf =>
    obtain ⟨y, -, hy⟩ := B.leaf_eq hleaf
    rw [hy]
    exact ⟨rfl, rfl⟩
  case pad =>
    obtain ⟨j, hj, hnode⟩ := B.pad_eq hpad
    have hpads := padCount_le (ndist s.present) s.k.toNat hk
    have hk' := s.k.isLt
    rw [hnode, padNode_key j (by omega)]
    exact ⟨by omega, rfl⟩
  case internal =>
    have hok := buildTree_internalOk hk ht hint
    exact ⟨hok.key_least.1, hok.key_least.2, hok.freq⟩

/-- Settles O31: both BUILDs answer the tree of the one table, and both GENs the ROM of the one tree. -/
theorem buildIsDeterministic : Obligations.BuildIsDeterministic := by
  intro s s' hk hk' hfreq hpresent
  obtain ⟨t, ht⟩ := buildTree_total s.freq s.present hk
  obtain ⟨r, hr, -⟩ := genCodes_spec hk ht
  have ht' : buildTree s'.k s'.freq s'.present = .ok t := by rw [hk', hfreq, hpresent]; exact ht
  have hr' : genCodes s'.k t.node t.root = .ok r := by rw [hk']; exact hr
  exact ⟨_, _, exec_build hk ht, exec_build (hk' ▸ hk) ht', rfl, rfl, rfl, rfl, rfl,
    _, _, exec_gen rfl hr, exec_gen rfl hr', rfl, rfl, rfl⟩

end Sys2Proof.Machine
end

section
/-! PROOFS. Statements on the codes of a tree (spec/42_code_table.md R120 to R124): GEN writes each symbol's path, the codes
are prefix-free, and the one code of a single leaf packs nothing (spec/43_packer.md R155). -/

namespace Sys2Proof.Machine

/-- R121: each digit of a path picks one of K children. -/
theorem leadsTo_digit_lt {arena : List Node} {k : Nat} {x y : NodeIdx} {p : List Byte} (h : leadsTo arena k x p y) :
    ∀ d ∈ p, d.toNat < k := by
  induction p generalizing x with
  | nil => simp
  | cons d p ih =>
    obtain ⟨-, hd, hrest⟩ := h
    exact List.forall_mem_cons.mpr ⟨hd, ih hrest⟩

/-- R34, R114: the ROM holds as many digits of a code as CLEN says, since a code has at most 255. -/
theorem CodesOk.length_cdig {k : BitVec 8} {present : Vector Bool 256} {t : Tree} {r : CodeRom} (C : CodesOk k present t r)
    (x : Sym) : (symGet r.cdig x).length = (symGet r.clen x).toNat := by
  cases hx : symGet r.cvalid x with
  | true =>
    obtain ⟨y, -, -, -, hle, hlen⟩ := C.path x hx
    rw [hlen, BitVec.toNat_ofNat, Nat.mod_eq_of_lt (by omega)]
  | false =>
    obtain ⟨hlen, hdig⟩ := C.none x hx
    rw [hlen, hdig]
    rfl

/-- Settles O32: the ROM GEN writes holds the tree's paths, and no digit past their ends. -/
theorem genWritesPaths : Obligations.GenWritesPaths := by
  intro s I hvalid
  obtain ⟨hk, htree⟩ := I.tree_ok hvalid
  obtain ⟨r, hr, C⟩ := genCodes_spec hk htree
  refine ⟨_, exec_gen hvalid hr, rfl, C.valid, fun x hx => ?_, fun x i hi => ?_⟩
  · obtain ⟨y, hpath, hleaf, hsym, hle, -⟩ := C.path x ((C.valid x).trans hx)
    rw [codeOf_eq (C.length_cdig x)]
    exact ⟨hle, leadsTo_digit_lt hpath, y, hpath, hleaf, hsym⟩
  · rw [digitAt, List.getElem?_eq_none ((C.length_cdig x).trans_le hi), Option.getD_none]

/-- Settles O34: a code that goes on past another's end would go on past its leaf. -/
theorem codesArePrefixFree : Obligations.CodesArePrefixFree := by
  rintro s I hcodes x y hx hy hxy ⟨q, hq⟩
  obtain ⟨u, hu, huLeaf, rfl⟩ := I.code_path hcodes hx
  obtain ⟨v, hv, -, rfl⟩ := I.code_path hcodes hy
  rw [← hq, leadsTo_append] at hv
  obtain ⟨w, hw, hwv⟩ := hv
  obtain rfl := leadsTo_unique hu hw
  obtain ⟨-, rfl⟩ := leadsTo_leaf (by simp [huLeaf]) hwv
  exact hxy rfl

/-- R106, R121, R123: when the root is a leaf every code is empty. -/
theorem isCodeFor_of_rootLeaf {s : State} {code : Sym → List Byte} {x : Sym} (h : isCodeFor s code x)
    (hroot : (nodeAt s.node s.root).kind = .leaf) : code x = [] ∧ (nodeAt s.node s.root).sym = x := by
  obtain ⟨y, hpath, -, hsym⟩ := h
  obtain ⟨hnil, rfl⟩ := leadsTo_leaf (by simp [hroot]) hpath
  exact ⟨hnil, hsym⟩

/-- R106: the tree of one entry is its leaf. -/
theorem Inv.rootLeaf {s : State} (I : Inv s) (hvalid : s.treeValid = true) (h1 : ndist s.present = 1) :
    (nodeAt s.node s.root).kind = .leaf := by
  obtain ⟨hk, htree⟩ := I.tree_ok hvalid
  have hone := Except.ok.inj ((buildTree_one s.k s.freq h1).symm.trans htree)
  injection hone with hnode _ _ _ hroot
  obtain ⟨x, hx⟩ := List.length_eq_one_iff.mp h1
  rw [← hnode, ← hroot, realLeaves, hx]
  rfl

/-- Settles O40: the one code is empty, so ENC puts no bit. -/
theorem singleSymbolPacksNothing : Obligations.SingleSymbolPacksNothing := by
  intro s x I hcodes h1 hx
  obtain ⟨-, hvalid, -, C⟩ := I.codes_ok hcodes
  have hcoded : symGet s.cvalid x = true := (C.valid x).trans hx
  obtain ⟨hnil, -⟩ := isCodeFor_of_rootLeaf (I.code_path hcodes hcoded) (I.rootLeaf hvalid h1)
  have hbits : codeStream s [x] = [] := by simp [codeStream, hnil, bitsOfDigits]
  rw [exec_enc_ok hcodes hcoded, hbits]
  rfl

end Sys2Proof.Machine
end

section
/-! PROOFS. Statements over all commands (spec/60_exceptions.md R239 to R241, spec/20_memory.md R51, R53) and DECODE's end
for every arena and every IN (spec/44_unpacker.md R176, R179, spec/70_reset_and_hazards.md R288). -/

namespace Sys2Proof.Machine

/-! ### Errors (R239, R240, R241) -/

/-- R240 over all commands: one keeps ERRKIND, or raises with nothing else written, or is PARSEH, DECODE or the reset. -/
theorem exec_errKind {i : Instr} {s t : State} (h : exec i s = .next t) :
    t.errKind = s.errKind ∨ raises i s t ∨ (i = .parseh ∧ execParseh s = .next t) ∨
      (i = .decode ∧ exec .decode s = .next t) ∨ (i = .srst ∧ t = resetCore s) := by
  rcases exec_cases h with rfl | hraise | ⟨-, hw⟩ | ⟨n, -, rfl⟩ | ⟨-, -, b, -, rfl⟩ | ⟨-, -, r, -, rfl⟩ | ⟨-, rfl⟩ |
    ⟨-, -, hp⟩ | hparseh | hdecode | hsrst
  · exact .inl rfl
  · exact .inr (.inl hraise)
  · left; rw [hw]
  · exact .inl rfl
  · exact .inl rfl
  · exact .inl rfl
  · exact .inl rfl
  · left; rw [hp]
  · exact .inr (.inr (.inl hparseh))
  · exact .inr (.inr (.inr (.inl hdecode)))
  · exact .inr (.inr (.inr (.inr hsrst)))

/-- R171, R239: a PARSEH that ends with an error has raised one of its five. -/
theorem execParseh_error {s t : State} (h : execParseh s = .next t) (hs : s.errKind = .none) (ht : t.errKind ≠ .none) :
    headerError t := by
  obtain ⟨u, hu, -, -, herr, -⟩ := execParseh_cases s
  obtain rfl : u = t := by simpa [hu] using h
  exact herr.resolve_right fun ⟨hkind, _⟩ => ht (hkind.trans hs)

/-- Settles O54: a raise is from the command's list, and so are the errors of PARSEH and of DECODE. -/
theorem commandsRaiseOnly : Obligations.CommandsRaiseOnly := by
  intro i s t hs h ht
  rcases exec_errKind h with hkept | ⟨e, he, n, rfl⟩ | ⟨rfl, hparseh⟩ | ⟨rfl, hdecode⟩ | ⟨-, rfl⟩
  · exact absurd (hkept.trans hs) ht
  · exact ⟨e, he, rfl, rfl, rfl⟩
  · exact execParseh_error hparseh hs ht
  · exact (exec_decode_cases hdecode).2.resolve_left fun hkept => ht (hkept.trans hs)
  · exact absurd rfl ht

/-- Settles O55: none of the seven is PARSEH, DECODE or SRST, so the error was a raise and wrote nothing else. -/
theorem checksBeforeWrites : Obligations.ChecksBeforeWrites := by
  intro i s t hi hs h ht
  rcases exec_errKind h with hkept | ⟨e, -, n, rfl⟩ | ⟨rfl, -⟩ | ⟨rfl, -⟩ | ⟨rfl, -⟩
  · exact absurd (hkept.trans hs) ht
  · rfl
  · simp at hi
  · simp at hi
  · simp at hi

/-! ### Ownership (R33, R34, R35, R51, R53) -/

/-- PARSEH's writes, whether it raises or not: the radix, the table, the flags, the position, the error registers. -/
theorem execParseh_frame {s t : State} (h : execParseh s = .next t) :
    t = { s with k := t.k, ncount := t.ncount, freq := t.freq, present := t.present, treeValid := t.treeValid,
                 codeValid := t.codeValid, decDone := t.decDone, inpos := t.inpos, rdbit := t.rdbit,
                 errKind := t.errKind, errSub := t.errSub, errOp := t.errOp, errInfo := t.errInfo } := by
  obtain ⟨u, hu, -, -, -, hcases⟩ := execParseh_cases s
  obtain rfl : u = t := by simpa [hu] using h
  rcases hcases with ⟨-, hfixed⟩ | ⟨-, -, hloaded⟩
  · rw [hfixed]
  · rw [hloaded]

/-- Settles O53: every command's next state is the old one but for fields of its own. -/
theorem onlyOwnersWrite : Obligations.OnlyOwnersWrite := by
  intro i s t h
  rcases exec_cases h with rfl | ⟨e, -, n, rfl⟩ | ⟨-, hw⟩ | ⟨n, -, rfl⟩ | ⟨rfl, -, b, -, rfl⟩ | ⟨rfl, -, r, -, rfl⟩ |
    ⟨rfl, rfl⟩ | ⟨hi, hout, hp⟩ | ⟨rfl, hparseh⟩ | ⟨rfl, hdecode⟩ | ⟨rfl, rfl⟩
  · simp
  · simp
  · rw [hw]; simp
  · simp
  · simp
  · simp
  · simp
  · rw [hp]
    rcases hi with ⟨x, rfl⟩ | rfl <;> simp [hout]
  · rw [execParseh_frame hparseh]; simp
  · obtain ⟨F, -⟩ := exec_decode_cases hdecode
    rw [F.only]; simp [F.appends]
  · simp

/-! ### DECODE ends (R179, R288) -/

/-- R36: the read position is in IN when its bit is. -/
theorem bitPos_le_iff (s : State) : bitPos s ≤ 8 * s.inp.length ↔
    s.inpos ≤ s.inp.length ∧ (s.rdbit ≠ 0#3 → s.inpos < s.inp.length) := by
  have hlt := s.rdbit.isLt
  have hzero : s.rdbit ≠ 0#3 ↔ s.rdbit.toNat ≠ 0 := by rw [ne_eq, ← BitVec.toNat_inj]; rfl
  rw [hzero, bitPos]
  omega

theorem exec_decode_noTree {s : State} (h : s.treeValid = false) :
    exec .decode s = .next (raise .noTree Opcode.decode.code Opcode.decode.code.toNat s) :=
  if_pos h

theorem exec_decode_misaligned {s : State} (hv : s.treeValid = true) (hb : s.boff ≠ 0#3) :
    exec .decode s = .next (raise .misaligned Opcode.decode.code s.boff.toNat s) :=
  (if_neg (by simp [hv])).trans (if_pos hb)

/-- Settles O46: the two checks stand before everything else, in this order. -/
theorem decodeChecksFirst : Obligations.DecodeChecksFirst := by
  refine fun s => ⟨fun hv => ?noTree, fun hv hb => ?misaligned⟩
  case noTree =>
    rw [exec_decode_noTree hv, raise_byte]
    rfl
  case misaligned =>
    rw [exec_decode_misaligned hv hb, raise_eq, BitVec.ofNat_toNat]
    rfl

/-- R175, R176: how DECODE succeeds: the error registers are as before, and the terminal condition holds. -/
structure DecodeSucceeded (s t : State) : Prop where
  errors : t.errKind = s.errKind ∧ t.errSub = s.errSub ∧ t.errOp = s.errOp ∧ t.errInfo = s.errInfo
  tree : s.treeValid = true
  decDone : t.decDone = true
  decCount : t.decCount = s.ncount
  cursor : t.cursor = s.root

/-- R176, R178: how DECODE fails: it raised, and DEC_DONE is clear unless a check before the start raised. -/
structure DecodeFailed (s t : State) : Prop where
  error : ∃ e : Err, t.errKind = e.kind ∧ t.errSub = e.sub
  done : t.decDone = false ∨ (t.decDone = s.decDone ∧ t.decCount = s.decCount ∧ t.cursor = s.cursor)

/-- DECODE's start stays in its frame. -/
theorem decodeStart_frame (s : State) : DecodeFrame s (decodeStart s) := by
  rw [decodeStart_fields]
  exact ⟨rfl, List.prefix_rfl, rfl⟩

@[simp] theorem bitPos_decodeStart (s : State) : bitPos (decodeStart s) = 8 * startByte s := by
  rw [decodeStart_eq, bitPos_decodeAt]

theorem bitPos_le_startByte (s : State) : bitPos s ≤ 8 * startByte s := by
  have hlt := s.rdbit.isLt
  by_cases h : s.rdbit = 0#3
  · simp [bitPos, startByte, h]
  · rw [bitPos, startByte, if_neg h]
    omega

/-- R179, R288: with a valid tree and BOFF = 0, DECODE ends for every arena and every IN. -/
theorem exec_decode_started {s : State} (hk : 2 ≤ s.k.toNat) (hv : s.treeValid = true) (hb : s.boff = 0#3) :
    ∃ t, exec .decode s = .next t ∧ DecodeFrame s t ∧ (startByte s ≤ s.inp.length → bitPos t ≤ 8 * s.inp.length) ∧
      (DecodeSucceeded s t ∨ DecodeFailed s t) := by
  have hF := decodeStart_frame s
  have hpos := bitPos_decodeStart s
  by_cases hn : s.ncount = 0#32
  · refine ⟨_, exec_decode_zero hv hb hn, hF.trans ⟨rfl, List.prefix_rfl, rfl⟩,
      fun h => hpos.trans_le (Nat.mul_le_mul_left 8 h), .inl ?_⟩
    rw [decodeStart_fields]
    exact ⟨⟨rfl, rfl, rfl, rfl⟩, hv, rfl, hn.symm, rfl⟩
  by_cases hroot : s.root = Config.nil
  · refine ⟨_, exec_decode_emptyTree hv hb hn hroot, hF.trans ⟨rfl, List.prefix_rfl, rfl⟩,
      fun h => hpos.trans_le (Nat.mul_le_mul_left 8 h), .inr ⟨⟨.emptyTable, rfl, rfl⟩, .inl ?_⟩⟩
    rw [decodeStart_fields]
    rfl
  by_cases hleaf : (nodeAt s.node s.root).kind = .leaf
  · rw [exec_decode_singleLeaf hv hb hn hroot hleaf, decodeSingle_eq]
    refine ⟨_, rfl, hF.trans ⟨rfl, List.prefix_append _ _, ?_⟩,
      fun h => hpos.trans_le (Nat.mul_le_mul_left 8 h), .inl ?_⟩
    · simp; omega
    · rw [decodeStart_fields]
      exact ⟨⟨rfl, rfl, rfl, rfl⟩, hv, rfl, rfl, rfl⟩
  rw [exec_decode hv hb, if_neg hn, if_neg hroot, if_neg hleaf]
  obtain ⟨t, ht, hT, hin, hend⟩ := decodeLoop_cases (8 * s.inp.length + 1) (decodeStart s)
    (by rw [decodeStart_fields]; exact hk) (by rw [decodeStart_fields]; exact Nat.zero_le _)
    (by rw [decodeStart_fields]; exact fun _ => rfl) (by omega) (by rw [decodeStart_fields]; simp only; omega)
  rw [hpos] at hin
  rw [decodeStart_fields] at hin hend
  refine ⟨t, ht, hF.trans hT, fun h => hin (Nat.mul_le_mul_left 8 h), ?_⟩
  rcases hend with ⟨h1, h2, h3, h4, hdone, hcount, hcursor⟩ | ⟨e, -, hkind, hsub, -, hdone⟩
  · exact .inl ⟨⟨h1, h2, h3, h4⟩, hv, hdone, hcount, hcursor⟩
  · exact .inr ⟨⟨e, hkind, hsub⟩, .inl hdone⟩

/-- Everything DECODE can do when a valid tree means a legal radix (R27): it ends, with its position in IN. -/
theorem exec_decode_ends {s : State} (hk : s.treeValid = true → 2 ≤ s.k.toNat) :
    ∃ t, exec .decode s = .next t ∧ DecodeFrame s t ∧ (startByte s ≤ s.inp.length → bitPos t ≤ 8 * s.inp.length) ∧
      (DecodeSucceeded s t ∨ DecodeFailed s t) := by
  have hkept : startByte s ≤ s.inp.length → bitPos s ≤ 8 * s.inp.length :=
    fun h => (bitPos_le_startByte s).trans (Nat.mul_le_mul_left 8 h)
  by_cases hv : s.treeValid = true
  · by_cases hb : s.boff = 0#3
    · exact exec_decode_started (hk hv) hv hb
    · exact ⟨_, exec_decode_misaligned hv hb, ⟨rfl, List.prefix_rfl, rfl⟩, hkept,
        .inr ⟨⟨.misaligned, rfl, rfl⟩, .inr ⟨rfl, rfl, rfl⟩⟩⟩
  · exact ⟨_, exec_decode_noTree (Bool.eq_false_iff.mpr hv), ⟨rfl, List.prefix_rfl, rfl⟩, hkept,
      .inr ⟨⟨.noTree, rfl, rfl⟩, .inr ⟨rfl, rfl, rfl⟩⟩⟩

/-- Settles O48: DECODE ends in its frame, and an end without an error is the terminal condition. -/
theorem decodeCompletes : Obligations.DecodeCompletes := by
  intro s hk
  obtain ⟨t, ht, F, -, hend⟩ := exec_decode_ends (s := s) fun _ => hk
  refine ⟨t, ht, F.only, F.appends, F.counted, fun _ hnone => ?_⟩
  rcases hend with hok | ⟨⟨e, hkind, -⟩, -⟩
  · exact ⟨hok.decDone, hok.decCount, hok.cursor⟩
  · exact absurd (hkind.symm.trans hnone) e.kind_ne_none

end Sys2Proof.Machine
end

section
/-! PROOFS. The invariant (spec/10_state.md R21 to R41): it holds at reset, every step keeps it, and no step from it faults
(spec/60_exceptions.md R247). -/

namespace Sys2Proof.Machine

/-! ### At reset (R41) -/

/-- The reset state meets the invariant whatever the host's side holds. -/
theorem inv_reset_hosted (inp : List Byte) (host : List HostMove) (reads : List Word32) (freeCount : Nat) :
    Inv { State.reset with inp, host, reads, freeCount } where
  radix := .inl rfl
  table := fun x _ => symGet_replicate 0#32 x
  tree := nofun
  codes := nofun
  done := nofun
  arena := ⟨rfl, rfl⟩
  rom := fun x => ⟨by simp [State.reset], fun _ => symGet_replicate 0#8 x⟩
  acc := fun _ _ => BitVec.getLsbD_zero
  out := rfl
  position := ⟨Nat.zero_le _, fun h => absurd rfl h, fun _ => ⟨rfl, rfl⟩⟩
  error := .inl ⟨rfl, rfl, rfl, rfl⟩

/-- Settles O56: every flag is clear, every list empty, every register 0 or NIL. -/
theorem invariantAtReset : Obligations.InvariantAtReset := inv_reset_hosted [] [] [] 0

/-! ### What the commands with a check answer -/

/-- What a CNT that does not overflow writes (R92). -/
def countOne (s : State) (x : Sym) : State :=
  invalidate { s with
    freq := symSet s.freq x (symGet s.freq x + 1#32), present := symSet s.present x true, ncount := s.ncount + 1#32 }

/-- What LDF of a new entry writes (R93). -/
def loadEntry (s : State) (e : Sym × Word32) : State :=
  invalidate { s with freq := symSet s.freq e.1 e.2, present := symSet s.present e.1 true }

section
variable (s : State)

theorem exec_setk_cases (k : BitVec 8) : exec (.setk k) s = .next (raise .badK Opcode.setk.code k.toNat s) ∨
    (2 ≤ k.toNat ∧ exec (.setk k) s = .next (invalidate { s with k := k })) := by
  rcases Nat.lt_or_ge k.toNat 2 with hk | hk
  · exact .inl (exec_setk_small hk)
  · exact .inr ⟨hk, exec_setk_ok hk⟩

theorem exec_cnt_cases (x : Sym) : exec (.cnt x) s = .next (raise .countOverflow Opcode.cnt.code x.toNat s) ∨
    exec (.cnt x) s = .next (countOne s x) := by
  by_cases hmax : s.ncount.toNat = 2 ^ 32 - 1 ∨ (symGet s.freq x).toNat = 2 ^ 32 - 1
  · exact .inl (exec_cnt_overflow hmax)
  · obtain ⟨hn, hf⟩ := not_or.mp hmax
    exact .inr (exec_cnt_ok hn hf)

theorem exec_ldf_cases (x : Sym) (f : Word32) : exec (.ldf x f) s = .next (raise .dupSymbol Opcode.ldf.code x.toNat s) ∨
    exec (.ldf x f) s = .next (loadEntry s (x, f)) := by
  cases hx : symGet s.present x with
  | true => exact .inl (exec_ldf_dup hx)
  | false => exact .inr (exec_ldf_ok hx)

theorem exec_emith_cases : (∃ e n, exec .emith s = .next (raise e Opcode.emith.code n s)) ∨
    exec .emith s = .next (outBytes (headerBytes s) s) := by
  by_cases hb : s.boff = 0#3
  · rcases Nat.lt_or_ge s.k.toNat 2 with hk | hk
    · exact .inl ⟨_, _, exec_emith_badK hb hk⟩
    · exact .inr (exec_emith_ok hb hk)
  · exact .inl ⟨_, _, exec_emith_misaligned hb⟩

theorem exec_enc_cases (x : Sym) : (∃ e n, exec (.enc x) s = .next (raise e Opcode.enc.code n s)) ∨
    exec (.enc x) s = .next (putBits (codeStream s [x]) s) := by
  cases hcodes : s.codeValid with
  | false => exact .inl ⟨_, _, exec_enc_noCodes hcodes⟩
  | true =>
    cases hx : symGet s.cvalid x with
    | false => exact .inl ⟨_, _, exec_enc_noCode hcodes hx⟩
    | true => exact .inr (exec_enc_ok hcodes hx)

theorem exec_flush_cases : exec .flush s = .next s ∨
    exec .flush s = .next { outByte s.acc s with acc := 0#8, boff := 0#3 } := by
  by_cases hb : s.boff = 0#3
  · exact .inl (exec_flush_empty hb)
  · exact .inr (exec_flush_partial hb)

end

/-! ### The table's commands (R90 to R94) -/

/-- R25: an entry put in the table is a key, so the table stays clean. -/
theorem tableClean_put {s : State} (h : tableClean s) (x : Sym) (f : Word32) :
    tableClean { s with freq := symSet s.freq x f, present := symSet s.present x true } := by
  intro y hy
  by_cases hyx : y = x
  · simp [hyx] at hy
  · rw [symGet_symSet_other _ _ hyx] at hy ⊢
    exact h y hy

/-- A command that writes the table leaves a legal radix and a clean table. -/
theorem Inv.tableWritten {i : Instr} {s t : State} (I : Inv s) (h : exec i s = .next t) (hw : writesTable s t)
    (hi : i = .clrf ∨ (∃ k, i = .setk k) ∨ (∃ x, i = .cnt x) ∨ ∃ x f, i = .ldf x f) : Inv t := by
  rcases hi with rfl | ⟨k, rfl⟩ | ⟨x, rfl⟩ | ⟨x, f, rfl⟩
  · obtain rfl := Host.Outcome.next.inj h
    exact I.cleared I.radix (fun x _ => symGet_replicate 0#32 x) hw
  · rcases exec_setk_cases s k with he | ⟨hk, he⟩ <;> obtain rfl := Host.Outcome.next.inj (he.symm.trans h)
    · exact I.raised _ _ _
    · exact I.cleared (.inr hk) I.table hw
  · rcases exec_cnt_cases s x with he | he <;> obtain rfl := Host.Outcome.next.inj (he.symm.trans h)
    · exact I.raised _ _ _
    · exact I.cleared I.radix (tableClean_put I.table x _) hw
  · rcases exec_ldf_cases s x f with he | he <;> obtain rfl := Host.Outcome.next.inj (he.symm.trans h)
    · exact I.raised _ _ _
    · exact I.cleared I.radix (tableClean_put I.table x f) hw

/-! ### BUILD and GEN (R27, R33, R34) -/

theorem Inv.built {s : State} (I : Inv s) (hk : 2 ≤ s.k.toNat) {b : Tree}
    (hb : buildTree s.k s.freq s.present = .ok b) : Inv { s with
      node := b.node, nnodes := b.nnodes, nleaf := b.nleaf, npad := b.npad, root := b.root
      treeValid := true, codeValid := false, decDone := false } := by
  obtain ⟨hcounted, hwf⟩ := buildTree_wf hk hb
  exact ⟨I.radix, I.table, fun _ => ⟨hk, hb⟩, nofun, nofun, ⟨hwf, hcounted⟩, I.rom, I.acc,
    I.out, I.position, I.error⟩

theorem Inv.generated {s : State} (I : Inv s) (hv : s.treeValid = true) {r : CodeRom}
    (hr : genCodes s.k s.node s.root = .ok r) :
    Inv { s with cvalid := r.cvalid, clen := r.clen, cdig := r.cdig, codeValid := true } := by
  obtain ⟨hk, htree⟩ := I.tree_ok hv
  obtain ⟨r', hr', C⟩ := genCodes_spec hk htree
  obtain rfl : r' = r := Except.ok.inj (hr'.symm.trans hr)
  exact ⟨I.radix, I.table, I.tree, fun _ => ⟨hv, hr⟩, I.done, I.arena,
    fun x => ⟨C.length_cdig x, fun hx => (C.none x hx).1⟩, I.acc, I.out, I.position, I.error⟩

/-! ### The packer (R35, R53) -/

/-- The packer's registers and OUT written, with a clean accumulator and OUT counted. -/
theorem Inv.packed {s : State} (I : Inv s) {acc : BitVec 8} {boff : BitVec 3} {out : List Byte} {outcnt : Nat}
    (hacc : accClean { s with acc, boff }) (hout : outcnt = out.length) : Inv { s with acc, boff, out, outcnt } :=
  ⟨I.radix, I.table, I.tree, I.codes, I.done, I.arena, I.rom, hacc, hout, I.position, I.error⟩

theorem Inv.putBit {s : State} (I : Inv s) (b : Bool) : Inv (putBit s b) := by
  have hacc := accClean_putBit b I.acc
  by_cases h7 : s.boff = 7#3
  · rw [putBit_full b h7] at hacc ⊢
    exact I.packed hacc (by rw [I.out, List.length_append, List.length_singleton])
  · rw [putBit_partial b h7] at hacc ⊢
    exact I.packed hacc I.out

theorem Inv.putBits {s : State} (I : Inv s) (bs : List Bool) : Inv (putBits bs s) := by
  induction bs generalizing s with
  | nil => exact I
  | cons b bs ih => exact ih (I.putBit b)

theorem Inv.outBytes {s : State} (I : Inv s) (bs : List Byte) : Inv (outBytes bs s) := by
  rw [outBytes_eq]
  exact I.packed I.acc (by rw [I.out, List.length_append])

theorem Inv.encoded {s t : State} (I : Inv s) {x : Sym} (h : exec (.enc x) s = .next t) : Inv t := by
  rcases exec_enc_cases s x with ⟨e, n, he⟩ | he <;> obtain rfl := Host.Outcome.next.inj (he.symm.trans h)
  · exact I.raised _ _ _
  · exact I.putBits _

theorem Inv.flushed {s t : State} (I : Inv s) (h : exec .flush s = .next t) : Inv t := by
  rcases exec_flush_cases s with he | he <;> obtain rfl := Host.Outcome.next.inj (he.symm.trans h)
  · exact I
  · exact I.packed (fun _ _ => BitVec.getLsbD_zero) (by simpa [outCounted] using I.out)

/-! ### The readers of IN (R36, R171, R176) -/

theorem headerError.legal {t : State} (h : headerError t) : errorLegal t := by
  obtain ⟨e, -, hkind, hsub, -⟩ := h
  exact .inr ⟨e, hkind, hsub⟩

/-- The error registers of a state that meets the invariant, kept. -/
theorem Inv.error_kept {s t : State} (I : Inv s)
    (h : t.errKind = s.errKind ∧ t.errSub = s.errSub ∧ t.errOp = s.errOp ∧ t.errInfo = s.errInfo) : errorLegal t := by
  obtain ⟨hkind, hsub, hop, hinfo⟩ := h
  unfold errorLegal
  rw [hkind, hsub, hop, hinfo]
  exact I.error

theorem Inv.parsed {s t : State} (I : Inv s) (hfixed : s.inFixed = true) (h : exec .parseh s = .next t) : Inv t := by
  obtain ⟨u, hu, hpos, hbit, herr, hcases⟩ := execParseh_cases s
  obtain rfl : u = t := Host.Outcome.next.inj (hu.symm.trans h)
  have herror : errorLegal u := herr.elim headerError.legal I.error_kept
  have hin : u.inpos ≤ s.inp.length := hpos I.startByte_le
  rcases hcases with ⟨-, hu⟩ | ⟨hk, htable, hu⟩
  · rw [hu] at herror ⊢
    exact ⟨I.radix, I.table, I.tree, I.codes, I.done, I.arena, I.rom, I.acc, I.out,
      ⟨hin, fun h => absurd hbit h, fun h => (by simp [hfixed] at h)⟩, herror⟩
  · rw [hu] at herror ⊢
    exact ⟨.inr hk, htable, nofun, nofun, nofun, I.arena, I.rom, I.acc, I.out,
      ⟨hin, fun h => absurd hbit h, fun h => (by simp [hfixed] at h)⟩, herror⟩

/-- R27: a valid tree means a legal radix. -/
theorem Inv.radix_of_tree {s : State} (I : Inv s) (hv : s.treeValid = true) : 2 ≤ s.k.toNat := (I.tree_ok hv).1

/-- R27, R175: DEC_DONE set by this DECODE, or still set from the last one. -/
theorem Inv.done_decoded {s t : State} (I : Inv s) (h : DecodeSucceeded s t ∨ DecodeFailed s t) (hd : t.decDone = true) :
    s.treeValid = true ∧ t.decCount = s.ncount ∧ t.cursor = s.root := by
  rcases h with hok | ⟨-, hclear | ⟨hdone, hcount, hcursor⟩⟩
  · exact ⟨hok.tree, hok.decCount, hok.cursor⟩
  · simp [hclear] at hd
  · rw [hcount, hcursor]
    exact I.done (hdone.symm.trans hd)

theorem Inv.decoded {s t : State} (I : Inv s) (hfixed : s.inFixed = true) (h : exec .decode s = .next t) : Inv t := by
  obtain ⟨u, hu, F, hpos, hend⟩ := exec_decode_ends I.radix_of_tree
  obtain rfl : u = t := Host.Outcome.next.inj (hu.symm.trans h)
  have hdone := I.done_decoded hend
  have herror : errorLegal u := hend.elim (fun hok => I.error_kept hok.errors) fun hbad => .inr hbad.error
  have hinp : u.inp = s.inp := by rw [F.only]
  have hposition := hpos I.startByte_le
  rw [← hinp, bitPos_le_iff] at hposition
  obtain ⟨hin, hpartial⟩ := hposition
  have hout : outCounted u := by
    have := F.counted
    have := I.out
    unfold outCounted at *
    omega
  rw [F.only] at hdone hin hpartial herror hout ⊢
  exact ⟨I.radix, I.table, I.tree, I.codes, hdone, I.arena, I.rom, I.acc, hout,
    ⟨hin, hpartial, fun h => (by simp [hfixed] at h)⟩, herror⟩

/-! ### Every command, every step -/

/-- Every command keeps the invariant; PARSEH and DECODE are accepted with IN fixed for the session (R280). -/
theorem Inv.exec {i : Instr} {s t : State} (I : Inv s) (hfixed : readsIn i = true → s.inFixed = true)
    (h : exec i s = .next t) : Inv t := by
  rcases exec_cases h with rfl | ⟨e, -, n, rfl⟩ | ⟨hi, hw⟩ | ⟨n, -, rfl⟩ | ⟨-, hk, b, hb, rfl⟩ | ⟨-, hv, r, hr, rfl⟩ |
    ⟨-, rfl⟩ | ⟨⟨x, rfl⟩ | rfl, -⟩ | ⟨rfl, -⟩ | ⟨rfl, -⟩ | ⟨-, rfl⟩
  · exact I
  · exact I.raised _ _ _
  · exact I.tableWritten h hw hi
  · exact ⟨I.radix, I.table, I.tree, I.codes, nofun, I.arena, I.rom, I.acc, I.out, I.position, I.error⟩
  · exact I.built hk hb
  · exact I.generated hv hr
  · rw [← outBytes_eq]; exact I.outBytes _
  · exact I.encoded h
  · exact I.flushed h
  · exact I.parsed (hfixed rfl) h
  · exact I.decoded (hfixed rfl) h
  · exact inv_reset_hosted _ _ _ _

theorem Inv.dispatch {c : CmdWord} {s t : State} (I : Inv s) (h : dispatch c s = .next t) : Inv t := by
  rcases dispatch_cases c s with ⟨-, -, hd⟩ | ⟨-, -, hd⟩ | ⟨-, e, -, hd⟩ | ⟨-, i, -, hd⟩
  · obtain rfl := Host.Outcome.next.inj (hd.symm.trans h)
    exact inv_reset_hosted _ _ _ _
  · obtain rfl := Host.Outcome.next.inj (hd.symm.trans h)
    exact I
  · obtain rfl := Host.Outcome.next.inj (hd.symm.trans h)
    cases e <;> exact I.raised _ _ _
  · exact (I.fixed (readsIn i)).exec (fun hreads => by simp [hreads]) (hd.symm.trans h)

/-- The words read and the counter of free values are no part of the invariant (logs 5, 6). -/
theorem Inv.readBack {s : State} (I : Inv s) (reads : List Word32) (freeCount : Nat) : Inv { s with reads, freeCount } :=
  ⟨I.radix, I.table, I.tree, I.codes, I.done, I.arena, I.rom, I.acc, I.out, I.position, I.error⟩

/-- R280: before the session's first PARSEH or DECODE the position is at the start of any IN. -/
theorem Inv.attached {s : State} (I : Inv s) (hfree : s.inFixed = false) (bytes : List Byte) :
    Inv { s with inp := bytes } := by
  obtain ⟨-, -, hstart⟩ := I.position
  obtain ⟨hpos, hbit⟩ := hstart hfree
  exact ⟨I.radix, I.table, I.tree, I.codes, I.done, I.arena, I.rom, I.acc, I.out,
    ⟨hpos.trans_le (Nat.zero_le _), fun h => absurd hbit h, fun _ => ⟨hpos, hbit⟩⟩, I.error⟩

/-- Settles O57: the queue is no part of the invariant, and each move of the host keeps it. -/
theorem stepKeepsInvariant : Obligations.StepKeepsInvariant := by
  intro s t I h
  cases hhost : s.host with
  | nil =>
    obtain rfl := Host.Outcome.next.inj ((step_idle hhost).symm.trans h)
    exact I
  | cons m rest =>
    rw [step_host hhost] at h
    replace I := I.hosted rest
    cases m with
    | command c => exact I.dispatch h
    | read a =>
      obtain rfl := Host.Outcome.next.inj h
      exact I.readBack _ _
    | readOverlap a =>
      obtain rfl := Host.Outcome.next.inj h
      exact I.readBack _ _
    | attach bytes =>
      by_cases hfixed : s.inFixed = true
      · rw [hostMove, if_pos hfixed] at h
        cases h
      · rw [hostMove, if_neg hfixed] at h
        obtain rfl := Host.Outcome.next.inj h
        exact I.attached (Bool.eq_false_iff.mpr hfixed) bytes
    | powerOn bytes =>
      obtain rfl := Host.Outcome.next.inj h
      exact inv_reset_hosted _ _ _ _

/-! ### No step faults (R247, R288) -/

/-- R247: from a state that meets the invariant every command has a next state. -/
theorem Inv.exec_next {s : State} (I : Inv s) (i : Instr) : ∃ t, Machine.exec i s = .next t := by
  cases i with
  | build =>
    rcases Nat.lt_or_ge s.k.toNat 2 with hk | hk
    · exact ⟨_, exec_build_badK hk⟩
    · obtain ⟨t, ht⟩ := buildTree_total s.freq s.present hk
      exact ⟨_, exec_build hk ht⟩
  | gen =>
    by_cases hv : s.treeValid = true
    · obtain ⟨hk, htree⟩ := I.tree_ok hv
      obtain ⟨r, hr, -⟩ := genCodes_spec hk htree
      exact ⟨_, exec_gen hv hr⟩
    · exact ⟨_, exec_gen_noTree (Bool.eq_false_iff.mpr hv)⟩
  | decode =>
    obtain ⟨t, ht, -⟩ := exec_decode_ends I.radix_of_tree
    exact ⟨t, ht⟩
  | parseh => exact settle_next _
  | setk k => rcases exec_setk_cases s k with h | ⟨-, h⟩ <;> exact ⟨_, h⟩
  | cnt x => rcases exec_cnt_cases s x with h | h <;> exact ⟨_, h⟩
  | ldf x f => rcases exec_ldf_cases s x f with h | h <;> exact ⟨_, h⟩
  | emith => rcases exec_emith_cases s with ⟨e, n, h⟩ | h <;> exact ⟨_, h⟩
  | enc x => rcases exec_enc_cases s x with ⟨e, n, h⟩ | h <;> exact ⟨_, h⟩
  | flush => rcases exec_flush_cases s with h | h <;> exact ⟨_, h⟩
  | nop => exact ⟨_, rfl⟩
  | clrf => exact ⟨_, rfl⟩
  | setn n => exact ⟨_, rfl⟩
  | srst => exact ⟨_, rfl⟩

theorem Inv.dispatch_next {s : State} (I : Inv s) (c : CmdWord) : ∃ t, Machine.dispatch c s = .next t := by
  rcases dispatch_cases c s with ⟨-, -, hd⟩ | ⟨-, -, hd⟩ | ⟨-, e, -, hd⟩ | ⟨-, i, -, hd⟩
  · exact ⟨_, hd⟩
  · exact ⟨_, hd⟩
  · exact ⟨_, hd⟩
  · rw [hd]
    exact (I.fixed (readsIn i)).exec_next i

/-- Settles O58: each move of the host has a next state, but for an attach with IN fixed, which is refused. -/
theorem noStepFaults : Obligations.NoStepFaults := by
  intro s I
  cases hhost : s.host with
  | nil => exact .inl ⟨s, step_idle hhost⟩
  | cons m rest =>
    rw [step_host hhost]
    cases m with
    | command c => exact .inl ((I.hosted rest).dispatch_next c)
    | read a => exact .inl ⟨_, rfl⟩
    | readOverlap a => exact .inl ⟨_, rfl⟩
    | powerOn bytes => exact .inl ⟨_, rfl⟩
    | attach bytes =>
      by_cases hfixed : s.inFixed = true
      · exact .inr ⟨bytes, rest, rfl, hfixed, if_pos hfixed⟩
      · exact .inl ⟨_, if_neg hfixed⟩

end Sys2Proof.Machine
end

section
/-! PROOFS. Statements on the header parser PARSEH (spec/44_unpacker.md R171, R172, R241): a well-formed header is loaded,
EMITH's header is read back (R173), and each error stops the parse where it stands. -/

namespace Sys2Proof.Machine

/-! ### The table of a list of entries -/

/-- `FREQ` of a header's entries, in an array cleared before. -/
def entriesFreq (es : List (Sym × Word32)) : Vector Word32 256 := putFreq es (Vector.replicate 256 0#32)

/-- `PRESENT` of a header's entries, in an array cleared before. -/
def entriesPresent (es : List (Sym × Word32)) : Vector Bool 256 := putPresent es (Vector.replicate 256 false)

theorem entriesPresent_iff (es : List (Sym × Word32)) (x : Sym) :
    symGet (entriesPresent es) x = true ↔ x ∈ es.map Prod.fst := by
  simp [entriesPresent, symGet_putPresent]

theorem entriesFreq_of_mem {es : List (Sym × Word32)} (hn : (es.map Prod.fst).Nodup) :
    ∀ e ∈ es, symGet (entriesFreq es) e.1 = e.2 :=
  symGet_putFreq_of_mem es _ hn

theorem entriesFreq_of_notMem {es : List (Sym × Word32)} {x : Sym} (h : x ∉ es.map Prod.fst) :
    symGet (entriesFreq es) x = 0#32 :=
  (symGet_putFreq_of_notMem es _ x h).trans (symGet_replicate _ _)

/-! ### The fixed fields (R171) -/

theorem parseHeader_noByte {s : State} (hin : s.inp.drop (startByte s) = []) :
    parseHeader s = .error (hdrTrunc { s with inpos := startByte s, rdbit := 0#3 }) := by
  rw [parseHeader, alignIn_eq_startByte, inByte_end _ _ (List.drop_eq_nil_iff.mp hin)]
  rfl

section
variable {s : State} {k : Byte} {rest : List Byte} (hin : s.inp.drop (startByte s) = k :: rest)
include hin

theorem parseHeader_badK (hk : k.toNat < 2) : parseHeader s =
    .error (raise .badK Opcode.parseh.code k.toNat { s with inpos := startByte s + 1, rdbit := 0#3 }) := by
  rw [parseHeader, alignIn_eq_startByte, inByte_ok _ _ k rest hin]
  exact if_pos ((lt_two k).mpr hk)

theorem drop_succ_startByte : s.inp.drop (startByte s + 1) = rest := by
  rw [← List.drop_drop, hin, List.drop_one, List.tail_cons]

theorem length_inp_of_startByte : s.inp.length = startByte s + 1 + rest.length := by
  have hlen := congrArg List.length hin
  rw [List.length_drop, List.length_cons] at hlen
  omega

/-- R171: IN ends inside the two counts: the first or the second of them is cut short. -/
theorem parseHeader_short (hk : 2 ≤ k.toNat) (hshort : rest.length < 8) : parseHeader s =
    .error (hdrTrunc { s with inpos := s.inp.length, rdbit := 0#3 }) := by
  have hlen := length_inp_of_startByte hin
  have hk2 : ¬ k < 2#8 := by rw [lt_two]; omega
  rw [parseHeader, alignIn_eq_startByte, inByte_ok _ _ k rest hin]
  simp only [bind, Except.bind, if_neg hk2]
  rcases Nat.lt_or_ge rest.length 4 with h4 | h4
  · rw [inLE_short _ 4 _ (by simp only; omega) (by simp only; omega)]
  · have hfirst := inLE_ok hdrTrunc (rest.take 4) (rest.drop 4) { s with inpos := startByte s + 1, rdbit := 0#3 }
      (by rw [List.take_append_drop]; exact drop_succ_startByte hin)
    rw [List.length_take, Nat.min_eq_left h4] at hfirst
    rw [hfirst]
    simp only
    rw [inLE_short _ 4 _ (by simp only; omega) (by simp only; omega)]

end

section
variable {s : State} {k : Byte} {n d : Word32} {rest : List Byte}
  (hin : s.inp.drop (startByte s) = k :: (le32 n ++ (le32 d ++ rest))) (hk : 2 ≤ k.toNat)
include hin hk

/-- R171: past a legal radix and both counts, the two checks on D and then the entries. -/
theorem parseHeader_counts : parseHeader s =
    if 256 < d.toNat then
      .error (raise .badNdist Opcode.parseh.code d.toNat { s with inpos := startByte s + 9, rdbit := 0#3 })
    else if d.toNat = 0 ∧ 0 < n.toNat then
      .error (raise .emptyTable Opcode.parseh.code n.toNat { s with inpos := startByte s + 9, rdbit := 0#3 })
    else parseEntries d.toNat (startTable k n.toNat { s with inpos := startByte s + 9, rdbit := 0#3 }) := by
  have hk2 : ¬ k < 2#8 := by rw [lt_two]; omega
  have hn := drop_succ_startByte hin
  have hd : s.inp.drop (startByte s + 1 + 4) = le32 d ++ rest := by
    rw [← List.drop_drop, hn]
    rfl
  rw [parseHeader, alignIn_eq_startByte, inByte_ok _ _ k _ hin]
  simp only [bind, Except.bind, if_neg hk2]
  rw [inLE_le32 _ n _ { s with inpos := startByte s + 1, rdbit := 0#3 } hn]
  simp only
  rw [inLE_le32 _ d rest { s with inpos := startByte s + 1 + 4, rdbit := 0#3 } hd]

end

/-- Settles O42: each check raises in turn, and the position is past the bytes read till then. -/
theorem parsehRejectsFixedFields : Obligations.ParsehRejectsFixedFields := by
  have hexec (s : State) : exec .parseh s = settle (parseHeader s) := rfl
  refine fun s => ⟨fun hin => ?none, fun k rest hin => ⟨fun hk => ?badK, fun hk hshort => ?short,
    fun hk n d more hrest => ?counts⟩⟩
  case none => rw [hexec, parseHeader_noByte hin]; rfl
  case badK =>
    rw [hexec, parseHeader_badK hin hk, raise_byte]
    rfl
  case short => rw [hexec, parseHeader_short hin hk hshort]; rfl
  case counts =>
    rw [hrest, List.append_assoc] at hin
    refine ⟨fun hd => ?badNdist, fun hd hn => ?emptyTable⟩
    case badNdist =>
      rw [hexec, parseHeader_counts hin hk, if_pos hd, raise_eq, BitVec.ofNat_toNat, BitVec.setWidth_eq]
      rfl
    case emptyTable =>
      have hn0 : n.toNat ≠ 0 := fun h => hn (BitVec.eq_of_toNat_eq h)
      have hd0 : d.toNat = 0 := by rw [hd]; rfl
      rw [hexec, parseHeader_counts hin hk, if_neg (by omega), if_pos (by omega), raise_eq, BitVec.ofNat_toNat,
        BitVec.setWidth_eq]
      rfl

/-! ### The entries (R172) -/

/-- The state PARSEH has reached when es, the first of its entries, are read: K, NCOUNT and es loaded, the flags cleared,
the position past them. -/
def headerLoaded (s : State) (k : Byte) (n : Word32) (es : List (Sym × Word32)) : State :=
  { s with
    k := k, ncount := n, freq := entriesFreq es, present := entriesPresent es, treeValid := false, codeValid := false
    decDone := false, inpos := startByte s + (9 + 5 * es.length), rdbit := 0#3 }

section
variable {s : State} {k : Byte} {n d : Word32} {es : List (Sym × Word32)} {tail : List Byte}
  (hin : s.inp.drop (startByte s) = k :: le32 n ++ le32 d ++ entryBytes es ++ tail)
include hin

theorem drop_headerLoaded : s.inp.drop (startByte s + (9 + 5 * es.length)) = tail := by
  rw [← List.drop_drop, hin]
  exact List.drop_left' (by simp [le32]; omega)

/-- R172: past distinct entries the parse goes on with as many as D leaves. -/
theorem exec_parseh_entries {m : Nat} (hk : 2 ≤ k.toNat) (hd : d.toNat ≤ 256) (hm : d.toNat = es.length + m)
    (hempty : d.toNat = 0 → n = 0#32) (hn : (es.map Prod.fst).Nodup) :
    exec .parseh s = settle (parseEntries m (headerLoaded s k n es)) := by
  have hnotEmpty : ¬ (d.toNat = 0 ∧ 0 < n.toNat) := fun ⟨hd0, hpos⟩ => by simp [hempty hd0] at hpos
  have hfields : s.inp.drop (startByte s) = k :: (le32 n ++ (le32 d ++ (entryBytes es ++ tail))) := by simpa using hin
  have hentries : s.inp.drop (startByte s + 9) = entryBytes es ++ tail := by
    rw [← List.drop_drop, hfields]
    rfl
  have hparse := parseEntries_entered es m (startTable k n.toNat { s with inpos := startByte s + 9, rdbit := 0#3 }) tail hn
    (fun e _ => symGet_replicate false e.1) hentries
  have hloaded : entered es (startTable k n.toNat { s with inpos := startByte s + 9, rdbit := 0#3 }) =
      headerLoaded s k n es := by
    simp [entered, startTable, invalidate, headerLoaded, entriesFreq, entriesPresent, Nat.add_assoc]
  rw [hloaded, ← hm] at hparse
  calc exec .parseh s = settle (parseHeader s) := rfl
    _ = settle (parseEntries m (headerLoaded s k n es)) := by
      rw [parseHeader_counts hfields hk, if_neg (by omega), if_neg hnotEmpty, hparse]

end

/-- R172: a whole header is loaded. -/
theorem exec_parseh_ok {s : State} {k : Byte} {n : Word32} {es : List (Sym × Word32)} {rest : List Byte}
    (hk : 2 ≤ k.toNat) (hn : (es.map Prod.fst).Nodup) (hempty : es = [] → n = 0#32)
    (hin : s.inp.drop (startByte s) = k :: le32 n ++ le32 (BitVec.ofNat 32 es.length) ++ entryBytes es ++ rest) :
    exec .parseh s = .next (headerLoaded s k n es) := by
  have hle := entries_le hn
  have hd : (BitVec.ofNat 32 es.length).toNat = es.length := by
    rw [BitVec.toNat_ofNat, Nat.mod_eq_of_lt (by omega)]
  rw [exec_parseh_entries (m := 0) hin hk (hd.trans_le hle) hd
    (fun h => hempty (List.eq_nil_of_length_eq_zero (hd.symm.trans h))) hn]
  rfl

/-- Settles O41: the parse of the whole header leaves the table of its entries. -/
theorem parsehLoadsHeader : Obligations.ParsehLoadsHeader := by
  intro s k n es rest hk hn hempty hin
  exact ⟨_, exec_parseh_ok hk hn hempty hin, entriesPresent_iff es, entriesFreq_of_mem hn,
    fun _ => entriesFreq_of_notMem, rfl⟩

/-- R171: a symbol byte that is a key already. -/
theorem parseEntries_dup {m : Nat} {s : State} {x : Sym} {more : List Byte} (hin : s.inp.drop s.inpos = x :: more)
    (hx : symGet s.present x = true) : parseEntries (m + 1) s =
      .error (raise .dupSymbol Opcode.parseh.code x.toNat { s with inpos := s.inpos + 1 }) := by
  rw [parseEntries, inByte_ok _ s x more hin]
  exact if_pos hx

/-- R171: IN ends inside an entry, before its symbol byte or before the four bytes of its frequency. -/
theorem parseEntries_short {m : Nat} {s : State} {tail : List Byte} (hin : s.inp.drop s.inpos = tail)
    (hpos : s.inpos ≤ s.inp.length) (hshort : tail.length < 5) (hnew : ∀ x ∈ tail.head?, symGet s.present x = false) :
    parseEntries (m + 1) s = .error (hdrTrunc { s with inpos := s.inp.length }) := by
  have hlen := congrArg List.length hin
  rw [List.length_drop] at hlen
  rw [parseEntries]
  cases tail with
  | nil =>
    have hend : s.inpos = s.inp.length := by simp at hlen; omega
    rw [inByte_end _ s hend.ge, ← hend]
    rfl
  | cons x more =>
    rw [List.length_cons] at hlen hshort
    rw [inByte_ok _ s x more hin]
    simp only [bind, Except.bind]
    rw [if_neg (by simp [hnew x rfl]), inLE_short _ 4 _ (by simp only; omega) (by simp only; omega)]

/-- Settles O43: the entries before the error stay loaded, and the next one stops at its symbol byte or at the end. -/
theorem parsehRejectsEntries : Obligations.ParsehRejectsEntries := by
  intro s k n d es tail hk hd hlt hn hin
  obtain ⟨m, hm⟩ : ∃ m, d.toNat = es.length + (m + 1) := ⟨d.toNat - es.length - 1, by omega⟩
  have hexec := exec_parseh_entries hin hk hd hm (by omega) hn
  have htail := drop_headerLoaded hin
  refine ⟨entriesFreq es, entriesPresent es, entriesPresent_iff es, entriesFreq_of_mem hn,
    fun _ => entriesFreq_of_notMem, fun x more hmore hx => ?dup, fun hshort hnew => ?short⟩
  case dup =>
    rw [hexec, parseEntries_dup (htail.trans hmore) ((entriesPresent_iff es x).mpr hx), raise_byte]
    rfl
  case short =>
    have hpos : startByte s + (9 + 5 * es.length) ≤ s.inp.length := by
      have hlen := congrArg List.length hin
      simp [le32] at hlen
      omega
    rw [hexec, parseEntries_short htail hpos hshort
      fun x hx => Bool.eq_false_iff.mpr fun h => hnew x hx ((entriesPresent_iff es x).mp h)]
    rfl

/-! ### EMITH's header read back (R173) -/

/-- The entries of a state's table, in ascending symbol order (R77). -/
def tableEntries (s : State) : List (Sym × Word32) := (presentSyms s.present).map (fun x => (x, symGet s.freq x))

theorem tableEntries_fst (s : State) : (tableEntries s).map Prod.fst = presentSyms s.present := by
  rw [tableEntries, List.map_map]
  exact List.map_id _

@[simp] theorem length_tableEntries (s : State) : (tableEntries s).length = ndist s.present := List.length_map _

theorem entriesPresent_tableEntries (s : State) : entriesPresent (tableEntries s) = s.present :=
  symGet_ext fun x => Bool.eq_iff_iff.mpr (by rw [entriesPresent_iff, tableEntries_fst, mem_presentSyms])

theorem tableEntries_nodup (s : State) : ((tableEntries s).map Prod.fst).Nodup := by
  rw [tableEntries_fst]
  exact presentSyms_nodup _

/-- R25: absent symbols have frequency 0, so the entries say all of FREQ. -/
theorem entriesFreq_tableEntries {s : State} (h : tableClean s) : entriesFreq (tableEntries s) = s.freq := by
  refine symGet_ext fun x => ?_
  cases hx : symGet s.present x with
  | true =>
    exact entriesFreq_of_mem (tableEntries_nodup s) (x, symGet s.freq x)
      (List.mem_map_of_mem ((mem_presentSyms _ x).mpr hx))
  | false =>
    rw [h x hx]
    exact entriesFreq_of_notMem (by rw [tableEntries_fst, mem_presentSyms, hx]; exact Bool.false_ne_true)

/-- R173: the header of s, at the read position of r, loads the radix, count and table of s. -/
theorem exec_parseh_headerBytes {s r : State} {rest : List Byte} (hk : 2 ≤ s.k.toNat) (hclean : tableClean s)
    (hcount : 0 < ndist s.present ∨ s.ncount = 0#32) (hin : r.inp.drop (startByte r) = headerBytes s ++ rest) :
    exec .parseh r = .next { r with
      k := s.k, ncount := s.ncount, freq := s.freq, present := s.present, treeValid := false, codeValid := false
      decDone := false, inpos := startByte r + (9 + 5 * ndist s.present), rdbit := 0#3 } := by
  have hempty : tableEntries s = [] → s.ncount = 0#32 := fun h =>
    hcount.resolve_left fun hpos => by rw [← length_tableEntries, h] at hpos; exact absurd hpos (Nat.lt_irrefl 0)
  rw [headerBytes_eq] at hin
  rw [exec_parseh_ok hk (tableEntries_nodup s) hempty (by rw [length_tableEntries]; exact hin), headerLoaded,
    entriesFreq_tableEntries hclean, entriesPresent_tableEntries, length_tableEntries]

/-- Settles O44: what EMITH appended is the header of s, which PARSEH loads at any position. -/
theorem headerRoundTrip : Obligations.HeaderRoundTrip := by
  intro s _ hk hb hclean hcount
  refine ⟨_, exec_emith_ok hb hk, fun r front rest hr hinp hpos hbit => ?_⟩
  have hstart : startByte r = front.length := by rw [startByte, if_pos hbit, hpos]
  have hin : r.inp.drop (startByte r) = headerBytes s ++ rest := by
    rw [hstart, hinp, outBytes_eq, List.append_assoc, List.drop_left]
    simp only [List.drop_left]
  exact ⟨_, exec_parseh_headerBytes hk hclean hcount hin, hr, rfl, rfl, rfl, rfl⟩

end Sys2Proof.Machine
end

section
/-! PROOFS. DECODE inverts the packing (spec/44_unpacker.md R177, R179, R182; spec/30_encoding.md R79, R82). -/

namespace Sys2Proof.Machine

/-- The state DECODE ends in after reading the bits of the codes of S. -/
def decodedAll (s : State) (S : List Sym) (bits : List Bool) : State :=
  { s with
    out := s.out ++ S, outcnt := s.outcnt + S.length, decCount := s.ncount, decDone := true, cursor := s.root
    inpos := (8 * startByte s + bits.length) / 8
    rdbit := BitVec.ofNat 3 ((8 * startByte s + bits.length) % 8) }

section
variable {s : State} {code : Sym → List Byte} {S : List Sym} {rest : List Bool} (I : Inv s) (hv : s.treeValid = true)
  (hb : s.boff = 0#3) (hn : S.length = s.ncount.toNat) (hcode : ∀ x ∈ S, isCodeFor s code x)

include hv hb hn in
/-- R181: no symbols, no bits. -/
theorem exec_decode_noSymbols (hS : S = []) : exec .decode s = .next (decodedAll s S (payloadBits s.k code S)) := by
  subst hS
  have hn0 : s.ncount = 0#32 := BitVec.eq_of_toNat_eq hn.symm
  rw [exec_decode_zero hv hb hn0, decodeStart_fields]
  simp [decodedAll, payloadBits, hn0]

include hv hb hn hcode in
/-- R180: under a single leaf every code is empty, and every symbol the leaf's. -/
theorem exec_decode_oneLeaf (hS : S ≠ []) (hroot : s.root ≠ Config.nil) (hleaf : (nodeAt s.node s.root).kind = .leaf) :
    exec .decode s = .next (decodedAll s S (payloadBits s.k code S)) := by
  have hall : ∀ x ∈ S, code x = [] ∧ (nodeAt s.node s.root).sym = x :=
    fun x hx => isCodeFor_of_rootLeaf (hcode x hx) hleaf
  have hbits : payloadBits s.k code S = [] :=
    List.flatMap_eq_nil_iff.mpr fun x hx => by rw [(hall x hx).1]; rfl
  have hsyms : S = List.replicate s.ncount.toNat (nodeAt s.node s.root).sym := by
    rw [← hn]
    exact List.eq_replicate_length.mpr fun x hx => (hall x hx).2.symm
  have hn0 : s.ncount ≠ 0#32 := fun h => hS (List.eq_nil_of_length_eq_zero (by rw [hn, h]; rfl))
  rw [exec_decode_singleLeaf hv hb hn0 hroot hleaf, decodeSingle_eq, decodeStart_fields, hbits]
  simp [decodedAll, ← hsyms, hn]

include I hv hb hn hcode in
/-- R177, R179: under an internal root the loop decodes S code by code and stops at NCOUNT; IN has turns enough, since a
digit takes at least one of its bits (R288). -/
theorem exec_decode_manyCodes (hS : S ≠ []) (hint : (nodeAt s.node s.root).kind = .int)
    (hin : (bitsOfBytes s.inp).drop (8 * startByte s) = payloadBits s.k code S ++ rest) :
    exec .decode s = .next (decodedAll s S (payloadBits s.k code S)) := by
  have hk := I.radix_of_tree hv
  have hn0 : s.ncount ≠ 0#32 := fun h => hS (List.eq_nil_of_length_eq_zero (by rw [hn, h]; rfl))
  obtain ⟨m, hm⟩ : ∃ m, 8 * s.inp.length + 1 = codeLength code S + m := by
    have hlen := length_fromStart I hin
    have hW := Nat.le_mul_of_pos_left (codeLength code S) (digitWidth_bounds s.k hk).1
    rw [length_payloadBits] at hlen
    exact ⟨8 * s.inp.length + 1 - codeLength code S, by omega⟩
  calc exec .decode s
      = decodeLoop (codeLength code S + m) (decodeAt s (8 * startByte s) s.root []) := by
        rw [exec_decode hv hb, if_neg hn0, if_neg (I.ne_nil_of_int hint), if_neg (by simp [hint]), decodeStart_eq, hm]
    _ = decodeLoop m (decodeAt s (8 * startByte s + digitWidth s.k * codeLength code S) s.root S) :=
        decodeLoop_codes hk code S hint _ _ [] _ hcode (by simp [hn]) hin
    _ = .next (decodedAll s S (payloadBits s.k code S)) := by
        rw [decodeLoop_done _ _ hn, ← length_payloadBits]
        simp [decodedAll, decodeAt, atBit, hn]

/-- R121: a code leads down from the root, so the root is a leaf or an internal node. -/
theorem isCodeFor_root {x : Sym} (h : isCodeFor s code x) :
    (nodeAt s.node s.root).kind = .leaf ∨ (nodeAt s.node s.root).kind = .int := by
  obtain ⟨y, hpath, hleaf, -⟩ := h
  by_cases hint : (nodeAt s.node s.root).kind = .int
  · exact .inr hint
  · obtain ⟨-, rfl⟩ := leadsTo_leaf hint hpath
    exact .inl hleaf

/-- R33, R111: the arena ends below NIL. -/
theorem Inv.nodeAt_nil (I : Inv s) : nodeAt s.node Config.nil = Node.free := by
  obtain ⟨hwf, -⟩ := I.arena
  obtain ⟨hlen, -⟩ := Bool.and_eq_true_iff.mp hwf
  exact nodeAt_of_le _ _ (of_decide_eq_true hlen)

theorem Inv.ne_nil_of_leaf (I : Inv s) {x : NodeIdx} (hx : (nodeAt s.node x).kind = .leaf) : x ≠ Config.nil := by
  rintro rfl
  rw [I.nodeAt_nil] at hx
  cases hx

include I hv hb hn hcode in
theorem exec_decode_codes (hin : (bitsOfBytes s.inp).drop (8 * startByte s) = payloadBits s.k code S ++ rest) :
    exec .decode s = .next (decodedAll s S (payloadBits s.k code S)) := by
  cases S with
  | nil => exact exec_decode_noSymbols hv hb hn rfl
  | cons x xs =>
    rcases isCodeFor_root (hcode x List.mem_cons_self) with hleaf | hint
    · exact exec_decode_oneLeaf hv hb hn hcode (List.cons_ne_nil _ _) (I.ne_nil_of_leaf hleaf) hleaf
    · exact exec_decode_manyCodes I hv hb hn hcode (List.cons_ne_nil _ _) hint hin

end

/-- Settles O49: without symbols, under a single leaf and under an internal root alike. -/
theorem decodeInvertsPacking : Obligations.DecodeInvertsPacking := by
  intro s code S rest I hv hb hn hcode bits hbits hin
  subst hbits
  exact exec_decode_codes I hv hb hn hcode hin

end Sys2Proof.Machine
end

section
/-! PROOFS. Statements on programs that fill the table (spec/40_frequency.md R93, R95): the frequency model, and entries
loaded in any order. -/

namespace Sys2Proof.Machine

/-! ### Issuing a program (R281, R282) -/

/-- The host's moves that issue a program's words. -/
def queued (p : List Instr) : List HostMove := (Asm.words p).map HostMove.command

/-- A program goes on from the state its first command leaves. -/
theorem issue_cons {i : Instr} {p : List Instr} {s t : State} (he : s.errKind = .none)
    (h : exec i { s with host := queued p, inFixed := s.inFixed || readsIn i } = .next { t with host := queued p }) :
    issue (i :: p) s = issue p t :=
  run_cons (s := { s with host := queued (i :: p) }) rfl he (decode_encode i) h

/-- The same for a command that does not read IN. -/
theorem issue_cons_core {i : Instr} {p : List Instr} {s t : State} (hi : readsIn i = false) (he : s.errKind = .none)
    (h : exec i { s with host := queued p } = .next { t with host := queued p }) : issue (i :: p) s = issue p t :=
  issue_cons he (by rw [hi, Bool.or_false]; exact h)

/-! ### The frequency model (R95) -/

/-- From s to t the symbols of S were counted, and nothing but the table, the count and the flags changed. -/
structure Counted (S : List Sym) (s t : State) : Prop where
  freq : ∀ x, (symGet t.freq x).toNat = (symGet s.freq x).toNat + S.count x
  present : ∀ x, symGet t.present x = true ↔ symGet s.present x = true ∨ x ∈ S
  ncount : t.ncount.toNat = s.ncount.toNat + S.length
  only : t = { s with
    freq := t.freq, present := t.present, ncount := t.ncount, treeValid := t.treeValid, codeValid := t.codeValid
    decDone := t.decDone }

theorem Counted.nil (s : State) : Counted [] s s := ⟨by simp, by simp, rfl, rfl⟩

theorem Counted.one {x : Sym} {s : State} (hn : s.ncount.toNat ≠ 2 ^ 32 - 1)
    (hf : (symGet s.freq x).toNat ≠ 2 ^ 32 - 1) : Counted [x] s (countOne s x) where
  freq y := by
    by_cases hy : y = x
    · simp [countOne, hy, toNat_succ_of_ne_max hf]
    · simp [countOne, symGet_symSet_other _ _ hy, Ne.symm hy]
  present y := by
    by_cases hy : y = x
    · simp [countOne, hy]
    · simp [countOne, symGet_symSet_other _ _ hy, hy]
  ncount := toNat_succ_of_ne_max hn
  only := rfl

theorem Counted.cons {x : Sym} {S : List Sym} {s t u : State} (h : Counted [x] s t) (h' : Counted S t u) :
    Counted (x :: S) s u where
  freq y := by
    rw [h'.freq, h.freq, Nat.add_assoc, ← List.count_append, List.singleton_append]
  present y := by
    rw [h'.present, h.present, List.mem_singleton, List.mem_cons, or_assoc]
  ncount := by
    rw [h'.ncount, h.ncount, Nat.add_assoc, List.length_singleton, List.length_cons, Nat.add_comm 1]
  only := by
    rw [h'.only, h.only]

/-- R92, R95: as long as the count does not pass its width no CNT overflows, for no frequency is above the count. -/
theorem issue_cnts (S : List Sym) (p : List Instr) : ∀ s : State, s.errKind = .none →
    (∀ x, (symGet s.freq x).toNat ≤ s.ncount.toNat) → s.ncount.toNat + S.length ≤ 2 ^ 32 - 1 →
    ∃ t, issue (S.map .cnt ++ p) s = issue p t ∧ Counted S s t ∧ (Inv s → Inv t) := by
  induction S with
  | nil => exact fun s _ _ _ => ⟨s, rfl, .nil s, id⟩
  | cons x S ih =>
    intro s he hle hsum
    rw [List.length_cons] at hsum
    have hx := hle x
    have hn : s.ncount.toNat ≠ 2 ^ 32 - 1 := by omega
    have hf : (symGet s.freq x).toNat ≠ 2 ^ 32 - 1 := by omega
    have C := Counted.one hn hf
    have hstep : issue (.cnt x :: (S.map .cnt ++ p)) s = issue (S.map .cnt ++ p) (countOne s x) :=
      issue_cons_core rfl he (exec_cnt_ok (s := { s with host := queued (S.map .cnt ++ p) }) hn hf)
    have hle' : ∀ y, (symGet (countOne s x).freq y).toNat ≤ (countOne s x).ncount.toNat := by
      intro y
      have := hle y
      have := List.count_le_length (a := y) (l := [x])
      rw [C.freq, C.ncount]
      omega
    obtain ⟨t, ht, C', hI⟩ := ih (countOne s x) he hle' (by rw [C.ncount, List.length_singleton]; omega)
    exact ⟨t, hstep.trans ht, C.cons C', fun I => hI (I.exec (i := .cnt x) nofun (exec_cnt_ok hn hf))⟩

/-- Settles O21: CLRF leaves an empty table and a count of 0, from which every CNT counts. -/
theorem frequencyModelCounts : Obligations.FrequencyModelCounts := by
  intro S s hS he
  obtain ⟨t, ht, C, -⟩ := issue_cnts S [] (invalidate { s with
    freq := Vector.replicate 256 0#32, present := Vector.replicate 256 false, ncount := 0#32 }) he (fun x => by simp)
    (by simpa using hS)
  rw [List.append_nil] at ht
  refine ⟨{ t with host := [] }, (issue_cons_core rfl he rfl).trans ht, by rw [C.only]; exact he, fun x => ?_,
    fun x => ?_, ?_⟩
  · simpa using C.freq x
  · simpa using C.present x
  · simpa using C.ncount

/-! ### Entries in any order (R93) -/

/-- Entries loaded in turn. -/
def loadEntries (es : List (Sym × Word32)) (s : State) : State := es.foldl loadEntry s

theorem symSet_comm {α : Type} (v : Vector α 256) {x y : Sym} (a b : α) (h : x ≠ y) :
    symSet (symSet v x a) y b = symSet (symSet v y b) x a :=
  Vector.set_comm a b fun hxy => h (BitVec.eq_of_toNat_eq hxy)

/-- R93: LDF writes one entry alone, so two different entries can be loaded in either order. -/
theorem loadEntry_comm (s : State) {e e' : Sym × Word32} (h : e.1 ≠ e'.1) :
    loadEntry (loadEntry s e) e' = loadEntry (loadEntry s e') e := by
  simp only [loadEntry, invalidate, symSet_comm s.freq _ _ h, symSet_comm s.present _ _ h]

theorem loadEntries_perm {es es' : List (Sym × Word32)} (hperm : es.Perm es') (hn : (es.map Prod.fst).Nodup) (s : State) :
    loadEntries es s = loadEntries es' s := by
  refine hperm.foldl_eq' (fun e he e' he' z => ?_) s
  by_cases h : e = e'
  · rw [h]
  · exact loadEntry_comm z fun hfst => h (List.inj_on_of_nodup_map hn he he' hfst)

/-- Loading writes the table and nothing else that an LDF looks at. -/
theorem loadEntries_fields (es : List (Sym × Word32)) (s : State) : (loadEntries es s).freq = putFreq es s.freq ∧
    (loadEntries es s).present = putPresent es s.present ∧ (loadEntries es s).errKind = s.errKind := by
  induction es generalizing s with
  | nil => exact ⟨rfl, rfl, rfl⟩
  | cons e es ih => exact ih (loadEntry s e)

/-- R93: distinct new entries are loaded one by one. -/
theorem issue_ldfs (es : List (Sym × Word32)) : ∀ s : State, s.errKind = .none → (es.map Prod.fst).Nodup →
    (∀ e ∈ es, symGet s.present e.1 = false) →
    issue (es.map (fun e => .ldf e.1 e.2)) s = .next { loadEntries es s with host := [] } := by
  induction es with
  | nil => exact fun s _ _ _ => rfl
  | cons e es ih =>
    intro s he hn hnew
    rw [List.map_cons, List.nodup_cons] at hn
    obtain ⟨hfresh, hn⟩ := hn
    have hstep : issue ((e :: es).map (fun e => .ldf e.1 e.2)) s =
        issue (es.map (fun e => .ldf e.1 e.2)) (loadEntry s e) :=
      issue_cons_core rfl he (exec_ldf_ok (s := { s with host := queued _ }) (hnew e List.mem_cons_self))
    have hnext := ih (loadEntry s e) he hn fun e' he' => by
      have hne : e'.1 ≠ e.1 := fun h => hfresh (h ▸ List.mem_map_of_mem he')
      exact (symGet_symSet_other _ _ hne).trans (hnew e' (List.mem_cons_of_mem _ he'))
    exact hstep.trans hnext

/-- Settles O22: both orders load the same entries, and each entry is in the table they leave. -/
theorem loadOrderIrrelevant : Obligations.LoadOrderIrrelevant := by
  intro es es' s hperm hn he hnew
  have hn' : (es'.map Prod.fst).Nodup := (hperm.map Prod.fst).nodup_iff.mp hn
  have hnew' : ∀ e ∈ es', symGet s.present e.1 = false := fun e h => hnew e (hperm.mem_iff.mpr h)
  obtain ⟨hfreq, hpresent, herr⟩ := loadEntries_fields es s
  refine ⟨_, issue_ldfs es s he hn hnew, ?_, herr.trans he, fun e h => ⟨?_, ?_⟩⟩
  · rw [loadEntries_perm hperm hn]
    exact issue_ldfs es' s he hn' hnew'
  · rw [← symGet_putFreq_of_mem es s.freq hn e h, ← hfreq]
  · simp only [hpresent]
    exact (symGet_putPresent es s.present e.1).mpr (.inr (List.mem_map_of_mem h))

end Sys2Proof.Machine
end

section
/-! PROOFS. Statements on the programs that pack and unpack: the payload ENC and FLUSH append (spec/43_packer.md R154), and
the round trip of COMPRESS and DECOMPRESS (spec/44_unpacker.md R182). -/

namespace Sys2Proof.Machine

/-! ### The payload (R154) -/

theorem putBit_hosted (b : Bool) (s : State) (h : List HostMove) :
    putBit { s with host := h } b = { putBit s b with host := h } := by
  unfold putBit
  simp only
  split <;> rfl

theorem putBits_hosted (bs : List Bool) (s : State) (h : List HostMove) :
    putBits bs { s with host := h } = { putBits bs s with host := h } := by
  induction bs generalizing s with
  | nil => rfl
  | cons b bs ih =>
    calc putBits (b :: bs) { s with host := h } = putBits bs (putBit { s with host := h } b) := rfl
      _ = { putBits (b :: bs) s with host := h } := by rw [putBit_hosted, ih]; rfl

theorem codeStream_cons (s : State) (x : Sym) (xs : List Sym) :
    codeStream s (x :: xs) = codeStream s [x] ++ codeStream s xs := by
  simp [codeStream]

/-- Placing bits leaves the radix and the ROM, so what the codes are. -/
theorem codeStream_putBits (bs : List Bool) (s : State) (xs : List Sym) :
    codeStream (putBits bs s) xs = codeStream s xs := by
  obtain ⟨a, b, o, n, hput⟩ := putBits_frame bs s
  rw [hput]
  rfl

/-- R152, R154: ENC of each symbol places the bits of their codes in order. -/
theorem issue_encs (S : List Sym) (p : List Instr) : ∀ s : State, s.errKind = .none → s.codeValid = true →
    (∀ x ∈ S, symGet s.cvalid x = true) → issue (S.map .enc ++ p) s = issue p (putBits (codeStream s S) s) := by
  induction S with
  | nil => exact fun s _ _ _ => rfl
  | cons x S ih =>
    intro s he hcodes hcoded
    have hexec := exec_enc_ok (x := x) (s := { s with host := queued (S.map .enc ++ p) }) hcodes
      (hcoded x List.mem_cons_self)
    rw [putBits_hosted] at hexec
    obtain ⟨a, b, o, n, hput⟩ := putBits_frame (codeStream s [x]) s
    have hnext := ih (putBits (codeStream s [x]) s) (by rw [hput]; exact he) (by rw [hput]; exact hcodes)
      (by rw [hput]; exact fun y hy => hcoded y (List.mem_cons_of_mem _ hy))
    rw [codeStream_putBits, ← putBits_append, ← codeStream_cons] at hnext
    exact (issue_cons_core rfl he hexec).trans hnext

/-- R79: a bit stream that fills its last byte is its whole bytes. -/
theorem packedBytes_whole {bs : List Bool} (h : bs.length % 8 = 0) : packedBytes bs = bytesOfBits (bs.length / 8) bs := by
  rw [packedBytes, show (bs.length + 7) / 8 = bs.length / 8 by omega]

/-- R79: otherwise the bits left over, padded with 0, are one byte more. -/
theorem packedBytes_partial {bs : List Bool} (h : bs.length % 8 ≠ 0) :
    packedBytes bs = bytesOfBits (bs.length / 8) bs ++ [byteOfBits (bs.drop (8 * (bs.length / 8)))] := by
  rw [packedBytes, show (bs.length + 7) / 8 = bs.length / 8 + 1 by omega, bytesOfBits, List.range_succ, List.map_append]
  rfl

/-- R35: a clean accumulator without pending bits is 0. -/
theorem acc_eq_zero {s : State} (hb : s.boff = 0#3) (hclean : accClean s) : s.acc = 0#8 := by
  obtain ⟨-, hacc⟩ := accClean_pending hclean
  rw [hacc, hb]
  exact byteOfBits_nil

/-- R151, R153: bits placed from an empty accumulator and then flushed go out as packed bytes. -/
theorem exec_flush_putBits {s : State} (bs : List Bool) (hb : s.boff = 0#3) (hclean : accClean s) :
    exec .flush (putBits bs s) = .next { s with
      out := s.out ++ packedBytes bs, outcnt := s.outcnt + (bs.length + 7) / 8, acc := 0#8, boff := 0#3 } := by
  have hput := putBits_eq bs [] s (by rw [hb]; rfl) (by rw [acc_eq_zero hb hclean, byteOfBits_nil])
  rw [List.nil_append] at hput
  by_cases h : bs.length % 8 = 0
  · have hdrop : bs.drop (8 * (bs.length / 8)) = [] := List.drop_eq_nil_of_le (by omega)
    rw [hput, exec_flush_empty (by simp only [h]), packedBytes_whole h, hdrop, byteOfBits_nil, h,
      show (bs.length + 7) / 8 = bs.length / 8 by omega]
  · have hboff : BitVec.ofNat 3 (bs.length % 8) ≠ 0#3 := fun h0 => h (by
      have := congrArg BitVec.toNat h0
      simp at this
      omega)
    rw [hput, exec_flush_partial hboff, packedBytes_partial h, show (bs.length + 7) / 8 = bs.length / 8 + 1 by omega,
      ← List.append_assoc, ← Nat.add_assoc]
    rfl

/-- R154: the program of ENCs and a FLUSH appends the payload. -/
theorem issue_payload {S : List Sym} {s : State} (he : s.errKind = .none) (hcodes : s.codeValid = true)
    (hcoded : ∀ x ∈ S, symGet s.cvalid x = true) (hb : s.boff = 0#3) (hclean : accClean s) :
    issue (S.map .enc ++ [.flush]) s = .next { s with
      host := [], out := s.out ++ packedBytes (codeStream s S)
      outcnt := s.outcnt + ((codeStream s S).length + 7) / 8, acc := 0#8, boff := 0#3 } := by
  have herr : (putBits (codeStream s S) s).errKind = .none := by
    obtain ⟨a, b, o, n, hput⟩ := putBits_frame (codeStream s S) s
    rw [hput]
    exact he
  have hflush := exec_flush_putBits (s := { s with host := [] }) (codeStream s S) hb hclean
  rw [putBits_hosted] at hflush
  calc issue (S.map .enc ++ [.flush]) s
      = issue [.flush] (putBits (codeStream s S) s) := issue_encs S [.flush] s he hcodes hcoded
    _ = issue [] { s with
          out := s.out ++ packedBytes (codeStream s S), outcnt := s.outcnt + ((codeStream s S).length + 7) / 8
          acc := 0#8, boff := 0#3 } := issue_cons_core rfl herr hflush

theorem exec_emith_append {s : State} (hb : s.boff = 0#3) (hk : 2 ≤ s.k.toNat) : exec .emith s =
    .next { s with out := s.out ++ headerBytes s, outcnt := s.outcnt + (headerBytes s).length } := by
  rw [exec_emith_ok hb hk, outBytes_eq]

/-- R150, R154: EMITH first appends the header. -/
theorem issue_header_payload {S : List Sym} {s : State} (he : s.errKind = .none) (hcodes : s.codeValid = true)
    (hcoded : ∀ x ∈ S, symGet s.cvalid x = true) (hb : s.boff = 0#3) (hclean : accClean s) (hk : 2 ≤ s.k.toNat) :
    issue (.emith :: S.map .enc ++ [.flush]) s = .next { s with
      host := [], out := s.out ++ headerBytes s ++ packedBytes (codeStream s S)
      outcnt := s.outcnt + (headerBytes s).length + ((codeStream s S).length + 7) / 8, acc := 0#8, boff := 0#3 } := by
  calc issue (.emith :: (S.map .enc ++ [.flush])) s
      = issue (S.map .enc ++ [.flush])
          { s with out := s.out ++ headerBytes s, outcnt := s.outcnt + (headerBytes s).length } :=
        issue_cons_core rfl he (exec_emith_append (s := { s with host := queued (S.map .enc ++ [.flush]) }) hb hk)
    _ = _ := issue_payload (s := { s with
          out := s.out ++ headerBytes s, outcnt := s.outcnt + (headerBytes s).length }) he hcodes hcoded hb hclean

/-- Settles O39: the payload is appended, after the header when EMITH comes first. -/
theorem packerEmitsPayload : Obligations.PackerEmitsPayload := by
  intro S s he hcodes hcoded hb hclean
  refine ⟨issue_payload he hcodes hcoded hb hclean, fun hk => ⟨_, exec_emith_append hb hk, ?_⟩⟩
  rw [issue_header_payload he hcodes hcoded hb hclean hk]
  rfl

/-! ### COMPRESS (R86) -/

/-- What COMPRESS has made of S before it writes: a state that meets the invariant with S counted under the radix k, the
codes of S generated, nothing yet in OUT and no error. -/
structure Coded (k : BitVec 8) (S : List Sym) (g : State) : Prop where
  inv : Inv g
  radix : g.k = k
  codeValid : g.codeValid = true
  coded : ∀ x ∈ S, symGet g.cvalid x = true
  ncount : g.ncount.toNat = S.length
  counted : 0 < ndist g.present ∨ g.ncount = 0#32
  out : g.out = []
  boff : g.boff = 0#3
  error : g.errKind = .none

/-- R90, R91: from reset, SETK and CLRF leave the reset state but for the radix. -/
theorem issue_setk_clrf {k : BitVec 8} (hk : 2 ≤ k.toNat) (p : List Instr) :
    issue (.setk k :: .clrf :: p) State.reset = issue p { State.reset with k := k } :=
  calc issue (.setk k :: .clrf :: p) State.reset = issue (.clrf :: p) { State.reset with k := k } :=
        issue_cons_core rfl rfl (exec_setk_ok hk)
    _ = issue p { State.reset with k := k } := issue_cons_core rfl rfl rfl

/-- What BUILD leaves of a state, given the tree it makes (R100). -/
def withTree (s : State) (b : Tree) : State :=
  { s with
    node := b.node, nnodes := b.nnodes, nleaf := b.nleaf, npad := b.npad, root := b.root
    treeValid := true, codeValid := false, decDone := false }

/-- What GEN leaves of a state, given the ROM it writes (R120). -/
def withRom (s : State) (r : CodeRom) : State :=
  { s with cvalid := r.cvalid, clen := r.clen, cdig := r.cdig, codeValid := true }

theorem issue_build {s : State} {b : Tree} (he : s.errKind = .none) (hk : 2 ≤ s.k.toNat)
    (hb : buildTree s.k s.freq s.present = .ok b) (p : List Instr) : issue (.build :: p) s = issue p (withTree s b) :=
  issue_cons_core rfl he (exec_build (s := { s with host := queued p }) hk hb)

theorem issue_gen {s : State} {r : CodeRom} (he : s.errKind = .none) (hv : s.treeValid = true)
    (hr : genCodes s.k s.node s.root = .ok r) (p : List Instr) : issue (.gen :: p) s = issue p (withRom s r) :=
  issue_cons_core rfl he (exec_gen (s := { s with host := queued p }) hv hr)

/-- R27: the ROM that GEN writes after BUILD has a code for every key of the table. -/
theorem coded_withRom {s : State} (I : Inv s) (hk : 2 ≤ s.k.toNat) :
    ∃ b r, buildTree s.k s.freq s.present = .ok b ∧ genCodes s.k b.node b.root = .ok r ∧
      Inv (withRom (withTree s b) r) ∧ ∀ x, symGet r.cvalid x = symGet s.present x := by
  obtain ⟨b, hb⟩ := buildTree_total s.freq s.present hk
  obtain ⟨r, hr, C⟩ := genCodes_spec hk hb
  exact ⟨b, r, hb, hr, (I.built hk hb).generated rfl hr, C.valid⟩

/-- R90, R95, R100, R120: COMPRESS up to GEN counts S, builds the tree and generates the codes. -/
theorem issue_coded {k : BitVec 8} {S : List Sym} (hk : 2 ≤ k.toNat) (hS : S.length ≤ 2 ^ 32 - 1) (p : List Instr) :
    ∃ g, Coded k S g ∧
      issue (.setk k :: .clrf :: (S.map .cnt ++ (.build :: .gen :: p))) State.reset = issue p g := by
  have I : Inv { State.reset with k := k } :=
    invariantAtReset.cleared (.inr hk) (fun x _ => symGet_replicate 0#32 x) rfl
  obtain ⟨t, ht, C, hI⟩ := issue_cnts S (.build :: .gen :: p) { State.reset with k := k } rfl
    (fun x => by simp [State.reset]) (by simpa [State.reset] using hS)
  have hkt : t.k = k := by rw [C.only]
  have het : t.errKind = .none := by rw [C.only]; rfl
  have hcount : t.ncount.toNat = S.length := by simpa [State.reset] using C.ncount
  have hpresent : ∀ x, symGet t.present x = true ↔ x ∈ S := by simpa [State.reset] using C.present
  obtain ⟨b, r, hb, hr, Ig, hvalid⟩ := coded_withRom (hI I) (hkt ▸ hk)
  refine ⟨withRom (withTree t b) r, ⟨Ig, hkt, rfl, fun x hx => (hvalid x).trans ((hpresent x).mpr hx), hcount, ?_,
    by rw [C.only]; rfl, by rw [C.only]; rfl, het⟩, ?_⟩
  · cases S with
    | nil => exact .inr (BitVec.eq_of_toNat_eq hcount)
    | cons x S => exact .inl (ndist_pos ((hpresent x).mpr List.mem_cons_self))
  · rw [issue_setk_clrf hk, ht, issue_build het (hkt ▸ hk) hb, issue_gen (s := withTree t b) het rfl hr]

/-- R86, R154: COMPRESS ends without error with the header and the payload in OUT. -/
theorem issue_compress {k : BitVec 8} {S : List Sym} (hk : 2 ≤ k.toNat) (hS : S.length ≤ 2 ^ 32 - 1) :
    ∃ g a, Coded k S g ∧ issue (Asm.compressProgram k S) State.reset = .next a ∧ a.errKind = .none ∧
      a.out = headerBytes g ++ packedBytes (codeStream g S) := by
  have hprogram : Asm.compressProgram k S =
      .setk k :: .clrf :: (S.map .cnt ++ (.build :: .gen :: (.emith :: S.map .enc ++ [.flush]))) := by
    simp [Asm.compressProgram]
  obtain ⟨g, G, hg⟩ := issue_coded hk hS (.emith :: S.map .enc ++ [.flush])
  have hpack := hg.trans (issue_header_payload G.error G.codeValid G.coded G.boff G.inv.acc (G.radix ▸ hk))
  rw [← hprogram] at hpack
  exact ⟨g, _, G, hpack, G.error, by simp [G.out]⟩

/-! ### DECOMPRESS (R86) -/

/-- R58, R79: the bits of packed bytes are the bits packed, and then the padding. -/
theorem bitsOfBytes_packedBytes (bs : List Bool) : ∃ pad, bitsOfBytes (packedBytes bs) = bs ++ pad := by
  have hprefix : bs <+: bitsOfBytes (packedBytes bs) := by
    rw [List.prefix_iff_getElem?]
    intro i hi
    have hbyte : (packedBytes bs)[i / 8]? = some (byteOfBits (bs.drop (8 * (i / 8)))) := by
      rw [packedBytes, bytesOfBits, List.getElem?_map, List.getElem?_range (by omega), Option.map_some]
    have hbit := getElem?_bitsOfBytes (packedBytes bs) (i / 8) (i % 8) (by omega)
    rw [hbyte, Option.map_some, getLsbD_byteOfBits _ _ (by omega), List.getElem?_drop, Nat.div_add_mod,
      show 8 * (i / 8) + (7 - (7 - i % 8)) = i by omega, List.getElem?_eq_getElem hi, Option.getD_some] at hbit
    exact hbit
  obtain ⟨pad, hpad⟩ := hprefix
  exact ⟨pad, hpad.symm⟩

/-- The state PARSEH leaves in DECOMPRESS when IN begins with the header of g. -/
def reparsed (g : State) (inp : List Byte) : State :=
  { State.reset with
    inp := inp, inFixed := true, k := g.k, ncount := g.ncount, freq := g.freq, present := g.present
    inpos := 9 + 5 * ndist g.present }

/-- The state BUILD then leaves: the tree is the one g holds. -/
def rebuilt (g : State) (inp : List Byte) : State :=
  withTree (reparsed g inp) ⟨g.node, g.nnodes, g.nleaf, g.npad, g.root⟩

section
variable {k : BitVec 8} {S : List Sym} {g : State} (G : Coded k S g) (hk : 2 ≤ k.toNat) {payload : List Byte}
include G hk

/-- R173: PARSEH reads back the header of g. -/
theorem Coded.exec_parseh (host : List HostMove) :
    exec .parseh { State.reset with inp := headerBytes g ++ payload, host := host, inFixed := true } =
      .next { reparsed g (headerBytes g ++ payload) with host := host } := by
  rw [exec_parseh_headerBytes (s := g) (rest := payload) (G.radix ▸ hk) G.inv.table G.counted rfl]
  simp [reparsed, startByte, State.reset]

omit hk in
/-- R27, R116: BUILD makes of the table of g the tree g holds. -/
theorem Coded.exec_build (host : List HostMove) :
    exec .build { reparsed g (headerBytes g ++ payload) with host := host } =
      .next { rebuilt g (headerBytes g ++ payload) with host := host } := by
  obtain ⟨hkg, -, htree, -⟩ := G.inv.codes_ok G.codeValid
  exact Machine.exec_build (s := { reparsed g (headerBytes g ++ payload) with host := host }) hkg htree

theorem Coded.inv_rebuilt : Inv (rebuilt g (headerBytes g ++ payload)) := by
  have I := (inv_reset_hosted (headerBytes g ++ payload) [] [] 0).fixed true
  exact (I.exec (i := .parseh) (fun _ => rfl) (G.exec_parseh hk [])).exec (i := .build) nofun (G.exec_build [])

/-- R182: what follows the header of g in IN are the bits of S's codes, so DECODE emits S. -/
theorem Coded.exec_decode (host : List HostMove) : ∃ bits, exec .decode
      { rebuilt g (headerBytes g ++ packedBytes (codeStream g S)) with host := host } =
    .next (decodedAll { rebuilt g (headerBytes g ++ packedBytes (codeStream g S)) with host := host } S bits) := by
  obtain ⟨pad, hpad⟩ := bitsOfBytes_packedBytes (codeStream g S)
  refine ⟨_, exec_decode_codes (code := codeOf g) (rest := pad) ((G.inv_rebuilt hk).hosted host) rfl rfl G.ncount.symm
    (fun x hx => G.inv.code_path G.codeValid (G.coded x hx)) ?_⟩
  have hstart : startByte { rebuilt g (headerBytes g ++ packedBytes (codeStream g S)) with host := host } =
      (headerBytes g).length := (length_headerBytes g).symm
  rw [hstart, drop_bitsOfBytes]
  exact (congrArg bitsOfBytes List.drop_left).trans hpad

/-- R86, R182: DECOMPRESS of the header of g and the payload of S ends with S in OUT. -/
theorem Coded.issue_decompress : ∃ b, issue Asm.decompressProgram
      { State.reset with inp := headerBytes g ++ packedBytes (codeStream g S) } = .next b ∧
    b.errKind = .none ∧ b.out = S ∧ b.decDone = true ∧ b.k = k := by
  obtain ⟨bits, hdecode⟩ := G.exec_decode hk []
  have hrun : issue Asm.decompressProgram { State.reset with inp := headerBytes g ++ packedBytes (codeStream g S) } =
      .next { decodedAll (rebuilt g (headerBytes g ++ packedBytes (codeStream g S))) S bits with host := [] } :=
    calc issue [.parseh, .build, .decode] { State.reset with inp := headerBytes g ++ packedBytes (codeStream g S) }
        = issue [.build, .decode] (reparsed g (headerBytes g ++ packedBytes (codeStream g S))) :=
          issue_cons rfl (G.exec_parseh hk _)
      _ = issue [.decode] (rebuilt g (headerBytes g ++ packedBytes (codeStream g S))) :=
          issue_cons_core rfl rfl (G.exec_build _)
      _ = issue [] (decodedAll (rebuilt g (headerBytes g ++ packedBytes (codeStream g S))) S bits) :=
          issue_cons rfl hdecode
  exact ⟨_, hrun, rfl, rfl, rfl, G.radix⟩

end

/-- Settles O51: COMPRESS leaves the header and the payload of S, which DECOMPRESS reads back. -/
theorem roundTrip : Obligations.RoundTrip := by
  intro k S hk hS
  obtain ⟨g, a, G, ha, hnone, hout⟩ := issue_compress hk hS
  obtain ⟨b, hb, hdecoded⟩ := G.issue_decompress hk
  exact ⟨a, b, ha, hnone, by rw [hout]; exact hb, hdecoded⟩

end Sys2Proof.Machine
end

section
/-! PROOFS. Statements on the host's side: the words and lines it writes (spec/30_encoding.md R72, R84 to R86), its moves
(spec/20_memory.md R57, R69, spec/70_reset_and_hazards.md R270, R280, R284) and the soft reset (spec/45_control.md R201). -/

namespace Sys2Proof.Machine

/-! ### Words and lines -/

/-- Settles O1: the fourteen words are encodings, and the vectors' words fail the opcode or the field check. -/
theorem writtenWordsDecode : Obligations.WrittenWordsDecode := by
  refine ⟨decode_encode .nop, decode_encode (.setk 3#8), decode_encode .clrf, decode_encode (.cnt 0x61#8),
    decode_encode (.ldf 0x61#8 2#32), decode_encode (.setn 3#32), decode_encode .build, decode_encode .gen,
    decode_encode .emith, decode_encode (.enc 0x61#8), decode_encode .flush, decode_encode .parseh, decode_encode .decode,
    decode_encode .srst, ?_, ?_, ?_, ?_, ?_⟩ <;> decide

section
open Asm

theorem radixOperand_none {k : Nat} (h : k < 2 ∨ 255 < k) : radixOperand k = none := if_neg (by omega)

theorem symOperand_none {x : Nat} (h : 255 < x) : symOperand x = none := if_neg (by omega)

theorem wordOperand_none {n : Nat} (h : 2 ^ 32 ≤ n) : wordOperand n = none := if_neg (by omega)

theorem ldfInstr_none {x f : Nat} (h : 255 < x ∨ 2 ^ 32 ≤ f) : ldfInstr x f = none := by
  unfold ldfInstr
  rcases h with h | h
  · rw [symOperand_none h]
  · rw [wordOperand_none h]
    cases symOperand x <;> rfl

/-- R85: the numbers of a symbol and a word are taken back. -/
theorem ldfInstr_toNat (x : Sym) (f : Word32) : ldfInstr x.toNat f.toNat = some (.ldf x f) := by
  have hx := x.isLt
  have hf := f.isLt
  simp [ldfInstr, symOperand, wordOperand, show x.toNat ≤ 255 by omega, hf]

theorem expand_ldft (es : List (Sym × Word32)) :
    expand (.ldft (es.map (fun e => (e.1.toNat, e.2.toNat)))) = some (es.map (fun e => .ldf e.1 e.2)) := by
  simp only [expand]
  induction es with
  | nil => rfl
  | cons e es ih => simp [List.mapM_cons, ldfInstr_toNat, ih]

/-- One entry out of range rejects the line. -/
theorem expand_ldft_none {es : List (Nat × Nat)} (h : ∃ e ∈ es, 255 < e.1 ∨ 2 ^ 32 ≤ e.2) : expand (.ldft es) = none := by
  simp only [expand]
  induction es with
  | nil => simp at h
  | cons e es ih =>
    obtain ⟨e', he', hbad⟩ := h
    rw [List.mapM_cons]
    rcases List.mem_cons.mp he' with rfl | hin
    · rw [ldfInstr_none hbad]
      rfl
    · rw [ih ⟨e', hin, hbad⟩]
      cases ldfInstr e.1 e.2 <;> rfl

/-- Settles O6: each expansion is the definition's, and each range check is `none` outside its range. -/
theorem assemblerExpands : Obligations.AssemblerExpands := by
  refine ⟨fun k text h2 h255 => ?_, rfl, fun text => ⟨rfl, rfl⟩, expand_ldft, fun k h => ⟨?_, fun text => ?_⟩,
    fun x h => ⟨?_, ?_, fun f => ?_⟩, fun n h => ⟨?_, fun x => ?_⟩, fun es => expand_ldft_none⟩
  · simp [expand, radixOperand, h2, h255, compressProgram]
  · simp [expand, oneInstr, radixOperand_none h]
  · simp [expand, radixOperand_none h]
  · simp [expand, oneInstr, symOperand_none h]
  · simp [expand, oneInstr, symOperand_none h]
  · simp [expand, ldfInstr_none (f := f) (.inl h)]
  · simp [expand, oneInstr, wordOperand_none h]
  · simp [expand, ldfInstr_none (x := x) (.inr h)]

end

/-! ### Steps -/

/-- Settles O7: the word is off the queue before the command it decodes to is executed. -/
theorem stepRunsDecoded : Obligations.StepRunsDecoded := by
  intro s c rest i hhost herr hdec
  exact (step_host hhost).trans (dispatch_ok (s := { s with host := rest }) herr hdec)

/-- R201: the exact SRST word is the only one with its opcode that passes the field check. -/
theorem fieldsBad_srst {c : CmdWord} (hopc : Cmd.opc c = Opcode.srst.code) (hc : c ≠ srstWord) :
    fieldsBad .srst c = true := by
  by_contra hbad
  refine hc ((word_eq_of_fields_ok rfl rfl (Bool.eq_false_iff.mpr hbad)).trans ?_)
  rw [hopc]
  decide

/-- Settles O9: SRST is the reset with the host's side kept; another word of its opcode fails the field check or is
dropped. -/
theorem softReset : Obligations.SoftReset := by
  refine fun s rest => ⟨rfl, fun hhost => (step_host hhost).trans (dispatch_srstWord _), fun c hhost hopc hc =>
    ⟨fun herr => ?badField, fun herr => pendingErrorDrops s c rest hhost herr hc⟩⟩
  case badField =>
    have hdec : decode c = .error .badField := decode_badField (o := .srst) hopc (fieldsBad_srst hopc hc)
    have hopc' : Cmd.opc c = 0xFF#8 := hopc
    rw [step_host hhost, hostMove]
    refine (dispatch_error (s := { s with host := rest }) herr hdec).trans ?_
    rw [raiseDecode_eq, hopc']
    rfl

/-- Settles O12: each move is taken off the queue and does what its line of `hostMove` says. -/
theorem hostMovesLeaveCore : Obligations.HostMovesLeaveCore := by
  refine fun s rest => ⟨step_idle, fun a h => step_host h, fun a h => ⟨_, step_host h⟩, fun bytes h =>
    ⟨fun hfree => ?_, fun hfixed => ?_⟩, fun bytes h => step_host h⟩
  · exact (step_host h).trans (if_neg (Bool.eq_false_iff.mp hfree))
  · exact (step_host h).trans (if_pos hfixed)

end Sys2Proof.Machine
end

section
/-! PROOFS. Statements on the register read port (spec/10_state.md R38, spec/70_reset_and_hazards.md R272): the map row by
row, and what reset looks like through it. -/

namespace Sys2Proof.Machine

/-! ### The regions of the address space (R38) -/

section
variable (s : State) {a : RegAddr}

theorem regRead_named (h : a.toNat < 0x00100) : regRead s a = namedWord s a.toNat := if_pos h

theorem regRead_freq (h1 : 0x00100 ≤ a.toNat) (h2 : a.toNat < 0x00200) :
    regRead s a = symGet s.freq (a.extractLsb' 0 8) := by
  simp only [regRead]
  rw [if_neg (by omega), if_pos (by omega)]

theorem regRead_symInfo (h1 : 0x00200 ≤ a.toNat) (h2 : a.toNat < 0x00300) :
    regRead s a = symInfoWord s (a.extractLsb' 0 8) := by
  simp only [regRead]
  rw [if_neg (by omega), if_neg (by omega), if_pos (by omega)]

theorem regRead_cdig (h1 : 0x10000 ≤ a.toNat) (h2 : a.toNat < 0x20000) :
    regRead s a = cdigWord s (a.extractLsb' 8 8) (a.extractLsb' 0 8) := by
  simp only [regRead]
  rw [if_neg (by omega), if_neg (by omega), if_neg (by omega), if_neg (by omega), if_pos (by omega)]

theorem regRead_node (h1 : 0x20000 ≤ a.toNat) (h2 : a.toNat < 0x20800) :
    regRead s a = nodeWord s (a.extractLsb' 2 9) (a.extractLsb' 0 2) := by
  simp only [regRead]
  rw [if_neg (by omega), if_neg (by omega), if_neg (by omega), if_neg (by omega), if_neg (by omega), if_pos (by omega)]

theorem regRead_child (h1 : 0x40000 ≤ a.toNat) (h2 : a.toNat < 0x60000) :
    regRead s a = childWord s (a.extractLsb' 8 9) (a.extractLsb' 0 8) := by
  simp only [regRead]
  rw [if_neg (by omega), if_neg (by omega), if_neg (by omega), if_neg (by omega), if_neg (by omega), if_neg (by omega),
    if_neg (by omega), if_pos (by omega)]

/-- R38: the addresses between the regions and past the last of them read 0. -/
theorem regRead_gap (h : (0x00300 ≤ a.toNat ∧ a.toNat < 0x10000) ∨ (0x20800 ≤ a.toNat ∧ a.toNat < 0x40000) ∨
    0x60000 ≤ a.toNat) : regRead s a = 0#32 := by
  simp only [regRead]
  rcases h with ⟨h1, h2⟩ | ⟨h1, h2⟩ | h1
  · rw [if_neg (by omega), if_neg (by omega), if_neg (by omega), if_pos (by omega)]
  · rw [if_neg (by omega), if_neg (by omega), if_neg (by omega), if_neg (by omega), if_neg (by omega), if_neg (by omega),
      if_pos (by omega)]
  · rw [if_neg (by omega), if_neg (by omega), if_neg (by omega), if_neg (by omega), if_neg (by omega), if_neg (by omega),
      if_neg (by omega), if_neg (by omega)]

/-- R38: the named words end at 0x00011. -/
theorem namedWord_of_ge {n : Nat} (h : 0x12 ≤ n) : namedWord s n = 0#32 := by
  obtain ⟨m, rfl⟩ := Nat.exists_eq_add_of_le' h
  rfl

/-! ### Addresses by row and index -/

theorem regAddr_toNat {n : Nat} (h : n < 2 ^ 20) : (BitVec.ofNat 20 n).toNat = n := by
  rw [BitVec.toNat_ofNat, Nat.mod_eq_of_lt h]

/-- An index stands in its bits of the address. -/
theorem regAddr_field {n lo w : Nat} {v : BitVec w} (h : n < 2 ^ 20) (hv : n / 2 ^ lo % 2 ^ w = v.toNat) :
    (BitVec.ofNat 20 n).extractLsb' lo w = v :=
  BitVec.eq_of_toNat_eq (by rw [BitVec.extractLsb'_toNat, regAddr_toNat h, Nat.shiftRight_eq_div_pow, hv])

theorem regRead_freqAddr (x : Sym) : regRead s (BitVec.ofNat 20 (0x00100 + x.toNat)) = symGet s.freq x := by
  have hx := x.isLt
  have hn := regAddr_toNat (n := 0x00100 + x.toNat) (by omega)
  rw [regRead_freq s (by omega) (by omega), regAddr_field (v := x) (by omega) (by omega)]

theorem regRead_symInfoAddr (x : Sym) : regRead s (BitVec.ofNat 20 (0x00200 + x.toNat)) = symInfoWord s x := by
  have hx := x.isLt
  have hn := regAddr_toNat (n := 0x00200 + x.toNat) (by omega)
  rw [regRead_symInfo s (by omega) (by omega), regAddr_field (v := x) (by omega) (by omega)]

theorem regRead_cdigAddr (x : Sym) (i : BitVec 8) :
    regRead s (BitVec.ofNat 20 (0x10000 + 256 * x.toNat + i.toNat)) = cdigWord s x i := by
  have hx := x.isLt
  have hi := i.isLt
  have hn := regAddr_toNat (n := 0x10000 + 256 * x.toNat + i.toNat) (by omega)
  rw [regRead_cdig s (by omega) (by omega), regAddr_field (v := x) (by omega) (by omega),
    regAddr_field (v := i) (by omega) (by omega)]

theorem regRead_nodeAddr (n : NodeIdx) (j : BitVec 2) :
    regRead s (BitVec.ofNat 20 (0x20000 + 4 * n.toNat + j.toNat)) = nodeWord s n j := by
  have hx := n.isLt
  have hj := j.isLt
  have hn := regAddr_toNat (n := 0x20000 + 4 * n.toNat + j.toNat) (by omega)
  rw [regRead_node s (by omega) (by omega), regAddr_field (v := n) (by omega) (by omega),
    regAddr_field (v := j) (by omega) (by omega)]

theorem regRead_childAddr (n : NodeIdx) (c : BitVec 8) :
    regRead s (BitVec.ofNat 20 (0x40000 + 256 * n.toNat + c.toNat)) = childWord s n c := by
  have hx := n.isLt
  have hc := c.isLt
  have hn := regAddr_toNat (n := 0x40000 + 256 * n.toNat + c.toNat) (by omega)
  rw [regRead_child s (by omega) (by omega), regAddr_field (v := n) (by omega) (by omega),
    regAddr_field (v := c) (by omega) (by omega)]

/-! ### The words -/

theorem widthWord_eq : widthWord s = if 2 ≤ s.k.toNat then BitVec.ofNat 32 (digitWidth s.k) else 0#32 := by
  unfold widthWord
  by_cases hk : s.k.toNat < 2
  · rw [if_pos ((lt_two s.k).mpr hk), if_neg (by omega)]
  · rw [if_neg ((lt_two s.k).not.mpr hk), if_pos (by omega)]

/-- A number below a power of two is a bit vector's. -/
theorem exists_toNat_eq {w n : Nat} (h : n < 2 ^ w) : ∃ v : BitVec w, v.toNat = n :=
  ⟨BitVec.ofNat w n, by rw [BitVec.toNat_ofNat, Nat.mod_eq_of_lt h]⟩

theorem cdigWord_digit (x : Sym) {i : BitVec 8} (h : i.toNat < 255) :
    cdigWord s x i = (digitAt s.cdig x i.toNat).setWidth 32 :=
  if_neg fun hi => by rw [hi] at h; exact absurd h (Nat.lt_irrefl 255)

theorem childWord_child {n : NodeIdx} (hn : n ≠ Config.nil) {c : BitVec 8} (h : c.toNat < 255) :
    childWord s n c = ((nodeAt s.node n).child c.toNat).setWidth 32 :=
  if_neg (not_or.mpr ⟨hn, fun hc => by rw [hc] at h; exact absurd h (Nat.lt_irrefl 255)⟩)

/-- R38: a node word is of the entry, or of a FREE one for NIL. -/
theorem nodeWord_eq {n : NodeIdx} (hn : n ≠ Config.nil) :
    nodeWord s n 0#2 = 0#7 ++ (nodeAt s.node n).key ++ (nodeAt s.node n).sym ++ 0#6 ++ (nodeAt s.node n).kind.code ∧
      nodeWord s n 1#2 = (nodeAt s.node n).freq.extractLsb' 0 32 ∧
      nodeWord s n 2#2 = 0#24 ++ (nodeAt s.node n).freq.extractLsb' 32 8 ∧
      nodeWord s n 3#2 = 0#24 ++ (nodeAt s.node n).nch := by
  simp only [nodeWord, if_neg hn]
  exact ⟨rfl, rfl, rfl, rfl⟩

/-- Every word of a FREE entry is 0 (R30). -/
theorem nodeWord_free {n : NodeIdx} (hn : n = Config.nil ∨ nodeAt s.node n = Node.free) (j : BitVec 2) :
    nodeWord s n j = 0#32 := by
  have hfree : (if n = Config.nil then Node.free else nodeAt s.node n) = Node.free := by
    rcases hn with hn | hn
    · exact if_pos hn
    · rw [hn, ite_self]
  simp only [nodeWord, hfree]
  revert j
  decide

end

/-! ### The statements -/

/-- Settles O14: the address of each row is in its region, with the index in its bits. -/
theorem registerReadMap : Obligations.RegisterReadMap := by
  refine ⟨⟨rfl, rfl, rfl, rfl⟩, ⟨rfl, rfl, rfl, rfl⟩, fun s => ⟨rfl, rfl, rfl, rfl, rfl, widthWord_eq s, rfl, rfl, rfl, rfl,
    rfl, rfl, rfl, rfl, rfl, rfl, rfl, rfl, fun x => ⟨regRead_freqAddr s x, regRead_symInfoAddr s x, fun i hi => ?cdig,
    regRead_cdigAddr s x 255#8⟩, fun n hn => ?node, fun j hj => ?nilNode, fun c hc => ?nilChild, fun a ha => ?gap⟩⟩
  case cdig =>
    obtain ⟨i, rfl⟩ := exists_toNat_eq (w := 8) (show i < 2 ^ 8 by omega)
    rw [regRead_cdigAddr, cdigWord_digit s x hi]
  case node =>
    obtain ⟨h0, h1, h2, h3⟩ := nodeWord_eq s hn
    refine ⟨(regRead_nodeAddr s n 0#2).trans h0, (regRead_nodeAddr s n 1#2).trans h1, (regRead_nodeAddr s n 2#2).trans h2,
      (regRead_nodeAddr s n 3#2).trans h3, fun c hc => ?_, (regRead_childAddr s n 255#8).trans (if_pos (.inr rfl))⟩
    obtain ⟨c, rfl⟩ := exists_toNat_eq (w := 8) (show c < 2 ^ 8 by omega)
    rw [regRead_childAddr, childWord_child s hn hc]
  case nilNode =>
    obtain ⟨j, rfl⟩ := exists_toNat_eq (w := 2) (show j < 2 ^ 2 by omega)
    exact (regRead_nodeAddr s Config.nil j).trans (nodeWord_free s (.inl rfl) j)
  case nilChild =>
    obtain ⟨c, rfl⟩ := exists_toNat_eq (w := 8) (show c < 2 ^ 8 by omega)
    exact (regRead_childAddr s Config.nil c).trans (if_pos (.inl rfl))
  case gap =>
    rcases ha with ⟨h1, h2⟩ | ha
    · rw [regRead_named s h2, namedWord_of_ge s h1]
    · exact regRead_gap s ha

/-- R41, R272: of the named words only ID, ROOT and CURSOR are not 0 at reset. -/
theorem namedWord_reset : ∀ n < 0x12, n ≠ 0x00 → n ≠ 0x0B → n ≠ 0x11 → namedWord State.reset n = 0#32 := by
  decide +kernel

/-- Settles O11: region by region, every array is empty or constant 0 at reset. -/
theorem resetReadsFromHost : Obligations.ResetReadsFromHost := by
  refine ⟨rfl, rfl, rfl, fun a hID hROOT hCURSOR => ?_, rfl⟩
  have hlt := a.isLt
  have hne {v : RegAddr} (h : a ≠ v) : a.toNat ≠ v.toNat := fun e => h (BitVec.eq_of_toNat_eq e)
  rcases Nat.lt_or_ge a.toNat 0x00100 with h1 | h1
  · rw [regRead_named _ h1]
    rcases Nat.lt_or_ge a.toNat 0x12 with h2 | h2
    · exact namedWord_reset _ h2 (hne hID) (hne hROOT) (hne hCURSOR)
    · exact namedWord_of_ge _ h2
  rcases Nat.lt_or_ge a.toNat 0x00200 with h2 | h2
  · rw [regRead_freq _ h1 h2]
    exact symGet_replicate _ _
  rcases Nat.lt_or_ge a.toNat 0x00300 with h3 | h3
  · rw [regRead_symInfo _ h2 h3]
    simp [symInfoWord, State.reset]
  rcases Nat.lt_or_ge a.toNat 0x10000 with h4 | h4
  · exact regRead_gap _ (.inl ⟨h3, h4⟩)
  rcases Nat.lt_or_ge a.toNat 0x20000 with h5 | h5
  · rw [regRead_cdig _ h4 h5]
    simp [cdigWord, digitAt, State.reset]
  rcases Nat.lt_or_ge a.toNat 0x20800 with h6 | h6
  · rw [regRead_node _ h5 h6]
    exact nodeWord_free _ (.inr (nodeAt_of_le [] _ (Nat.zero_le _))) _
  rcases Nat.lt_or_ge a.toNat 0x40000 with h7 | h7
  · exact regRead_gap _ (.inr (.inl ⟨h6, h7⟩))
  rcases Nat.lt_or_ge a.toNat 0x60000 with h8 | h8
  · rw [regRead_child _ h7 h8]
    simp [childWord, State.reset, nodeAt, Node.free, Node.child]
  · exact regRead_gap _ (.inr (.inr h8))

end Sys2Proof.Machine
end
